-- ==== Sys2Proof/Word.lean ====
section
/-! DEFINITION. The word types of `multiword_adder`: the fields of a command word (30_encoding.md R72)
and the words of a value register (00_scope.md R9). -/

namespace Sys2Proof

/-- A 128-bit command word `cmd[127:0]` (30_encoding.md R71). -/
abbrev CmdWord := BitVec 128

/-- A register field `RD`, `RA` or `RB` (30_encoding.md R72). -/
abbrev RegField := BitVec 4

/-- A 16-bit field: `DD`, `IMM`, `DA`, `DB`, `EA` or `EB` (30_encoding.md R72). -/
abbrev Field16 := BitVec 16

/-- The 64-bit `DATA` field of a command and the 64-bit data of a response (30_encoding.md R74, R84). -/
abbrev Data64 := BitVec 64

/-- One word of a value register: an unsigned integer in `[0, 2^W - 1]` (00_scope.md R9). The width
`W` is a parameter of the instance, so the bound is an invariant of the state (Safety.lean), not part
of the type. -/
abbrev Word := Nat

end Sys2Proof
end

