-- ==== Sys2Proof/Machine/Ranges.lean ====
section
/-! DEFINITION. Ranges and extensions of a type with `d` digits and signedness `sg` (00_scope.md R12), on
mathematical integers (R10). -/

namespace Sys2Proof.Machine

/-- `2^k` as an integer. -/
def pow2 (k : Nat) : Int := ((2 ^ k : Nat) : Int)

/-- `lo(D, s)` (00_scope.md R12). -/
def lo (d : Nat) (sg : Bool) : Int := if sg then -pow2 (d - 1) else 0

/-- `hi(D, s)` (00_scope.md R12). -/
def hi (d : Nat) (sg : Bool) : Int := if sg then pow2 (d - 1) - 1 else pow2 d - 1

/-- `fits(x, D, s)` (00_scope.md R12): the overflow_detector's predicate (42_policy.md R167). -/
def fits (x : Int) (d : Nat) (sg : Bool) : Bool := decide (lo d sg ≤ x ∧ x ≤ hi d sg)

/-- `wrap(x, D, s)` (00_scope.md R12). -/
def wrap (x : Int) (d : Nat) (sg : Bool) : Int :=
  if sg then (x + pow2 (d - 1)) % pow2 d - pow2 (d - 1) else x % pow2 d

/-- `sat(x, D, s)` (00_scope.md R12). -/
def sat (x : Int) (d : Nat) (sg : Bool) : Int :=
  if x > hi d sg then hi d sg else if x < lo d sg then lo d sg else x

/-- `ext(u, D, s)` for `u` in `[0, 2^D - 1]` (00_scope.md R12). -/
def ext (u : Int) (d : Nat) (sg : Bool) : Int := if sg && decide (u ≥ pow2 (d - 1)) then u - pow2 d else u

end Sys2Proof.Machine
end

