-- ==== Sys2Proof/Machine/Failure.lean ====
section
/-! DEFINITION. The five failures of a command and their codes (60_exceptions.md R231). -/

namespace Sys2Proof.Machine

/-- The failures of 60_exceptions.md R231, in the order of their codes. -/
inductive Failure
  /-- Code 1: the divisor of WDIV, WMOD, PDIV, FDIV or FQNT is 0. -/
  | divideByZero
  /-- Code 2: `OVF = CHK` and the rounded result does not fit. -/
  | overflow
  /-- Code 3: the command word fails a check of 30_encoding.md R83 steps 1 to 4. -/
  | illegalCommand
  /-- Code 4: a word the command reads has valid bit 0. -/
  | uninitRead
  /-- Code 5: `EL = 1` and the deduced digit count exceeds `NW`. -/
  | capacityExceeded
deriving DecidableEq, Repr

/-- The code of a failure (60_exceptions.md R231). -/
def failureCode : Failure → Nat
  | .divideByZero => 1
  | .overflow => 2
  | .illegalCommand => 3
  | .uninitRead => 4
  | .capacityExceeded => 5

/-- A check of a command: on `false` it raises `f`. -/
def require (c : Bool) (f : Failure) : Except Failure Unit := if c then .ok () else .error f

end Sys2Proof.Machine
end

