-- ==== Sys2Proof/Config.lean ====
section
/-! DEFINITION. What one instance of the hardware fixes (00_scope.md R5 to R8) and the one value the
spec leaves free (93_implementation_defined.md U1). -/

namespace Sys2Proof

/-- The open parameters of one instance: word size `W`, register length `N` in words, number of value
registers `NREG` (00_scope.md R5, R6, R7). No command changes them. -/
structure Params where
  /-- `W`, bits in a word (R5). -/
  w : Nat
  /-- `N`, words in a value register (R6). -/
  n : Nat
  /-- `NREG`, value registers (R7). -/
  nreg : Nat
deriving DecidableEq, Repr

/-- `NW = N * W`, the total width in bits of a value register (00_scope.md R8). -/
def Params.nw (p : Params) : Nat := p.n * p.w

/-- The ranges of the parameters: `1 <= W <= 64`, `N >= 1`, `N * W <= 65535`, `1 <= NREG <= 16`
(00_scope.md R5, R6, R7). -/
abbrev Params.Valid (p : Params) : Prop :=
  1 ≤ p.w ∧ p.w ≤ 64 ∧ 1 ≤ p.n ∧ p.n * p.w ≤ 65535 ∧ 1 ≤ p.nreg ∧ p.nreg ≤ 16

/-- `any_words()` (00_scope.md R13, 42_policy.md R168): the pattern of the given draw. It has no body:
nothing can be proved of its value, nor that two draws agree or differ
(93_implementation_defined.md U1; log 6). The register written takes the pattern modulo `2^NW`. -/
opaque Config.anyWords : Nat → Nat

end Sys2Proof
end

