-- ==== Sys2Proof/Machine/Instance.lean ====
section
/-! DEFINITION. The instance whose reset state is `State.reset` (log 1). -/

namespace Sys2Proof.Machine

/-- The first instance of the spec's test vectors: `W=8, N=2, NREG=8` (00_scope.md R8). DESIGN CHOICE: the
spec leaves the three parameters open; every other instance is `State.resetOf` of its own parameters
(log 1). -/
def instanceParams : Params := ⟨8, 2, 8⟩

end Sys2Proof.Machine
end

