-- ==== Sys2Proof/Machine/State.lean ====
section
/-! DEFINITION. The state of the block: everything the spec gives it (10_state.md), the host's side of the
interface (60_exceptions.md R248), and the counter of unspecified draws. -/

namespace Sys2Proof.Machine

/-- One word of a value register with its valid bit: `v[i].w[k]` and `v[i].ok[k]` (10_state.md R20, R23). -/
structure VWord where
  val : Word
  ok : Bool
deriving DecidableEq, Repr

/-- A value register: its words, word 0 (the least significant) first (20_memory.md R51). -/
abbrev VReg := List VWord

/-- What the host can present to the block: a command word, or a reset (60_exceptions.md R248,
70_reset_and_hazards.md R260). -/
inductive HostEvent
  | command (c : CmdWord)
  | reset
deriving DecidableEq, Repr

/-- The response to a command: `status[7:0]` and `data[63:0]` (30_encoding.md R84). -/
structure Response where
  status : BitVec 8
  data : Data64
deriving DecidableEq, Repr

/-- The machine's state. -/
structure State where
  /-- `W`, `N`, `NREG`: the constants of the instance, read back as PARAMS (10_state.md R31). No step
  changes them (log 1). -/
  params : Params
  /-- `v[0]` to `v[NREG-1]` (10_state.md R20). -/
  regs : List VReg
  /-- FLAGS, CSR 1 (10_state.md R25). -/
  flags : BitVec 3
  /-- STATUS, CSR 0 (10_state.md R26). -/
  status : BitVec 16
  /-- RTYPE, CSR 2 (10_state.md R28). -/
  rtype : BitVec 49
  /-- The model's own: the events the host has yet to present, first one first (log 2). -/
  input : List HostEvent
  /-- The model's own: the responses produced, oldest first (log 4). -/
  out : List Response
  /-- The model's own: how many unspecified patterns have been drawn (log 6). -/
  draws : Nat
deriving DecidableEq, Repr

/-- The machine never stops with a fault: a failing command is a next state in which STATUS records the
failure (60_exceptions.md R236), and "no failure is a stuck state" (R238). So the type has no
constructor, and nothing raises one (log 9). -/
inductive Fault
deriving DecidableEq, Repr

/-- Why the model gives a command no meaning. -/
inductive Refusal
  /-- Raised only by an arm of `exec` whose instruction has no meaning yet; no arm answers it. Safe: nothing
  is claimed of an instruction that is refused. -/
  | notModelled (mnemonic : String)
deriving DecidableEq, Repr

/-- The outcome of a step or of a meaning. -/
abbrev Outcome := Host.Outcome State Fault Refusal

/-- The state of the instance `p` after reset (10_state.md R38, 70_reset_and_hazards.md R261): every valid
bit 0, FLAGS, STATUS and RTYPE 0. The words are unspecified and unobservable there; 0 is a DESIGN CHOICE
(log 5), as are the empty lists (log 2, log 4) and the counter (log 6). -/
def State.resetOf (p : Params) : State where
  params := p
  regs := List.replicate p.nreg (List.replicate p.n ⟨0, false⟩)
  flags := 0
  status := 0
  rtype := 0
  input := []
  out := []
  draws := 0

/-- The machine right after reset, for the instance `instanceParams` (log 1). -/
def State.reset : State := State.resetOf instanceParams

end Sys2Proof.Machine
end

