-- ==== Sys2Proof/Machine/Operands.lean ====
section
/-! DEFINITION. The value functions of a register (00_scope.md R11), the reading of source operands
(R13, 10_state.md R23) and the immediates of a command (30_encoding.md R74, R75). -/

namespace Sys2Proof.Machine

/-- `uval` of words of `w` bits, word 0 first: the sum of `w[k] * 2^(k*W)` (00_scope.md R11). -/
def uval (w : Nat) : List Word → Nat
  | [] => 0
  | x :: xs => x + 2 ^ w * uval w xs

/-- `sval`: the unsigned value read as a two's-complement number of `NW` bits (00_scope.md R11). -/
def sval (p : Params) (ws : List Word) : Int :=
  let u : Int := uval p.w ws
  if u < pow2 (p.nw - 1) then u else u - pow2 p.nw

/-- `val(r, s)` (00_scope.md R11). -/
def val (p : Params) (sg : Bool) (ws : List Word) : Int := if sg then sval p ws else uval p.w ws

/-- Word `k` of `words(x)`: `((x mod 2^NW) div 2^(k*W)) mod 2^W` (00_scope.md R11). -/
def wordOf (p : Params) (x : Int) (k : Nat) : Word := (x % pow2 p.nw).toNat / 2 ^ (k * p.w) % 2 ^ p.w

/-- `words(x)`, the `N` words of `x mod 2^NW` (00_scope.md R11). -/
def words (p : Params) (x : Int) : List Word := (List.range p.n).map (wordOf p x)

/-- The words of a register, without their valid bits. -/
def VReg.words (v : VReg) : List Word := v.map VWord.val

/-- `N` words, every one valid (10_state.md R23). The length is part of the check only so that a list
that is no register of the instance reads as unwritten (log 8). -/
def VReg.whole (p : Params) (v : VReg) : Bool := v.length == p.n && v.all VWord.ok

/-- The register a field names (10_state.md R20). -/
def State.reg (s : State) (r : RegField) : VReg := s.regs.getD r.toNat []

/-- Every word of `v[r]` is valid, so a command may read it as an operand (10_state.md R23). -/
def State.readable (s : State) (r : RegField) : Bool := (s.reg r).whole s.params

/-- `val(v[r], s)` of the register a field names. -/
def State.valOf (s : State) (r : RegField) (sg : Bool) : Int := val s.params sg (s.reg r).words

/-- The read of a source operand: `val(v[r], s)`, or UninitRead unless all its words are valid
(00_scope.md R13, 60_exceptions.md R234). -/
def State.source (s : State) (r : RegField) (sg : Bool) : Except Failure Int :=
  if s.readable r then .ok (s.valOf r sg) else .error .uninitRead

/-- The read of one word, RDW's operand: UninitRead unless its valid bit is 1 (10_state.md R23). -/
def State.sourceWord (s : State) (r : RegField) (k : Nat) : Except Failure Word :=
  match (s.reg r)[k]? with
  | some ⟨v, true⟩ => .ok v
  | _ => .error .uninitRead

/-- `SH`, `K`, `CSR`, `KIND`, `DD`, `DA`, `DB`: a field read as an unsigned number (30_encoding.md R75). -/
def zextField (f : Field16) : Nat := f.toNat

/-- `ED`, `EA`, `EB`: a field read as a two's-complement exponent (30_encoding.md R75). -/
def sextField (f : Field16) : Int := if 32768 ≤ f.toNat then (f.toNat : Int) - 65536 else f.toNat

end Sys2Proof.Machine
end

