-- ==== Sys2Proof/Syntax.lean ====
section
/-! DEFINITION. The commands of MWA-1 as syntax: one constructor of `Instr` for each of the 27 rows of
spec/opcode_table.json (30_encoding.md R79), with the fields that row uses. -/

namespace Sys2Proof

/-- The five rounding tags (10_state.md R35, 30_encoding.md R76). -/
inductive Rnd
  /-- nearest-ties-to-even -/
  | te
  /-- nearest-ties-away-from-zero -/
  | ta
  /-- truncate-toward-zero -/
  | tz
  /-- truncate-toward-negative-infinity -/
  | tn
  /-- native (42_policy.md R165) -/
  | nat
deriving DecidableEq, Repr

/-- The four overflow tags (10_state.md R35, 30_encoding.md R76). -/
inductive Ovf
  /-- native-wrap -/
  | wrap
  /-- saturate -/
  | sat
  /-- checked-fail -/
  | chk
  /-- undefined -/
  | und
deriving DecidableEq, Repr

/-- The type fields every P and F command has: signedness `S`, rounding field `RND`, overflow tag
`OVF`, digit count `DD` (30_encoding.md R72, R77). `rnd` is the field as encoded: its codes 5 to 7 are
reserved and the legality check refuses them (R76, R83 step 4). -/
structure TypeFields where
  s : Bool
  rnd : BitVec 3
  ovf : Ovf
  dd : Field16
deriving DecidableEq, Repr

/-- The 27 commands. Field names are those of 30_encoding.md R72: `sg` is `S`, `ds`, `d` are `DD`,
`k`, `csr`, `sh`, `kind`, `ed` are `IMM` under the name R75 gives it. -/
inductive Instr
  -- format T
  | nop
  | ldi (rd : RegField) (sg : Bool) (ds : Field16) (data : Data64)
  | ldw (rd : RegField) (k : Field16) (data : Data64)
  | rdw (ra : RegField) (k : Field16)
  | rdc (csr : Field16)
  -- format W
  | wadd (rd ra rb : RegField) (sg : Bool)
  | wsub (rd ra rb : RegField) (sg : Bool)
  | wmul (rd ra rb : RegField) (sg : Bool)
  | wdiv (rd ra rb : RegField) (sg : Bool)
  | wmod (rd ra rb : RegField) (sg : Bool)
  | wshl (rd ra : RegField) (sg : Bool) (sh : Field16)
  | wshr (rd ra : RegField) (sg : Bool) (sh : Field16)
  | wcmp (ra rb : RegField) (sg : Bool)
  | wext (rd ra : RegField) (sg : Bool) (d : Field16)
  | wlim (rd : RegField) (sg : Bool) (d kind : Field16)
  -- format P
  | padd (rd ra rb : RegField) (ty : TypeFields) (el : Bool) (da db : Field16)
  | psub (rd ra rb : RegField) (ty : TypeFields) (el : Bool) (da db : Field16)
  | pmul (rd ra rb : RegField) (ty : TypeFields) (el : Bool) (da db : Field16)
  | pdiv (rd ra rb : RegField) (ty : TypeFields) (el : Bool) (da db : Field16)
  | pshl (rd ra : RegField) (ty : TypeFields) (el : Bool) (da sh : Field16)
  | pshr (rd ra : RegField) (ty : TypeFields) (el : Bool) (da sh : Field16)
  -- format F
  | fadd (rd ra rb : RegField) (ty : TypeFields) (el : Bool) (da db ea eb : Field16)
  | fsub (rd ra rb : RegField) (ty : TypeFields) (el : Bool) (da db ea eb : Field16)
  | fmul (rd ra rb : RegField) (ty : TypeFields) (el : Bool) (da db ea eb : Field16)
  | fdiv (rd ra rb : RegField) (ty : TypeFields) (el : Bool) (da db ea eb ed : Field16)
  | fcvt (rd ra : RegField) (ty : TypeFields) (ss : Bool) (ea ed : Field16)
  | fqnt (rd ra rb : RegField) (ty : TypeFields) (ed : Field16)
deriving DecidableEq, Repr

end Sys2Proof
end

