-- ==== Sys2Proof/Machine/Rounding.lean ====
section
/-! DEFINITION. Division and the rounding unit (41_wide_engine.md R131, 42_policy.md R162 to R166). -/

namespace Sys2Proof.Machine

/-- `tdiv(a, b)`, the quotient rounded toward zero (41_wide_engine.md R131). -/
def tdiv (a b : Int) : Int := a.sign * b.sign * ((a.natAbs / b.natAbs : Nat) : Int)

/-- `trem(a, b)`, the remainder with the sign of the dividend (41_wide_engine.md R131). -/
def trem (a b : Int) : Int := a - b * tdiv a b

/-- The rounding of `fl + rem/q` with `0 < rem < q`; `neg` says whether the value is below zero
(42_policy.md R162, the cases after the exact one). -/
def roundFraction (fl rem q : Int) (neg : Bool) : Rnd → Int
  | .tn => fl
  | .tz => if neg then fl + 1 else fl
  | .nat => if neg then fl + 1 else fl
  | .te =>
      if 2 * rem < q then fl else if q < 2 * rem then fl + 1 else if fl % 2 = 0 then fl else fl + 1
  | .ta => if 2 * rem < q then fl else if q < 2 * rem then fl + 1 else if neg then fl else fl + 1

/-- `round_ratio(p, q, tag)` for `q != 0` (42_policy.md R162). -/
def roundRatio (p q : Int) (tag : Rnd) : Int :=
  let p' := if q < 0 then -p else p
  let q' := if q < 0 then -q else q
  let fl := p' / q'
  let rem := p' % q'
  if rem = 0 then fl else roundFraction fl rem q' (decide (p' < 0)) tag

/-- `round_shift(x, k, tag)` (42_policy.md R163): under `NAT` a right shift is a floor (R165). -/
def roundShift (x : Int) (k : Nat) (tag : Rnd) : Int :=
  match tag with
  | .nat => x / pow2 k
  | t => roundRatio x (pow2 k) t

/-- The rounding tag of an `RND` field; 5 to 7 are reserved (30_encoding.md R76). -/
def roundingTag (c : BitVec 3) : Option Rnd :=
  match c.toNat with
  | 0 => some .te
  | 1 => some .ta
  | 2 => some .tz
  | 3 => some .tn
  | 4 => some .nat
  | _ => none

end Sys2Proof.Machine
end

