-- ==== Sys2Proof/Machine/Legality.lean ====
section
/-! DEFINITION. The checks a meaning runs before it reads an operand (30_encoding.md R83 steps 3 to 5), and
the destination digit count (R78, 42_policy.md R170, 43_scaled.md R202). -/

namespace Sys2Proof.Machine

/-- Every used register field is below `NREG` (30_encoding.md R82). -/
def checkRegs (p : Params) (rs : List RegField) : Except Failure Unit :=
  require (rs.all fun r => decide (r.toNat < p.nreg)) .illegalCommand

/-- A digit count in `1 .. NW` (30_encoding.md R78). -/
def digitsOk (p : Params) (d : Field16) : Bool := decide (1 ≤ zextField d ∧ zextField d ≤ p.nw)

/-- The digit count of WEXT, WLIM, FCVT and FQNT (30_encoding.md R78, R83 step 4). -/
def checkDigits (p : Params) (d : Field16) : Except Failure Unit := require (digitsOk p d) .illegalCommand

/-- The rounding tag, or IllegalCommand for a reserved `RND` (30_encoding.md R76, R83 step 4). -/
def checkRnd (c : BitVec 3) : Except Failure Rnd :=
  match roundingTag c with
  | some t => .ok t
  | none => .error .illegalCommand

/-- The digit fields of a command with two sources (30_encoding.md R78): `EL = 0` requires `DA = DB = 0`
and `1 <= DD <= NW`; `EL = 1` requires `DD = 0` and `DA`, `DB` in `1 .. NW`. -/
def checkDigits2 (p : Params) (el : Bool) (dd da db : Field16) : Except Failure Unit :=
  match el with
  | false => require (da == 0 && db == 0 && digitsOk p dd) .illegalCommand
  | true => require (dd == 0 && digitsOk p da && digitsOk p db) .illegalCommand

/-- The digit fields of a command with one source, which has no `DB` (30_encoding.md R78). -/
def checkDigits1 (p : Params) (el : Bool) (dd da : Field16) : Except Failure Unit :=
  match el with
  | false => require (da == 0 && digitsOk p dd) .illegalCommand
  | true => require (dd == 0 && digitsOk p da) .illegalCommand

/-- The destination digit count: `DD`, or the deduced count, which must not exceed `NW` (30_encoding.md
R78, R83 step 5). -/
def destDigits (p : Params) (el : Bool) (dd : Field16) (deduced : Nat) : Except Failure Nat :=
  match el with
  | false => .ok (zextField dd)
  | true => if deduced ≤ p.nw then .ok deduced else .error .capacityExceeded

/-- Deduced digits of PADD and PSUB (42_policy.md R170). -/
def sumDigits (da db : Field16) : Nat := max (zextField da) (zextField db) + 1

/-- Deduced digits of PMUL and FMUL (42_policy.md R170, 43_scaled.md R202). -/
def productDigits (da db : Field16) : Nat := zextField da + zextField db

/-- Deduced digits of PDIV and PSHR (42_policy.md R170). -/
def sameDigits (da : Field16) : Nat := zextField da

/-- Deduced digits of PSHL (42_policy.md R170). -/
def shiftedDigits (da sh : Field16) : Nat := zextField da + zextField sh

/-- Deduced digits of FADD and FSUB: `d = |EA - EB|` widens the operand with the larger exponent
(43_scaled.md R202). -/
def scaledSumDigits (da db ea eb : Field16) : Nat :=
  let d := (sextField ea - sextField eb).natAbs
  max (zextField da + if sextField ea > sextField eb then d else 0)
      (zextField db + if sextField eb > sextField ea then d else 0) + 1

/-- `k = EA - EB - ED`, the shift FDIV gives its dividend (43_scaled.md R210). -/
def divideShift (ea eb ed : Field16) : Int := sextField ea - sextField eb - sextField ed

/-- Deduced digits of FDIV (43_scaled.md R202). -/
def scaledQuotientDigits (da ea eb ed : Field16) : Nat :=
  zextField da + (max (divideShift ea eb ed) 0).toNat

end Sys2Proof.Machine
end

