-- ==== Sys2Proof/Decode.lean ====
section
/-! DEFINITION. From a 128-bit command word to an instruction and back (30_encoding.md R71 to R73, R79 to
R81, R85). Decoding is R83 steps 1 and 2: a reserved opcode, a nonzero `RSV` or a nonzero field the opcode does
not use is refused (`none`), and the step then raises IllegalCommand. The value checks of R83 steps 3
to 5 stay with the meanings, as R88 says (log 10). -/

namespace Sys2Proof

/-- The sixteen fields of a command word (30_encoding.md R72), low bits first. `DATA` is
`{EB, EA, DB, DA}` (`Fields.data`). -/
structure Fields where
  /-- `OP`, bits 7:0 -/
  op : BitVec 8
  /-- `RD`, bits 11:8 -/
  rd : RegField
  /-- `RA`, bits 15:12 -/
  ra : RegField
  /-- `RB`, bits 19:16 -/
  rb : RegField
  /-- `S`, bit 20 -/
  s : Bool
  /-- `EL`, bit 21 -/
  el : Bool
  /-- `RND`, bits 24:22 -/
  rnd : BitVec 3
  /-- `OVF`, bits 26:25 -/
  ovf : BitVec 2
  /-- `SS`, bit 27 -/
  ss : Bool
  /-- `RSV`, bits 31:28 -/
  rsv : BitVec 4
  /-- `DD`, bits 47:32 -/
  dd : Field16
  /-- `IMM`, bits 63:48 -/
  imm : Field16
  /-- `DA`, bits 79:64 -/
  da : Field16
  /-- `DB`, bits 95:80 -/
  db : Field16
  /-- `EA`, bits 111:96 -/
  ea : Field16
  /-- `EB`, bits 127:112 -/
  eb : Field16
deriving DecidableEq, Repr

/-- The fields of a command word, each at the bits of 30_encoding.md R72. -/
def Fields.ofWord (c : CmdWord) : Fields where
  op := c.extractLsb' 0 8
  rd := c.extractLsb' 8 4
  ra := c.extractLsb' 12 4
  rb := c.extractLsb' 16 4
  s := c.getLsbD 20
  el := c.getLsbD 21
  rnd := c.extractLsb' 22 3
  ovf := c.extractLsb' 25 2
  ss := c.getLsbD 27
  rsv := c.extractLsb' 28 4
  dd := c.extractLsb' 32 16
  imm := c.extractLsb' 48 16
  da := c.extractLsb' 64 16
  db := c.extractLsb' 80 16
  ea := c.extractLsb' 96 16
  eb := c.extractLsb' 112 16

/-- The command word of the given fields, most significant field first. -/
def Fields.toWord (f : Fields) : CmdWord :=
  f.eb ++ f.ea ++ f.db ++ f.da ++ f.imm ++ f.dd ++ f.rsv ++ BitVec.ofBool f.ss ++ f.ovf ++ f.rnd ++
    BitVec.ofBool f.el ++ BitVec.ofBool f.s ++ f.rb ++ f.ra ++ f.rd ++ f.op

/-- The `DATA` field, which overlays `DA`, `DB`, `EA` and `EB` (30_encoding.md R72). -/
def Fields.data (f : Fields) : Data64 := f.eb ++ f.ea ++ f.db ++ f.da

/-- The overflow tag of an `OVF` field (30_encoding.md R76). -/
def Ovf.ofField (c : BitVec 2) : Ovf :=
  match c.toNat with
  | 0 => .wrap
  | 1 => .sat
  | 2 => .chk
  | _ => .und

/-- The `OVF` field of an overflow tag (30_encoding.md R76). -/
def Ovf.toField : Ovf → BitVec 2
  | .wrap => 0
  | .sat => 1
  | .chk => 2
  | .und => 3

/-- `EL`, `RND`, `OVF` and `SS` are 0, as in every T and W command (30_encoding.md R77). -/
def Fields.noTags (f : Fields) : Bool := !f.el && f.rnd == 0 && f.ovf == 0 && !f.ss

/-- `DA` and `DB` are 0. -/
def Fields.noDigits (f : Fields) : Bool := f.da == 0 && f.db == 0

/-- `EA` and `EB` are 0. -/
def Fields.noExps (f : Fields) : Bool := f.ea == 0 && f.eb == 0

/-- `DATA` (that is `DA`, `DB`, `EA` and `EB`) is 0. -/
def Fields.noData (f : Fields) : Bool := f.noDigits && f.noExps

/-- The type fields of a P or F command. -/
def Fields.ty (f : Fields) : TypeFields := ⟨f.s, f.rnd, Ovf.ofField f.ovf, f.dd⟩

/-- `i` where every field the opcode does not use is 0 (30_encoding.md R80), else no command. -/
def accept (unusedZero : Bool) (i : Instr) : Option Instr := if unusedZero then some i else none

/-- The opcode map (30_encoding.md R79) with the must-be-zero rule (R80): each row names the fields its
opcode does not use. A reserved opcode has no row (R81). -/
def Fields.toInstr (f : Fields) : Option Instr :=
  if f.rsv ≠ 0 then none else
  match f.op.toNat with
  | 0x00 => accept (f.rd == 0 && f.ra == 0 && f.rb == 0 && !f.s && f.noTags && f.dd == 0 && f.imm == 0 && f.noData) .nop
  | 0x01 => accept (f.ra == 0 && f.rb == 0 && f.noTags && f.imm == 0) (.ldi f.rd f.s f.dd f.data)
  | 0x02 => accept (f.ra == 0 && f.rb == 0 && !f.s && f.noTags && f.dd == 0) (.ldw f.rd f.imm f.data)
  | 0x03 => accept (f.rd == 0 && f.rb == 0 && !f.s && f.noTags && f.dd == 0 && f.noData) (.rdw f.ra f.imm)
  | 0x04 => accept (f.rd == 0 && f.ra == 0 && f.rb == 0 && !f.s && f.noTags && f.dd == 0 && f.noData) (.rdc f.imm)
  | 0x10 => accept (f.noTags && f.dd == 0 && f.imm == 0 && f.noData) (.wadd f.rd f.ra f.rb f.s)
  | 0x11 => accept (f.noTags && f.dd == 0 && f.imm == 0 && f.noData) (.wsub f.rd f.ra f.rb f.s)
  | 0x12 => accept (f.noTags && f.dd == 0 && f.imm == 0 && f.noData) (.wmul f.rd f.ra f.rb f.s)
  | 0x13 => accept (f.noTags && f.dd == 0 && f.imm == 0 && f.noData) (.wdiv f.rd f.ra f.rb f.s)
  | 0x14 => accept (f.noTags && f.dd == 0 && f.imm == 0 && f.noData) (.wmod f.rd f.ra f.rb f.s)
  | 0x15 => accept (f.rb == 0 && f.noTags && f.dd == 0 && f.noData) (.wshl f.rd f.ra f.s f.imm)
  | 0x16 => accept (f.rb == 0 && f.noTags && f.dd == 0 && f.noData) (.wshr f.rd f.ra f.s f.imm)
  | 0x17 => accept (f.rd == 0 && f.noTags && f.dd == 0 && f.imm == 0 && f.noData) (.wcmp f.ra f.rb f.s)
  | 0x18 => accept (f.rb == 0 && f.noTags && f.imm == 0 && f.noData) (.wext f.rd f.ra f.s f.dd)
  | 0x19 => accept (f.ra == 0 && f.rb == 0 && f.noTags && f.noData) (.wlim f.rd f.s f.dd f.imm)
  | 0x20 => accept (!f.ss && f.imm == 0 && f.noExps) (.padd f.rd f.ra f.rb f.ty f.el f.da f.db)
  | 0x21 => accept (!f.ss && f.imm == 0 && f.noExps) (.psub f.rd f.ra f.rb f.ty f.el f.da f.db)
  | 0x22 => accept (!f.ss && f.imm == 0 && f.noExps) (.pmul f.rd f.ra f.rb f.ty f.el f.da f.db)
  | 0x23 => accept (!f.ss && f.imm == 0 && f.noExps) (.pdiv f.rd f.ra f.rb f.ty f.el f.da f.db)
  | 0x24 => accept (f.rb == 0 && !f.ss && f.db == 0 && f.noExps) (.pshl f.rd f.ra f.ty f.el f.da f.imm)
  | 0x25 => accept (f.rb == 0 && !f.ss && f.db == 0 && f.noExps) (.pshr f.rd f.ra f.ty f.el f.da f.imm)
  | 0x30 => accept (!f.ss && f.imm == 0) (.fadd f.rd f.ra f.rb f.ty f.el f.da f.db f.ea f.eb)
  | 0x31 => accept (!f.ss && f.imm == 0) (.fsub f.rd f.ra f.rb f.ty f.el f.da f.db f.ea f.eb)
  | 0x32 => accept (!f.ss && f.imm == 0) (.fmul f.rd f.ra f.rb f.ty f.el f.da f.db f.ea f.eb)
  | 0x33 => accept (!f.ss) (.fdiv f.rd f.ra f.rb f.ty f.el f.da f.db f.ea f.eb f.imm)
  | 0x34 => accept (f.rb == 0 && !f.el && f.noDigits && f.eb == 0) (.fcvt f.rd f.ra f.ty f.ss f.ea f.imm)
  | 0x35 => accept (!f.el && !f.ss && f.noData) (.fqnt f.rd f.ra f.rb f.ty f.imm)
  | _ => none

/-- The command a word stands for, total on any word (30_encoding.md R81). -/
def decode (c : CmdWord) : Option Instr := (Fields.ofWord c).toInstr

/-- A command word with opcode `op` and every other field 0. -/
def Fields.ofOp (op : BitVec 8) : Fields :=
  ⟨op, 0, 0, 0, false, false, 0, 0, false, 0, 0, 0, 0, 0, 0, 0⟩

/-- The fields of a format W command with its three registers. -/
def Fields.wide (op : BitVec 8) (rd ra rb : RegField) (sg : Bool) : Fields :=
  { Fields.ofOp op with rd := rd, ra := ra, rb := rb, s := sg }

/-- The fields of a P or F command: registers, type fields and elastic digit counts. -/
def Fields.policy (op : BitVec 8) (rd ra rb : RegField) (ty : TypeFields) (el : Bool) (da db : Field16) : Fields :=
  { Fields.wide op rd ra rb ty.s with
    el := el, rnd := ty.rnd, ovf := ty.ovf.toField, dd := ty.dd, da := da, db := db }

/-- The fields with `DATA` set (30_encoding.md R72). -/
def Fields.withData (f : Fields) (data : Data64) : Fields :=
  { f with
    da := data.extractLsb' 0 16, db := data.extractLsb' 16 16
    ea := data.extractLsb' 32 16, eb := data.extractLsb' 48 16 }

/-- The fields of an instruction (30_encoding.md R79); every field it does not use is 0 (R80). -/
def Instr.toFields : Instr → Fields
  | .nop => Fields.ofOp 0x00
  | .ldi rd sg ds data => Fields.withData { Fields.ofOp 0x01 with rd := rd, s := sg, dd := ds } data
  | .ldw rd k data => Fields.withData { Fields.ofOp 0x02 with rd := rd, imm := k } data
  | .rdw ra k => { Fields.ofOp 0x03 with ra := ra, imm := k }
  | .rdc csr => { Fields.ofOp 0x04 with imm := csr }
  | .wadd rd ra rb sg => Fields.wide 0x10 rd ra rb sg
  | .wsub rd ra rb sg => Fields.wide 0x11 rd ra rb sg
  | .wmul rd ra rb sg => Fields.wide 0x12 rd ra rb sg
  | .wdiv rd ra rb sg => Fields.wide 0x13 rd ra rb sg
  | .wmod rd ra rb sg => Fields.wide 0x14 rd ra rb sg
  | .wshl rd ra sg sh => { Fields.wide 0x15 rd ra 0 sg with imm := sh }
  | .wshr rd ra sg sh => { Fields.wide 0x16 rd ra 0 sg with imm := sh }
  | .wcmp ra rb sg => Fields.wide 0x17 0 ra rb sg
  | .wext rd ra sg d => { Fields.wide 0x18 rd ra 0 sg with dd := d }
  | .wlim rd sg d kind => { Fields.wide 0x19 rd 0 0 sg with dd := d, imm := kind }
  | .padd rd ra rb ty el da db => Fields.policy 0x20 rd ra rb ty el da db
  | .psub rd ra rb ty el da db => Fields.policy 0x21 rd ra rb ty el da db
  | .pmul rd ra rb ty el da db => Fields.policy 0x22 rd ra rb ty el da db
  | .pdiv rd ra rb ty el da db => Fields.policy 0x23 rd ra rb ty el da db
  | .pshl rd ra ty el da sh => { Fields.policy 0x24 rd ra 0 ty el da 0 with imm := sh }
  | .pshr rd ra ty el da sh => { Fields.policy 0x25 rd ra 0 ty el da 0 with imm := sh }
  | .fadd rd ra rb ty el da db ea eb => { Fields.policy 0x30 rd ra rb ty el da db with ea := ea, eb := eb }
  | .fsub rd ra rb ty el da db ea eb => { Fields.policy 0x31 rd ra rb ty el da db with ea := ea, eb := eb }
  | .fmul rd ra rb ty el da db ea eb => { Fields.policy 0x32 rd ra rb ty el da db with ea := ea, eb := eb }
  | .fdiv rd ra rb ty el da db ea eb ed =>
      { Fields.policy 0x33 rd ra rb ty el da db with ea := ea, eb := eb, imm := ed }
  | .fcvt rd ra ty ss ea ed => { Fields.policy 0x34 rd ra 0 ty false 0 0 with ss := ss, ea := ea, imm := ed }
  | .fqnt rd ra rb ty ed => { Fields.policy 0x35 rd ra rb ty false 0 0 with imm := ed }

/-- The command word of an instruction. -/
def encode (i : Instr) : CmdWord := i.toFields.toWord

/-- The row of the opcode table an instruction belongs to (30_encoding.md R79). -/
def Instr.mnemonic : Instr → String
  | .nop => "NOP"
  | .ldi _ _ _ _ => "LDI"
  | .ldw _ _ _ => "LDW"
  | .rdw _ _ => "RDW"
  | .rdc _ => "RDC"
  | .wadd _ _ _ _ => "WADD"
  | .wsub _ _ _ _ => "WSUB"
  | .wmul _ _ _ _ => "WMUL"
  | .wdiv _ _ _ _ => "WDIV"
  | .wmod _ _ _ _ => "WMOD"
  | .wshl _ _ _ _ => "WSHL"
  | .wshr _ _ _ _ => "WSHR"
  | .wcmp _ _ _ => "WCMP"
  | .wext _ _ _ _ => "WEXT"
  | .wlim _ _ _ _ => "WLIM"
  | .padd _ _ _ _ _ _ _ => "PADD"
  | .psub _ _ _ _ _ _ _ => "PSUB"
  | .pmul _ _ _ _ _ _ _ => "PMUL"
  | .pdiv _ _ _ _ _ _ _ => "PDIV"
  | .pshl _ _ _ _ _ _ => "PSHL"
  | .pshr _ _ _ _ _ _ => "PSHR"
  | .fadd _ _ _ _ _ _ _ _ _ => "FADD"
  | .fsub _ _ _ _ _ _ _ _ _ => "FSUB"
  | .fmul _ _ _ _ _ _ _ _ _ => "FMUL"
  | .fdiv _ _ _ _ _ _ _ _ _ _ => "FDIV"
  | .fcvt _ _ _ _ _ _ => "FCVT"
  | .fqnt _ _ _ _ _ => "FQNT"

/-- A row of the machine-readable opcode map (30_encoding.md R88): a word `c` can be the row's command
only if `c AND mask = match`. -/
structure TableRow where
  mnemonic : String
  pattern : CmdWord
  mask : CmdWord
deriving DecidableEq, Repr

/-- The 27 rows of the opcode table, as 30_encoding.md R88 describes them. The decoder does not use the
table: that the two agree is a statement for the provers. -/
def opcodeTable : List TableRow :=
  [⟨"NOP", 0x00, 0xFFFFFFFFFFFFFFFFFFFFFFFFFFFFFFFF⟩,
   ⟨"LDI", 0x01, 0x0000000000000000FFFF0000FFEFF0FF⟩,
   ⟨"LDW", 0x02, 0x00000000000000000000FFFFFFFFF0FF⟩,
   ⟨"RDW", 0x03, 0xFFFFFFFFFFFFFFFF0000FFFFFFFF0FFF⟩,
   ⟨"RDC", 0x04, 0xFFFFFFFFFFFFFFFF0000FFFFFFFFFFFF⟩,
   ⟨"WADD", 0x10, 0xFFFFFFFFFFFFFFFFFFFFFFFFFFE000FF⟩,
   ⟨"WSUB", 0x11, 0xFFFFFFFFFFFFFFFFFFFFFFFFFFE000FF⟩,
   ⟨"WMUL", 0x12, 0xFFFFFFFFFFFFFFFFFFFFFFFFFFE000FF⟩,
   ⟨"WDIV", 0x13, 0xFFFFFFFFFFFFFFFFFFFFFFFFFFE000FF⟩,
   ⟨"WMOD", 0x14, 0xFFFFFFFFFFFFFFFFFFFFFFFFFFE000FF⟩,
   ⟨"WSHL", 0x15, 0xFFFFFFFFFFFFFFFF0000FFFFFFEF00FF⟩,
   ⟨"WSHR", 0x16, 0xFFFFFFFFFFFFFFFF0000FFFFFFEF00FF⟩,
   ⟨"WCMP", 0x17, 0xFFFFFFFFFFFFFFFFFFFFFFFFFFE00FFF⟩,
   ⟨"WEXT", 0x18, 0xFFFFFFFFFFFFFFFFFFFF0000FFEF00FF⟩] ++
  [⟨"WLIM", 0x19, 0xFFFFFFFFFFFFFFFF00000000FFEFF0FF⟩,
   ⟨"PADD", 0x20, 0xFFFFFFFF00000000FFFF0000F80000FF⟩,
   ⟨"PSUB", 0x21, 0xFFFFFFFF00000000FFFF0000F80000FF⟩,
   ⟨"PMUL", 0x22, 0xFFFFFFFF00000000FFFF0000F80000FF⟩,
   ⟨"PDIV", 0x23, 0xFFFFFFFF00000000FFFF0000F80000FF⟩,
   ⟨"PSHL", 0x24, 0xFFFFFFFFFFFF000000000000F80F00FF⟩,
   ⟨"PSHR", 0x25, 0xFFFFFFFFFFFF000000000000F80F00FF⟩,
   ⟨"FADD", 0x30, 0x0000000000000000FFFF0000F80000FF⟩,
   ⟨"FSUB", 0x31, 0x0000000000000000FFFF0000F80000FF⟩,
   ⟨"FMUL", 0x32, 0x0000000000000000FFFF0000F80000FF⟩,
   ⟨"FDIV", 0x33, 0x000000000000000000000000F80000FF⟩,
   ⟨"FCVT", 0x34, 0xFFFF0000FFFFFFFF00000000F02F00FF⟩,
   ⟨"FQNT", 0x35, 0xFFFFFFFFFFFFFFFF00000000F82000FF⟩]

/-- The instruction the decoder reads from the `nbits` low bits of `w`, every higher bit 0. A command
word is one 128-bit integer (30_encoding.md R71), so no byte order enters (R54). -/
def decodeTableWord (nbits w : Nat) : Option Instr :=
  if w % 2 ^ nbits < 2 ^ 128 then decode (BitVec.ofNat 128 (w % 2 ^ nbits)) else none

end Sys2Proof
end

