-- ==== Sys2Proof/Machine/Flags.lean ====
section
/-! DEFINITION. The control registers' contents: FLAGS, STATUS, RTYPE and PARAMS (10_state.md section 2
and section 3). -/

namespace Sys2Proof.Machine

/-- The FLAGS value of a comparison, one-hot: 1 LT, 2 EQ, 4 GT (10_state.md R25, 41_wide_engine.md R146). -/
def compareFlags (a b : Int) : BitVec 3 := if a < b then 1 else if a = b then 2 else 4

/-- STATUS after failure `f`: sticky bit `code - 1` set, LASTCAUSE = code (10_state.md R26,
60_exceptions.md R236). -/
def recordFailure (status : BitVec 16) (f : Failure) : BitVec 16 :=
  BitVec.ofNat 8 (failureCode f) ++ (status.extractLsb' 0 8 ||| BitVec.ofNat 8 (2 ^ (failureCode f - 1)))

/-- STATUS.LASTCAUSE, bits 15:8 (10_state.md R26). -/
def lastCause (status : BitVec 16) : BitVec 8 := status.extractLsb' 8 8

/-- The sticky bits of STATUS with the bits 7:5 that read as 0 (10_state.md R26). -/
def stickyBits (status : BitVec 16) : BitVec 8 := status.extractLsb' 0 8

/-- RTYPE for signedness `sg`, exponent `er` and digit count `d` (10_state.md R28). -/
def rtypeOf (sg : Bool) (er : Int) (d : Nat) : BitVec 49 :=
  BitVec.ofBool sg ++ BitVec.ofInt 32 er ++ BitVec.ofNat 16 d

/-- RTYPE.DIGITS, bits 15:0 (10_state.md R28). -/
def rtypeDigits (r : BitVec 49) : Nat := (r.extractLsb' 0 16).toNat

/-- RTYPE.EXP, bits 47:16, a two's-complement integer (10_state.md R28). -/
def rtypeExp (r : BitVec 49) : Int := (r.extractLsb' 16 32).toInt

/-- RTYPE.SGN, bit 48 (10_state.md R28). -/
def rtypeSgn (r : BitVec 49) : Bool := r.getLsbD 48

/-- PARAMS: NREG in bits 28:24, N in bits 23:8, W in bits 7:0 (10_state.md R31). -/
def paramsWord (p : Params) : BitVec 29 :=
  BitVec.ofNat 5 p.nreg ++ BitVec.ofNat 16 p.n ++ BitVec.ofNat 8 p.w

end Sys2Proof.Machine
end

