-- ==== Sys2Proof/Machine/Ops.lean ====
section
/-! DEFINITION. The named operations over the state: writing a register, a word, RTYPE and FLAGS; drawing an
unspecified pattern; the failure step, which is all the exception entry the block has (60_exceptions.md
R236, R240); the response; reset; and taking the next host event. There is no return from an exception
(R241). -/

namespace Sys2Proof.Machine

/-- `v[r] <- x`: all `N` words of `words(x)`, all valid bits set (00_scope.md R13, 10_state.md R23). -/
def State.setReg (s : State) (r : RegField) (x : Int) : State :=
  { s with regs := s.regs.set r.toNat ((words s.params x).map fun v => ⟨v, true⟩) }

/-- `v[r].w[k] <- v` and `v[r].ok[k] <- 1`; the other words keep their contents (40_construction_transfer.md
R106). -/
def State.setWord (s : State) (r : RegField) (k : Nat) (v : Word) : State :=
  { s with regs := s.regs.set r.toNat ((s.reg r).set k ⟨v, true⟩) }

/-- `v[r] <- any_words()`: an unspecified pattern, all valid bits set; the next draw is another one
(42_policy.md R168, 93_implementation_defined.md U1; log 6). -/
def State.setAny (s : State) (r : RegField) : State :=
  { s.setReg r (Config.anyWords s.draws) with draws := s.draws + 1 }

/-- `FLAGS <- f` (00_scope.md R13). -/
def State.setFlags (s : State) (f : BitVec 3) : State := { s with flags := f }

/-- `RTYPE <- (S, ER, D)` (42_policy.md R169). -/
def State.setRtype (s : State) (sg : Bool) (er : Int) (d : Nat) : State :=
  { s with rtype := rtypeOf sg er d }

/-- One response, status 0 and the given data (30_encoding.md R84). -/
def State.respond (s : State) (data : Data64) : State := { s with out := s.out ++ [⟨0, data⟩] }

/-- The failure step (60_exceptions.md R236): STATUS records the failure, the response carries its code and
data 0, and nothing else changes. -/
def State.raise (s : State) (f : Failure) : State :=
  { s with
    status := recordFailure s.status f
    out := s.out ++ [⟨BitVec.ofNat 8 (failureCode f), 0⟩] }

/-- What a command comes to: a failure, or the state it leaves and the data it responds with. -/
abbrev Attempt := Except Failure (State × Data64)

/-- A command as one indivisible step (10_state.md R39): its effect and its response, or the failure step. -/
def State.run (s : State) (body : Attempt) : Outcome :=
  match body with
  | .ok (t, data) => .next (t.respond data)
  | .error f => .next (s.raise f)

/-- The control register `RDC` reads, zero-extended (40_construction_transfer.md R112, 30_encoding.md R84);
`none` for a number that names none (10_state.md R32). -/
def State.csr (s : State) (k : Nat) : Option Data64 :=
  match k with
  | 0 => some (s.status.setWidth 64)
  | 1 => some (s.flags.setWidth 64)
  | 2 => some (s.rtype.setWidth 64)
  | 3 => some ((paramsWord s.params).setWidth 64)
  | _ => none

/-- The last two stages of a P or F command (42_policy.md R160, R168, R169): range-check the rounded result
`t` against `d` digits of signedness `sg`, apply the overflow tag where it does not fit, write the
destination and RTYPE. -/
def State.finish (s : State) (rd : RegField) (t : Int) (d : Nat) (sg : Bool) (ovf : Ovf) (er : Int) : Attempt :=
  if fits t d sg then .ok ((s.setReg rd t).setRtype sg er d, 0)
  else
    match ovf with
    | .wrap => .ok ((s.setReg rd (wrap t d sg)).setRtype sg er d, 0)
    | .sat => .ok ((s.setReg rd (sat t d sg)).setRtype sg er d, 0)
    | .chk => .error .overflow
    | .und => .ok ((s.setAny rd).setRtype sg er d, 0)

/-- Reset (70_reset_and_hazards.md R260, R261): the block's state becomes the reset state of its instance.
What belongs to the host (the events to come and the responses it has) and the counter of draws stay
(log 7). Reset has no response. -/
def State.resetBlock (s : State) : State :=
  { State.resetOf s.params with input := s.input, out := s.out, draws := s.draws }

/-- The next host event, and the state with it taken off the list (log 2). -/
def State.takeEvent (s : State) : Option (HostEvent × State) :=
  match s.input with
  | [] => none
  | e :: rest => some (e, { s with input := rest })

/-- `s` with `c` as the very next event. -/
def State.present (s : State) (c : CmdWord) : State := { s with input := .command c :: s.input }

/-- `s` with a program, a finite list of command words, to be issued in list order (10_state.md R33). -/
def State.issue (s : State) (program : List CmdWord) : State :=
  { s with input := s.input ++ program.map .command }

end Sys2Proof.Machine
end

