-- ==== Sys2Proof/Machine/Engine.lean ====
section
/-! DEFINITION. The meanings of the format W commands, the wide-integer engine, by value
(41_wide_engine.md). The word-level reference algorithms stand in Machine/WordLevel.lean; only the
contents are architectural (70_reset_and_hazards.md R273). The checks run in the order of R121. -/

namespace Sys2Proof.Machine

/-- A W command with two source registers read under `sg` (41_wide_engine.md R120, R121): legality, then
`RA`, then `RB`, then the operation. -/
def State.wideBinary (s : State) (rd ra rb : RegField) (sg : Bool) (op : Int → Int → Except Failure Int) : Attempt := do
  checkRegs s.params [rd, ra, rb]
  let a ← s.source ra sg
  let b ← s.source rb sg
  let x ← op a b
  .ok (s.setReg rd x, 0)

/-- WADD (41_wide_engine.md R122); `S` is accepted and has no effect. -/
def execWadd (rd ra rb : RegField) (_sg : Bool) (s : State) : Outcome :=
  s.run (s.wideBinary rd ra rb false fun a b => .ok (a + b))

/-- WSUB (41_wide_engine.md R125); `S` is accepted and has no effect. -/
def execWsub (rd ra rb : RegField) (_sg : Bool) (s : State) : Outcome :=
  s.run (s.wideBinary rd ra rb false fun a b => .ok (a - b))

/-- WMUL (41_wide_engine.md R128): the low `NW` bits of the product; `S` has no effect. -/
def execWmul (rd ra rb : RegField) (_sg : Bool) (s : State) : Outcome :=
  s.run (s.wideBinary rd ra rb false fun a b => .ok (a * b))

/-- WDIV (41_wide_engine.md R132): the quotient toward zero, reduced modulo `2^NW`. -/
def execWdiv (rd ra rb : RegField) (sg : Bool) (s : State) : Outcome :=
  s.run (s.wideBinary rd ra rb sg fun a b => if b = 0 then .error .divideByZero else .ok (tdiv a b))

/-- WMOD (41_wide_engine.md R134): the remainder, with the sign of the dividend. -/
def execWmod (rd ra rb : RegField) (sg : Bool) (s : State) : Outcome :=
  s.run (s.wideBinary rd ra rb sg fun a b => if b = 0 then .error .divideByZero else .ok (trem a b))

/-- WSHL (41_wide_engine.md R138, 90_conflicts.md C3): zeros enter at the bottom; `S` has no effect. -/
def execWshl (rd ra : RegField) (_sg : Bool) (sh : Field16) (s : State) : Outcome :=
  s.run do
    checkRegs s.params [rd, ra]
    let a ← s.source ra false
    .ok (s.setReg rd (a * pow2 (zextField sh)), 0)

/-- WSHR (41_wide_engine.md R140): floor division by `2^SH`, logical or arithmetic by `S`. -/
def execWshr (rd ra : RegField) (sg : Bool) (sh : Field16) (s : State) : Outcome :=
  s.run do
    checkRegs s.params [rd, ra]
    let a ← s.source ra sg
    .ok (s.setReg rd (a / pow2 (zextField sh)), 0)

/-- WCMP (41_wide_engine.md R146): FLAGS and the response data take the one-hot outcome. -/
def execWcmp (ra rb : RegField) (sg : Bool) (s : State) : Outcome :=
  s.run do
    checkRegs s.params [ra, rb]
    let a ← s.source ra sg
    let b ← s.source rb sg
    let f := compareFlags a b
    .ok (s.setFlags f, f.setWidth 64)

/-- WEXT (41_wide_engine.md R149): keep the low `D` bits, then extend by `S`. -/
def execWext (rd ra : RegField) (sg : Bool) (d : Field16) (s : State) : Outcome :=
  s.run do
    checkRegs s.params [rd, ra]
    checkDigits s.params d
    let a ← s.source ra false
    .ok (s.setReg rd (ext (a % pow2 (zextField d)) (zextField d) sg), 0)

/-- The limit a `KIND` names: 0 MIN, 1 MAX, 2 LOWEST, which equals MIN (41_wide_engine.md R152); `none` for
any other value. -/
def limitOf (kind d : Nat) (sg : Bool) : Option Int :=
  match kind with
  | 0 => some (lo d sg)
  | 1 => some (hi d sg)
  | 2 => some (lo d sg)
  | _ => none

/-- WLIM (41_wide_engine.md R152). It reads no register. -/
def execWlim (rd : RegField) (sg : Bool) (d kind : Field16) (s : State) : Outcome :=
  s.run do
    checkRegs s.params [rd]
    checkDigits s.params d
    match limitOf (zextField kind) (zextField d) sg with
    | some x => .ok (s.setReg rd x, 0)
    | none => .error .illegalCommand

end Sys2Proof.Machine
end

