-- ==== Sys2Proof/Machine/Policy.lean ====
section
/-! DEFINITION. The meanings of the format P commands, the policy layer (42_policy.md). The checks run in the
order of R172; the stages are those of R160. -/

namespace Sys2Proof.Machine

/-- What two operand values and the rounding tag come to: the rounded true result, or a failure. -/
abbrev Compute2 := Int → Int → Rnd → Except Failure Int

/-- A P or F command with two sources (42_policy.md R172): legality, elastic deduction, `RA`, `RB`, the
operation with its rounding, and the range check. -/
def State.policyBinary (s : State) (rd ra rb : RegField) (ty : TypeFields) (el : Bool) (da db : Field16)
    (deduced : Nat) (er : Int) (op : Compute2) : Attempt := do
  checkRegs s.params [rd, ra, rb]
  let tag ← checkRnd ty.rnd
  checkDigits2 s.params el ty.dd da db
  let d ← destDigits s.params el ty.dd deduced
  let a ← s.source ra ty.s
  let b ← s.source rb ty.s
  let t ← op a b tag
  s.finish rd t d ty.s ty.ovf er

/-- A P command with one source (42_policy.md R172). -/
def State.policyUnary (s : State) (rd ra : RegField) (ty : TypeFields) (el : Bool) (da : Field16)
    (deduced : Nat) (op : Int → Rnd → Int) : Attempt := do
  checkRegs s.params [rd, ra]
  let tag ← checkRnd ty.rnd
  checkDigits1 s.params el ty.dd da
  let d ← destDigits s.params el ty.dd deduced
  let a ← s.source ra ty.s
  s.finish rd (op a tag) d ty.s ty.ovf 0

/-- PADD (42_policy.md R174); the rounding tag is checked and not consulted. -/
def execPadd (rd ra rb : RegField) (ty : TypeFields) (el : Bool) (da db : Field16) (s : State) : Outcome :=
  s.run (s.policyBinary rd ra rb ty el da db (sumDigits da db) 0 fun a b _ => .ok (a + b))

/-- PSUB (42_policy.md R176). -/
def execPsub (rd ra rb : RegField) (ty : TypeFields) (el : Bool) (da db : Field16) (s : State) : Outcome :=
  s.run (s.policyBinary rd ra rb ty el da db (sumDigits da db) 0 fun a b _ => .ok (a - b))

/-- PMUL (42_policy.md R178): the full product is range-checked. -/
def execPmul (rd ra rb : RegField) (ty : TypeFields) (el : Bool) (da db : Field16) (s : State) : Outcome :=
  s.run (s.policyBinary rd ra rb ty el da db (productDigits da db) 0 fun a b _ => .ok (a * b))

/-- PDIV (42_policy.md R180): the exact quotient, rounded by the command's tag. -/
def execPdiv (rd ra rb : RegField) (ty : TypeFields) (el : Bool) (da db : Field16) (s : State) : Outcome :=
  s.run (s.policyBinary rd ra rb ty el da db (sameDigits da) 0 fun a b tag =>
    if b = 0 then .error .divideByZero else .ok (roundRatio a b tag))

/-- PSHL (42_policy.md R183). -/
def execPshl (rd ra : RegField) (ty : TypeFields) (el : Bool) (da sh : Field16) (s : State) : Outcome :=
  s.run (s.policyUnary rd ra ty el da (shiftedDigits da sh) fun a _ => a * pow2 (zextField sh))

/-- PSHR (42_policy.md R185): the rounding unit on its own. -/
def execPshr (rd ra : RegField) (ty : TypeFields) (el : Bool) (da sh : Field16) (s : State) : Outcome :=
  s.run (s.policyUnary rd ra ty el da (sameDigits da) fun a tag => roundShift a (zextField sh) tag)

end Sys2Proof.Machine
end

