-- ==== Sys2Proof/Machine/Scaled.lean ====
section
/-! DEFINITION. The meanings of the format F commands, the fixed_point_scaler (43_scaled.md): a rescale in
front of the pipeline of 42_policy.md R160. -/

namespace Sys2Proof.Machine

/-- A raw value brought from exponent `e` down to the finer exponent `fine`; unchanged where `e` is not
above it (43_scaled.md R201, R205). -/
def rescaleUp (a e fine : Int) : Int := if e > fine then a * pow2 (e - fine).toNat else a

/-- `(p/q) * 2^k` rounded once (43_scaled.md R210, R215). -/
def roundScaledRatio (p q k : Int) (tag : Rnd) : Int :=
  if k ≥ 0 then roundRatio (p * pow2 k.toNat) q tag else roundRatio p (q * pow2 (-k).toNat) tag

/-- `a * 2^k`, rounded where `k` is negative (43_scaled.md R212). -/
def roundScaled (a k : Int) (tag : Rnd) : Int :=
  if k ≥ 0 then a * pow2 k.toNat else roundShift a (-k).toNat tag

/-- FADD (43_scaled.md R205); `ER = min(EA, EB)` (R203). -/
def execFadd (rd ra rb : RegField) (ty : TypeFields) (el : Bool) (da db ea eb : Field16) (s : State) : Outcome :=
  s.run (s.policyBinary rd ra rb ty el da db (scaledSumDigits da db ea eb) (min (sextField ea) (sextField eb))
    fun a b _ => .ok (rescaleUp a (sextField ea) (sextField eb) + rescaleUp b (sextField eb) (sextField ea)))

/-- FSUB (43_scaled.md R207). -/
def execFsub (rd ra rb : RegField) (ty : TypeFields) (el : Bool) (da db ea eb : Field16) (s : State) : Outcome :=
  s.run (s.policyBinary rd ra rb ty el da db (scaledSumDigits da db ea eb) (min (sextField ea) (sextField eb))
    fun a b _ => .ok (rescaleUp a (sextField ea) (sextField eb) - rescaleUp b (sextField eb) (sextField ea)))

/-- FMUL (43_scaled.md R209); `ER = EA + EB` (R203). -/
def execFmul (rd ra rb : RegField) (ty : TypeFields) (el : Bool) (da db ea eb : Field16) (s : State) : Outcome :=
  s.run (s.policyBinary rd ra rb ty el da db (productDigits da db) (sextField ea + sextField eb)
    fun a b _ => .ok (a * b))

/-- FDIV (43_scaled.md R210): one exact rational at exponent `ED`, rounded once. -/
def execFdiv (rd ra rb : RegField) (ty : TypeFields) (el : Bool) (da db ea eb ed : Field16) (s : State) : Outcome :=
  s.run (s.policyBinary rd ra rb ty el da db (scaledQuotientDigits da ea eb ed) (sextField ed)
    fun a b tag => if b = 0 then .error .divideByZero else .ok (roundScaledRatio a b (divideShift ea eb ed) tag))

/-- FCVT (43_scaled.md R212): the source is read under `SS`; rescale, round, range-check. It has no elastic
form (30_encoding.md R78). -/
def execFcvt (rd ra : RegField) (ty : TypeFields) (ss : Bool) (ea ed : Field16) (s : State) : Outcome :=
  s.run do
    checkRegs s.params [rd, ra]
    let tag ← checkRnd ty.rnd
    checkDigits s.params ty.dd
    let a ← s.source ra ss
    s.finish rd (roundScaled a (sextField ea - sextField ed) tag) (zextField ty.dd) ty.s ty.ovf (sextField ed)

/-- FQNT (43_scaled.md R215): quantize the rational `v[RA] / v[RB]` to exponent `ED`. It has no elastic
form (30_encoding.md R78). -/
def execFqnt (rd ra rb : RegField) (ty : TypeFields) (ed : Field16) (s : State) : Outcome :=
  s.run do
    checkRegs s.params [rd, ra, rb]
    let tag ← checkRnd ty.rnd
    checkDigits s.params ty.dd
    let p ← s.source ra ty.s
    let q ← s.source rb ty.s
    require (decide (q ≠ 0)) .divideByZero
    s.finish rd (roundScaledRatio p q (-sextField ed) tag) (zextField ty.dd) ty.s ty.ovf (sextField ed)

end Sys2Proof.Machine
end

