-- ==== Sys2Proof/Machine/Transfer.lean ====
section
/-! DEFINITION. The meanings of the format T commands (40_construction_transfer.md). -/

namespace Sys2Proof.Machine

/-- NOP (40_construction_transfer.md R102). -/
def execNop (s : State) : Outcome := s.run (.ok (s, 0))

/-- LDI: the `DS`-bit native integer `DATA mod 2^DS`, extended by `S`; `DATA[63:DS]` is not examined
(40_construction_transfer.md R104, 90_conflicts.md C9). -/
def execLdi (rd : RegField) (sg : Bool) (ds : Field16) (data : Data64) (s : State) : Outcome :=
  s.run do
    checkRegs s.params [rd]
    require (decide (1 ≤ zextField ds ∧ zextField ds ≤ 64)) .illegalCommand
    let u := data.toNat % 2 ^ zextField ds
    .ok (s.setReg rd (ext u (zextField ds) sg), 0)

/-- LDW: write one word and its valid bit (40_construction_transfer.md R106); `K < N` and
`DATA[63:W] = 0` are legality checks (30_encoding.md R83 step 4). -/
def execLdw (rd : RegField) (k : Field16) (data : Data64) (s : State) : Outcome :=
  s.run do
    checkRegs s.params [rd]
    require (decide (zextField k < s.params.n)) .illegalCommand
    require (decide (data.toNat < 2 ^ s.params.w)) .illegalCommand
    .ok (s.setWord rd (zextField k) data.toNat, 0)

/-- RDW: respond with one valid word (40_construction_transfer.md R108). -/
def execRdw (ra : RegField) (k : Field16) (s : State) : Outcome :=
  s.run do
    checkRegs s.params [ra]
    require (decide (zextField k < s.params.n)) .illegalCommand
    let v ← s.sourceWord ra (zextField k)
    .ok (s, BitVec.ofNat 64 v)

/-- RDC: respond with a control register; reading changes nothing (40_construction_transfer.md R112). -/
def execRdc (csr : Field16) (s : State) : Outcome :=
  s.run <|
    match s.csr (zextField csr) with
    | some v => .ok (s, v)
    | none => .error .illegalCommand

end Sys2Proof.Machine
end

