-- ==== Sys2Proof/Machine/Dispatch.lean ====
section
/-! DEFINITION. One arm per instruction, each a direct call of its meaning. -/

namespace Sys2Proof.Machine

def exec (i : Instr) (s : State) : Host.Outcome State Fault Refusal :=
  match i with
  | .nop => Sys2Proof.Machine.execNop s
  | .ldi rd sg ds data => Sys2Proof.Machine.execLdi rd sg ds data s
  | .ldw rd k data => Sys2Proof.Machine.execLdw rd k data s
  | .rdw ra k => Sys2Proof.Machine.execRdw ra k s
  | .rdc csr => Sys2Proof.Machine.execRdc csr s
  | .wadd rd ra rb sg => Sys2Proof.Machine.execWadd rd ra rb sg s
  | .wsub rd ra rb sg => Sys2Proof.Machine.execWsub rd ra rb sg s
  | .wmul rd ra rb sg => Sys2Proof.Machine.execWmul rd ra rb sg s
  | .wdiv rd ra rb sg => Sys2Proof.Machine.execWdiv rd ra rb sg s
  | .wmod rd ra rb sg => Sys2Proof.Machine.execWmod rd ra rb sg s
  | .wshl rd ra sg sh => Sys2Proof.Machine.execWshl rd ra sg sh s
  | .wshr rd ra sg sh => Sys2Proof.Machine.execWshr rd ra sg sh s
  | .wcmp ra rb sg => Sys2Proof.Machine.execWcmp ra rb sg s
  | .wext rd ra sg d => Sys2Proof.Machine.execWext rd ra sg d s
  | .wlim rd sg d kind => Sys2Proof.Machine.execWlim rd sg d kind s
  | .padd rd ra rb ty el da db => Sys2Proof.Machine.execPadd rd ra rb ty el da db s
  | .psub rd ra rb ty el da db => Sys2Proof.Machine.execPsub rd ra rb ty el da db s
  | .pmul rd ra rb ty el da db => Sys2Proof.Machine.execPmul rd ra rb ty el da db s
  | .pdiv rd ra rb ty el da db => Sys2Proof.Machine.execPdiv rd ra rb ty el da db s
  | .pshl rd ra ty el da sh => Sys2Proof.Machine.execPshl rd ra ty el da sh s
  | .pshr rd ra ty el da sh => Sys2Proof.Machine.execPshr rd ra ty el da sh s
  | .fadd rd ra rb ty el da db ea eb => Sys2Proof.Machine.execFadd rd ra rb ty el da db ea eb s
  | .fsub rd ra rb ty el da db ea eb => Sys2Proof.Machine.execFsub rd ra rb ty el da db ea eb s
  | .fmul rd ra rb ty el da db ea eb => Sys2Proof.Machine.execFmul rd ra rb ty el da db ea eb s
  | .fdiv rd ra rb ty el da db ea eb ed => Sys2Proof.Machine.execFdiv rd ra rb ty el da db ea eb ed s
  | .fcvt rd ra ty ss ea ed => Sys2Proof.Machine.execFcvt rd ra ty ss ea ed s
  | .fqnt rd ra rb ty ed => Sys2Proof.Machine.execFqnt rd ra rb ty ed s

end Sys2Proof.Machine
end

