-- ==== Sys2Proof/Machine/Step.lean ====
section
/-! DEFINITION. One step of the machine: the next host event (30_encoding.md R70, 60_exceptions.md R248). -/

namespace Sys2Proof.Machine

/-- One step. With no event pending the block holds its state (60_exceptions.md R255; log 3). A reset maps
the block to its reset state (70_reset_and_hazards.md R260). A command word is executed; a word that
decodes to no command raises IllegalCommand (30_encoding.md R80, R81). -/
def step (s : State) : Host.Outcome State Fault Refusal :=
  match s.takeEvent with
  | none => .next s
  | some (.reset, t) => .next t.resetBlock
  | some (.command c, t) =>
    match decode c with
    | some i => exec i t
    | none => .next (t.raise .illegalCommand)

/-- `s` with the command word `w` (its `nbits` low bits, every higher bit 0) as the very next host event: the
host's act of presenting a command (60_exceptions.md R248; log 2). -/
def State.withFetchWord (s : State) (nbits w : Nat) : State := s.present (BitVec.ofNat 128 (w % 2 ^ nbits))

end Sys2Proof.Machine
end

