-- ==== Sys2Proof/Machine/WordLevel.lean ====
section
/-! DEFINITION. The word-level reference algorithms of the engine's units (41_wide_engine.md R123, R126, R129,
R135, R141, R145). They are reference algorithms: the meanings compute by value, and only the register
contents are architectural (70_reset_and_hazards.md R273). A word sequence is a list, word 0 first; a loop
over `k` from 0 is the recursion down the list. -/

namespace Sys2Proof.Machine

/-- The multiword_adder's carry chain from carry-in `c`; the last carry is discarded (41_wide_engine.md
R123). -/
def addWords (w : Nat) (c : Nat) : List Word → List Word → List Word
  | a :: as, b :: bs => (a + b + c) % 2 ^ w :: addWords w ((a + b + c) / 2 ^ w) as bs
  | _, _ => []

/-- The multiword_subtractor's borrow chain from borrow-in `bw`; the last borrow is discarded
(41_wide_engine.md R126). -/
def subWords (w : Nat) (bw : Int) : List Word → List Word → List Word
  | a :: as, b :: bs =>
      let t : Int := (a : Int) - b - bw
      (t % pow2 w).toNat :: subWords w (if t < 0 then 1 else 0) as bs
  | _, _ => []

/-- One pass of the inner loop of the multiword_multiplier (41_wide_engine.md R129): `ai` times the words of
`b`, added into the words of the result from position `i` on, with carry `c`; the last carry is discarded. -/
def mulRow (w ai : Nat) (c : Nat) : List Word → List Word → List Word
  | r :: rs, b :: bs => (r + ai * b + c) % 2 ^ w :: mulRow w ai ((r + ai * b + c) / 2 ^ w) rs bs
  | _, _ => []

/-- The outer loop of the multiword_multiplier over the words of `a`: after the pass for word `i`, word `i` of
the result is final and the next pass works on the words above it (41_wide_engine.md R129). -/
def mulRows (w : Nat) (bs : List Word) : List Word → List Word → List Word
  | a :: as, rs =>
      match mulRow w a 0 rs bs with
      | r :: rest => r :: mulRows w bs as rest
      | [] => []
  | [], _ => []

/-- The multiword_multiplier: the result starts as zeros (41_wide_engine.md R129). -/
def mulWords (w : Nat) (as bs : List Word) : List Word := mulRows w bs as (as.map fun _ => 0)

/-- The restoring long division of magnitudes, bits `i-1` down to 0, from quotient `q` and partial remainder
`rem` (41_wide_engine.md R135). -/
def longDivide (ua ub : Nat) : (i : Nat) → (q rem : Nat) → Nat × Nat
  | 0, q, rem => (q, rem)
  | i + 1, q, rem =>
      let rem' := 2 * rem + ua / 2 ^ i % 2
      if ub ≤ rem' then longDivide ua ub i (q + 2 ^ i) (rem' - ub) else longDivide ua ub i q rem'

/-- The multiword_divider_mod over `bits` steps: quotient and remainder with their signs (41_wide_engine.md
R135). -/
def divideMod (bits : Nat) (a b : Int) : Int × Int :=
  let r := longDivide a.natAbs b.natAbs bits 0 0
  (if decide (a < 0) != decide (b < 0) then -(r.1 : Int) else r.1, if a < 0 then -(r.2 : Int) else r.2)

/-- The multiword_shifter to the left (41_wide_engine.md R141): whole words, then bits with the carry from the
word below. -/
def shiftLeftWords (p : Params) (sh : Nat) (ws : List Word) : List Word :=
  if p.nw ≤ sh then List.replicate p.n 0
  else
    let whole := sh / p.w
    let bits := sh % p.w
    let src (back k : Nat) : Word := if back ≤ k then ws.getD (k - back) 0 else 0
    (List.range p.n).map fun k =>
      src whole k * 2 ^ bits % 2 ^ p.w + (if bits > 0 then src (whole + 1) k / 2 ^ (p.w - bits) else 0)

/-- The word a right shift brings in at the top: all ones under `S = 1` when bit `NW-1` is 1, else 0
(41_wide_engine.md R141). -/
def shiftFill (p : Params) (sg : Bool) (ws : List Word) : Word :=
  if sg && decide (uval p.w ws / 2 ^ (p.nw - 1) % 2 = 1) then 2 ^ p.w - 1 else 0

/-- The multiword_shifter to the right (41_wide_engine.md R141): whole words, then bits with the carry from
the word above. -/
def shiftRightWords (p : Params) (sg : Bool) (sh : Nat) (ws : List Word) : List Word :=
  let fill := shiftFill p sg ws
  if p.nw ≤ sh then List.replicate p.n fill
  else
    let whole := sh / p.w
    let bits := sh % p.w
    let src (k : Nat) : Word := ws.getD k fill
    (List.range p.n).map fun k =>
      src (k + whole) / 2 ^ bits + (if bits > 0 then src (k + whole + 1) % 2 ^ bits * 2 ^ (p.w - bits) else 0)

/-- The comparator from the most significant word down: 1 LT, 4 GT, 2 EQ (41_wide_engine.md R145). -/
def compareDown : List Word → List Word → BitVec 3
  | a :: as, b :: bs => if a < b then 1 else if b < a then 4 else compareDown as bs
  | _, _ => 2

/-- The words most significant first, the sign bit of the top word inverted under `S = 1`
(41_wide_engine.md R145). -/
def flipTop (w : Nat) (sg : Bool) (ws : List Word) : List Word :=
  match ws.reverse with
  | top :: rest => (if sg then top ^^^ 2 ^ (w - 1) else top) :: rest
  | [] => []

/-- The comparator (41_wide_engine.md R145). -/
def compareWords (w : Nat) (sg : Bool) (as bs : List Word) : BitVec 3 :=
  compareDown (flipTop w sg as) (flipTop w sg bs)

end Sys2Proof.Machine
end

