-- ==== Sys2Proof/WellFormed.lean ====
section
/-! DEFINITION. Which commands are legal, by cause: the table of 60_exceptions.md R233 and the capacity
check of 30_encoding.md R83 step 5. The causes `RSV != 0`, reserved `OP` and nonzero unused field are
properties of a command word that no term of `Instr` has; the decoder refuses those (Decode.lean).
The meanings run the checks of Machine/Legality.lean, in the order of R83; that the two agree is a
statement for the provers. -/

namespace Sys2Proof

namespace WellFormed

/-- A used register field names an existing register (30_encoding.md R82). -/
def reg (p : Params) (r : RegField) : Bool := decide (r.toNat < p.nreg)

/-- A digit count lies in `1 .. NW` (30_encoding.md R78). -/
def digits (p : Params) (d : Field16) : Bool := decide (1 ≤ d.toNat ∧ d.toNat ≤ p.nw)

/-- `RND <= 4` (30_encoding.md R76). -/
def rounding (ty : TypeFields) : Bool := decide (ty.rnd.toNat ≤ 4)

/-- The digit fields of a P or F command with two sources (30_encoding.md R78). -/
def digits2 (p : Params) (ty : TypeFields) (el : Bool) (da db : Field16) : Bool :=
  if el then ty.dd == 0 && digits p da && digits p db else digits p ty.dd && da == 0 && db == 0

/-- The digit fields of a P command with one source, whose `DB` is not a field (30_encoding.md R78). -/
def digits1 (p : Params) (ty : TypeFields) (el : Bool) (da : Field16) : Bool :=
  if el then ty.dd == 0 && digits p da else digits p ty.dd && da == 0

/-- The digit count of an elastic FADD or FSUB (43_scaled.md R202): each operand's width plus the
distance it is shifted up, `EA - EB` or `EB - EA` where that is positive. -/
def scaledSumDigits (da db ea eb : Field16) : Nat :=
  max (da.toNat + (ea.toInt - eb.toInt).toNat) (db.toNat + (eb.toInt - ea.toInt).toNat) + 1

end WellFormed

open WellFormed in
/-- R83 steps 3 and 4, cause by cause as 60_exceptions.md R233 lists them. -/
def Instr.legal (p : Params) : Instr → Bool
  | .nop => true
  | .ldi rd _ ds _ => reg p rd && decide (1 ≤ ds.toNat ∧ ds.toNat ≤ 64)
  | .ldw rd k data => reg p rd && decide (k.toNat < p.n) && decide (data.toNat < 2 ^ p.w)
  | .rdw ra k => reg p ra && decide (k.toNat < p.n)
  | .rdc csr => decide (csr.toNat ≤ 3)
  | .wadd rd ra rb _ => reg p rd && reg p ra && reg p rb
  | .wsub rd ra rb _ => reg p rd && reg p ra && reg p rb
  | .wmul rd ra rb _ => reg p rd && reg p ra && reg p rb
  | .wdiv rd ra rb _ => reg p rd && reg p ra && reg p rb
  | .wmod rd ra rb _ => reg p rd && reg p ra && reg p rb
  | .wshl rd ra _ _ => reg p rd && reg p ra
  | .wshr rd ra _ _ => reg p rd && reg p ra
  | .wcmp ra rb _ => reg p ra && reg p rb
  | .wext rd ra _ d => reg p rd && reg p ra && digits p d
  | .wlim rd _ d kind => reg p rd && digits p d && decide (kind.toNat ≤ 2)
  | .padd rd ra rb ty el da db => reg p rd && reg p ra && reg p rb && rounding ty && digits2 p ty el da db
  | .psub rd ra rb ty el da db => reg p rd && reg p ra && reg p rb && rounding ty && digits2 p ty el da db
  | .pmul rd ra rb ty el da db => reg p rd && reg p ra && reg p rb && rounding ty && digits2 p ty el da db
  | .pdiv rd ra rb ty el da db => reg p rd && reg p ra && reg p rb && rounding ty && digits2 p ty el da db
  | .pshl rd ra ty el da _ => reg p rd && reg p ra && rounding ty && digits1 p ty el da
  | .pshr rd ra ty el da _ => reg p rd && reg p ra && rounding ty && digits1 p ty el da
  | .fadd rd ra rb ty el da db _ _ => reg p rd && reg p ra && reg p rb && rounding ty && digits2 p ty el da db
  | .fsub rd ra rb ty el da db _ _ => reg p rd && reg p ra && reg p rb && rounding ty && digits2 p ty el da db
  | .fmul rd ra rb ty el da db _ _ => reg p rd && reg p ra && reg p rb && rounding ty && digits2 p ty el da db
  | .fdiv rd ra rb ty el da db _ _ _ => reg p rd && reg p ra && reg p rb && rounding ty && digits2 p ty el da db
  | .fcvt rd ra ty _ _ _ => reg p rd && reg p ra && rounding ty && digits p ty.dd
  | .fqnt rd ra rb ty _ => reg p rd && reg p ra && reg p rb && rounding ty && digits p ty.dd

/-- The digit count an elastic command deduces (42_policy.md R170, 43_scaled.md R202); `none` where the
command has no elastic form or `EL = 0`. -/
def Instr.elasticDigits : Instr → Option Nat
  | .nop => none
  | .ldi _ _ _ _ => none
  | .ldw _ _ _ => none
  | .rdw _ _ => none
  | .rdc _ => none
  | .wadd _ _ _ _ => none
  | .wsub _ _ _ _ => none
  | .wmul _ _ _ _ => none
  | .wdiv _ _ _ _ => none
  | .wmod _ _ _ _ => none
  | .wshl _ _ _ _ => none
  | .wshr _ _ _ _ => none
  | .wcmp _ _ _ => none
  | .wext _ _ _ _ => none
  | .wlim _ _ _ _ => none
  | .padd _ _ _ _ el da db => if el then some (max da.toNat db.toNat + 1) else none
  | .psub _ _ _ _ el da db => if el then some (max da.toNat db.toNat + 1) else none
  | .pmul _ _ _ _ el da db => if el then some (da.toNat + db.toNat) else none
  | .pdiv _ _ _ _ el da _ => if el then some da.toNat else none
  | .pshl _ _ _ el da sh => if el then some (da.toNat + sh.toNat) else none
  | .pshr _ _ _ el da _ => if el then some da.toNat else none
  | .fadd _ _ _ _ el da db ea eb => if el then some (WellFormed.scaledSumDigits da db ea eb) else none
  | .fsub _ _ _ _ el da db ea eb => if el then some (WellFormed.scaledSumDigits da db ea eb) else none
  | .fmul _ _ _ _ el da db _ _ => if el then some (da.toNat + db.toNat) else none
  | .fdiv _ _ _ _ el da _ ea eb ed =>
      if el then some (da.toNat + (ea.toInt - eb.toInt - ed.toInt).toNat) else none
  | .fcvt _ _ _ _ _ _ => none
  | .fqnt _ _ _ _ _ => none

/-- R83 step 5: a deduced digit count is at most `NW`. -/
def Instr.withinCapacity (p : Params) (i : Instr) : Bool :=
  match i.elasticDigits with
  | some d => decide (d ≤ p.nw)
  | none => true

/-- A well-formed command: all five groups of 30_encoding.md R83 hold. -/
def Instr.wellFormed (p : Params) (i : Instr) : Bool := i.legal p && i.withinCapacity p

end Sys2Proof
end

