-- ==== Sys2Proof/Safety.lean ====
section
/-! DEFINITION. The terms the claims use: the invariant of a state, what a command reads and writes
(10_state.md R24), and what it means that a command succeeded, wrote a register, or failed. The formulas of
00_scope.md R11 are written out here, so that a claim does not rest on the operations it is about. -/

namespace Sys2Proof.Machine

/-! ### The invariant -/

/-- The register file has the shape of its instance: `NREG` registers of `N` words, each word in
`[0, 2^W - 1]` (10_state.md R20, 00_scope.md R9). -/
abbrev State.RegsShaped (s : State) : Prop :=
  s.regs.length = s.params.nreg ∧
    ∀ v ∈ s.regs, v.length = s.params.n ∧ ∀ c ∈ v, c.val < 2 ^ s.params.w

/-- FLAGS is one-hot, or 0 before the first WCMP (10_state.md R25). -/
abbrev FlagsLegal (f : BitVec 3) : Prop := f = 0 ∨ f = 1 ∨ f = 2 ∨ f = 4

/-- STATUS: bits 7:5 are 0; LASTCAUSE is 0 exactly when no sticky bit is set, and otherwise a failure code whose
sticky bit is set (10_state.md R26). -/
abbrev StatusLegal (st : BitVec 16) : Prop :=
  (stickyBits st).toNat < 32 ∧ (lastCause st).toNat ≤ 5 ∧ (lastCause st = 0 ↔ stickyBits st = 0) ∧
    (lastCause st ≠ 0 → st.getLsbD ((lastCause st).toNat - 1) = true)

/-- RTYPE is 0 before the first result, and otherwise holds a digit count in `1 .. NW` and an exponent in the
range of 43_scaled.md R203 (10_state.md R28, R30). -/
abbrev RtypeLegal (p : Params) (r : BitVec 49) : Prop :=
  r = 0 ∨ (1 ≤ rtypeDigits r ∧ rtypeDigits r ≤ p.nw ∧ -65536 ≤ rtypeExp r ∧ rtypeExp r ≤ 65534)

/-- The invariant of the machine. -/
abbrev State.Inv (s : State) : Prop :=
  s.params.Valid ∧ s.RegsShaped ∧ FlagsLegal s.flags ∧ StatusLegal s.status ∧ RtypeLegal s.params s.rtype

/-! ### What a command reads and writes -/

/-- The formats (30_encoding.md R73). -/
inductive Format
  | t | w | p | f
deriving DecidableEq, Repr

/-- The format of a command (30_encoding.md R73, R79). -/
def formatOf : Instr → Format
  | .nop => .t
  | .ldi _ _ _ _ => .t
  | .ldw _ _ _ => .t
  | .rdw _ _ => .t
  | .rdc _ => .t
  | .wadd _ _ _ _ => .w
  | .wsub _ _ _ _ => .w
  | .wmul _ _ _ _ => .w
  | .wdiv _ _ _ _ => .w
  | .wmod _ _ _ _ => .w
  | .wshl _ _ _ _ => .w
  | .wshr _ _ _ _ => .w
  | .wcmp _ _ _ => .w
  | .wext _ _ _ _ => .w
  | .wlim _ _ _ _ => .w
  | .padd _ _ _ _ _ _ _ => .p
  | .psub _ _ _ _ _ _ _ => .p
  | .pmul _ _ _ _ _ _ _ => .p
  | .pdiv _ _ _ _ _ _ _ => .p
  | .pshl _ _ _ _ _ _ => .p
  | .pshr _ _ _ _ _ _ => .p
  | .fadd _ _ _ _ _ _ _ _ _ => .f
  | .fsub _ _ _ _ _ _ _ _ _ => .f
  | .fmul _ _ _ _ _ _ _ _ _ => .f
  | .fdiv _ _ _ _ _ _ _ _ _ _ => .f
  | .fcvt _ _ _ _ _ _ => .f
  | .fqnt _ _ _ _ _ => .f

/-- The value registers a command reads whole, in the order they are checked (10_state.md R24,
60_exceptions.md R234). RDW reads one word of its register: `wordSourceOf`. -/
def sourcesOf : Instr → List RegField
  | .nop => []
  | .ldi _ _ _ _ => []
  | .ldw _ _ _ => []
  | .rdw _ _ => []
  | .rdc _ => []
  | .wadd _ ra rb _ => [ra, rb]
  | .wsub _ ra rb _ => [ra, rb]
  | .wmul _ ra rb _ => [ra, rb]
  | .wdiv _ ra rb _ => [ra, rb]
  | .wmod _ ra rb _ => [ra, rb]
  | .wshl _ ra _ _ => [ra]
  | .wshr _ ra _ _ => [ra]
  | .wcmp ra rb _ => [ra, rb]
  | .wext _ ra _ _ => [ra]
  | .wlim _ _ _ _ => []
  | .padd _ ra rb _ _ _ _ => [ra, rb]
  | .psub _ ra rb _ _ _ _ => [ra, rb]
  | .pmul _ ra rb _ _ _ _ => [ra, rb]
  | .pdiv _ ra rb _ _ _ _ => [ra, rb]
  | .pshl _ ra _ _ _ _ => [ra]
  | .pshr _ ra _ _ _ _ => [ra]
  | .fadd _ ra rb _ _ _ _ _ _ => [ra, rb]
  | .fsub _ ra rb _ _ _ _ _ _ => [ra, rb]
  | .fmul _ ra rb _ _ _ _ _ _ => [ra, rb]
  | .fdiv _ ra rb _ _ _ _ _ _ _ => [ra, rb]
  | .fcvt _ ra _ _ _ _ => [ra]
  | .fqnt _ ra rb _ _ => [ra, rb]

/-- The one word RDW reads: register and index (10_state.md R24). -/
def wordSourceOf : Instr → Option (RegField × Nat)
  | .rdw ra k => some (ra, k.toNat)
  | .nop => none
  | .ldi _ _ _ _ => none
  | .ldw _ _ _ => none
  | .rdc _ => none
  | .wadd _ _ _ _ => none
  | .wsub _ _ _ _ => none
  | .wmul _ _ _ _ => none
  | .wdiv _ _ _ _ => none
  | .wmod _ _ _ _ => none
  | .wshl _ _ _ _ => none
  | .wshr _ _ _ _ => none
  | .wcmp _ _ _ => none
  | .wext _ _ _ _ => none
  | .wlim _ _ _ _ => none
  | .padd _ _ _ _ _ _ _ => none
  | .psub _ _ _ _ _ _ _ => none
  | .pmul _ _ _ _ _ _ _ => none
  | .pdiv _ _ _ _ _ _ _ => none
  | .pshl _ _ _ _ _ _ => none
  | .pshr _ _ _ _ _ _ => none
  | .fadd _ _ _ _ _ _ _ _ _ => none
  | .fsub _ _ _ _ _ _ _ _ _ => none
  | .fmul _ _ _ _ _ _ _ _ _ => none
  | .fdiv _ _ _ _ _ _ _ _ _ _ => none
  | .fcvt _ _ _ _ _ _ => none
  | .fqnt _ _ _ _ _ => none

/-- The value register a command writes (10_state.md R24). -/
def destOf : Instr → Option RegField
  | .nop => none
  | .ldi rd _ _ _ => some rd
  | .ldw rd _ _ => some rd
  | .rdw _ _ => none
  | .rdc _ => none
  | .wadd rd _ _ _ => some rd
  | .wsub rd _ _ _ => some rd
  | .wmul rd _ _ _ => some rd
  | .wdiv rd _ _ _ => some rd
  | .wmod rd _ _ _ => some rd
  | .wshl rd _ _ _ => some rd
  | .wshr rd _ _ _ => some rd
  | .wcmp _ _ _ => none
  | .wext rd _ _ _ => some rd
  | .wlim rd _ _ _ => some rd
  | .padd rd _ _ _ _ _ _ => some rd
  | .psub rd _ _ _ _ _ _ => some rd
  | .pmul rd _ _ _ _ _ _ => some rd
  | .pdiv rd _ _ _ _ _ _ => some rd
  | .pshl rd _ _ _ _ _ => some rd
  | .pshr rd _ _ _ _ _ => some rd
  | .fadd rd _ _ _ _ _ _ _ _ => some rd
  | .fsub rd _ _ _ _ _ _ _ _ => some rd
  | .fmul rd _ _ _ _ _ _ _ _ => some rd
  | .fdiv rd _ _ _ _ _ _ _ _ _ => some rd
  | .fcvt rd _ _ _ _ _ => some rd
  | .fqnt rd _ _ _ _ => some rd

/-- The divisor of a dividing command: its register and the signedness it is read under (60_exceptions.md
R231). -/
def divisorOf : Instr → Option (RegField × Bool)
  | .wdiv _ _ rb sg => some (rb, sg)
  | .wmod _ _ rb sg => some (rb, sg)
  | .pdiv _ _ rb ty _ _ _ => some (rb, ty.s)
  | .fdiv _ _ rb ty _ _ _ _ _ _ => some (rb, ty.s)
  | .fqnt _ _ rb ty _ => some (rb, ty.s)
  | .nop => none
  | .ldi _ _ _ _ => none
  | .ldw _ _ _ => none
  | .rdw _ _ => none
  | .rdc _ => none
  | .wadd _ _ _ _ => none
  | .wsub _ _ _ _ => none
  | .wmul _ _ _ _ => none
  | .wshl _ _ _ _ => none
  | .wshr _ _ _ _ => none
  | .wcmp _ _ _ => none
  | .wext _ _ _ _ => none
  | .wlim _ _ _ _ => none
  | .padd _ _ _ _ _ _ _ => none
  | .psub _ _ _ _ _ _ _ => none
  | .pmul _ _ _ _ _ _ _ => none
  | .pshl _ _ _ _ _ _ => none
  | .pshr _ _ _ _ _ _ => none
  | .fadd _ _ _ _ _ _ _ _ _ => none
  | .fsub _ _ _ _ _ _ _ _ _ => none
  | .fmul _ _ _ _ _ _ _ _ _ => none
  | .fcvt _ _ _ _ _ _ => none

/-- The type fields of a P or F command. -/
def typeOf : Instr → Option TypeFields
  | .nop => none
  | .ldi _ _ _ _ => none
  | .ldw _ _ _ => none
  | .rdw _ _ => none
  | .rdc _ => none
  | .wadd _ _ _ _ => none
  | .wsub _ _ _ _ => none
  | .wmul _ _ _ _ => none
  | .wdiv _ _ _ _ => none
  | .wmod _ _ _ _ => none
  | .wshl _ _ _ _ => none
  | .wshr _ _ _ _ => none
  | .wcmp _ _ _ => none
  | .wext _ _ _ _ => none
  | .wlim _ _ _ _ => none
  | .padd _ _ _ ty _ _ _ => some ty
  | .psub _ _ _ ty _ _ _ => some ty
  | .pmul _ _ _ ty _ _ _ => some ty
  | .pdiv _ _ _ ty _ _ _ => some ty
  | .pshl _ _ ty _ _ _ => some ty
  | .pshr _ _ ty _ _ _ => some ty
  | .fadd _ _ _ ty _ _ _ _ _ => some ty
  | .fsub _ _ _ ty _ _ _ _ _ => some ty
  | .fmul _ _ _ ty _ _ _ _ _ => some ty
  | .fdiv _ _ _ ty _ _ _ _ _ _ => some ty
  | .fcvt _ _ ty _ _ _ => some ty
  | .fqnt _ _ _ ty _ => some ty

/-- Every word the command reads is valid (60_exceptions.md R234). -/
def State.Sourced (s : State) (i : Instr) : Prop :=
  (∀ r ∈ sourcesOf i, (s.reg r).length = s.params.n ∧ ∀ c ∈ s.reg r, c.ok = true) ∧
    ∀ r k, wordSourceOf i = some (r, k) → ∃ v, (s.reg r)[k]? = some ⟨v, true⟩

/-- The divisor the command divides by is 0 (60_exceptions.md R231). -/
def State.DividesByZero (s : State) (i : Instr) : Prop :=
  ∃ r sg, divisorOf i = some (r, sg) ∧ s.valOf r sg = 0

/-! ### What a command did -/

/-- Register `r` holds `words(x)`, every word valid: word `k` is `((x mod 2^NW) div 2^(k*W)) mod 2^W`
(00_scope.md R11, R13). -/
def State.Holds (t : State) (r : RegField) (x : Int) : Prop :=
  (t.reg r).length = t.params.n ∧
    ∀ k, k < t.params.n →
      (t.reg r)[k]? = some ⟨(x % 2 ^ t.params.nw).toNat / 2 ^ (k * t.params.w) % 2 ^ t.params.w, true⟩

/-- Every register but `rd` is as before. -/
def KeepsOtherRegs (s t : State) (rd : RegField) : Prop := ∀ r, r ≠ rd → t.reg r = s.reg r

/-- The frame of every command that succeeds: STATUS is unchanged (10_state.md R26), one response with status 0
and the given data is produced (30_encoding.md R84), and the instance and the events to come are as before. -/
structure Succeeds (s t : State) (data : Data64) : Prop where
  params : t.params = s.params
  status : t.status = s.status
  input : t.input = s.input
  out : t.out = s.out ++ [⟨0, data⟩]

/-- A T or W command that writes `words(x)` to `rd` and changes nothing else; `draws`, the model's own counter
(log 6), stays too. -/
structure WritesReg (s t : State) (rd : RegField) (x : Int) : Prop where
  succeeds : Succeeds s t 0
  holds : t.Holds rd x
  others : KeepsOtherRegs s t rd
  flags : t.flags = s.flags
  rtype : t.rtype = s.rtype
  draws : t.draws = s.draws

/-- RTYPE holds the result type `(S, ER, D)` (10_state.md R28). -/
structure HasType (t : State) (sg : Bool) (er : Int) (d : Nat) : Prop where
  digits : rtypeDigits t.rtype = d
  exponent : rtypeExp t.rtype = er
  sign : rtypeSgn t.rtype = sg

/-- A P or F command that writes `words(x)` to `rd`, the result type to RTYPE, and changes nothing else. -/
structure WritesTyped (s t : State) (rd : RegField) (x : Int) (sg : Bool) (er : Int) (d : Nat) : Prop where
  succeeds : Succeeds s t 0
  holds : t.Holds rd x
  others : KeepsOtherRegs s t rd
  flags : t.flags = s.flags
  rtype : HasType t sg er d
  draws : t.draws = s.draws

/-- A P or F command that overflows under UND (93_implementation_defined.md U1): `rd` takes `N` valid words of
which nothing else is known, RTYPE is written, one draw is taken, and nothing else changes. -/
structure WritesUnspecified (s t : State) (rd : RegField) (sg : Bool) (er : Int) (d : Nat) : Prop where
  succeeds : Succeeds s t 0
  length : (t.reg rd).length = t.params.n
  valid : ∀ c ∈ t.reg rd, c.ok = true ∧ c.val < 2 ^ t.params.w
  others : KeepsOtherRegs s t rd
  flags : t.flags = s.flags
  rtype : HasType t sg er d
  draws : t.draws = s.draws + 1

/-- The outcome of a P or F command whose rounded result is `x`, where it does not fail (42_policy.md R168,
R169). -/
structure Finishes (s t : State) (rd : RegField) (x : Int) (d : Nat) (sg : Bool) (ovf : Ovf) (er : Int) : Prop where
  fitting : fits x d sg = true → WritesTyped s t rd x sg er d
  wrapped : fits x d sg = false → ovf = .wrap → WritesTyped s t rd (wrap x d sg) sg er d
  saturated : fits x d sg = false → ovf = .sat → WritesTyped s t rd (sat x d sg) sg er d
  undefined : fits x d sg = false → ovf = .und → WritesUnspecified s t rd sg er d

/-- The failure step (60_exceptions.md R236): the sticky bit `code - 1` and LASTCAUSE of STATUS are written,
the response has the code and data 0, and no value register word, valid bit, FLAGS or RTYPE changes. -/
structure FailsWith (s t : State) (f : Failure) : Prop where
  params : t.params = s.params
  regs : t.regs = s.regs
  flags : t.flags = s.flags
  rtype : t.rtype = s.rtype
  input : t.input = s.input
  draws : t.draws = s.draws
  sticky : ∀ k, k < 8 → t.status.getLsbD k = (s.status.getLsbD k || decide (k = failureCode f - 1))
  lastCause : (lastCause t.status).toNat = failureCode f
  out : t.out = s.out ++ [⟨BitVec.ofNat 8 (failureCode f), 0⟩]

/-- How a P or F command ends where its rounded result does not fit, tag by tag (42_policy.md R168): WRAP leaves `w`,
SAT leaves `m`, CHK raises Overflow, UND leaves an unspecified pattern. -/
structure OverflowsTo (s t : State) (rd : RegField) (w m : Int) (d : Nat) (sg : Bool) (ovf : Ovf) (er : Int) : Prop where
  wrapped : ovf = .wrap → WritesTyped s t rd w sg er d
  saturated : ovf = .sat → WritesTyped s t rd m sg er d
  checked : ovf = .chk → FailsWith s t .overflow
  undefined : ovf = .und → WritesUnspecified s t rd sg er d

/-- NOP, RDW and RDC: a response, and no register, valid bit or control register changes. -/
structure OnlyResponds (s t : State) (data : Data64) : Prop where
  succeeds : Succeeds s t data
  regs : t.regs = s.regs
  flags : t.flags = s.flags
  rtype : t.rtype = s.rtype
  draws : t.draws = s.draws

/-! ### The type of a result -/

/-- The destination digit count of a P or F command (42_policy.md R170): `DD`, or the deduced count. -/
def typeDigits (ty : TypeFields) (el : Bool) (deduced : Nat) : Nat := if el then deduced else ty.dd.toNat

/-- The result type `(S, ER, D)` of a P or F command (10_state.md R28, 42_policy.md R170, 43_scaled.md R202,
R203). -/
def resultTypeOf : Instr → Option (Bool × Int × Nat)
  | .nop => none
  | .ldi _ _ _ _ => none
  | .ldw _ _ _ => none
  | .rdw _ _ => none
  | .rdc _ => none
  | .wadd _ _ _ _ => none
  | .wsub _ _ _ _ => none
  | .wmul _ _ _ _ => none
  | .wdiv _ _ _ _ => none
  | .wmod _ _ _ _ => none
  | .wshl _ _ _ _ => none
  | .wshr _ _ _ _ => none
  | .wcmp _ _ _ => none
  | .wext _ _ _ _ => none
  | .wlim _ _ _ _ => none
  | .padd _ _ _ ty el da db => some (ty.s, 0, typeDigits ty el (max da.toNat db.toNat + 1))
  | .psub _ _ _ ty el da db => some (ty.s, 0, typeDigits ty el (max da.toNat db.toNat + 1))
  | .pmul _ _ _ ty el da db => some (ty.s, 0, typeDigits ty el (da.toNat + db.toNat))
  | .pdiv _ _ _ ty el da _ => some (ty.s, 0, typeDigits ty el da.toNat)
  | .pshl _ _ ty el da sh => some (ty.s, 0, typeDigits ty el (da.toNat + sh.toNat))
  | .pshr _ _ ty el da _ => some (ty.s, 0, typeDigits ty el da.toNat)
  | .fadd _ _ _ ty el da db ea eb =>
      some (ty.s, min ea.toInt eb.toInt, typeDigits ty el (WellFormed.scaledSumDigits da db ea eb))
  | .fsub _ _ _ ty el da db ea eb =>
      some (ty.s, min ea.toInt eb.toInt, typeDigits ty el (WellFormed.scaledSumDigits da db ea eb))
  | .fmul _ _ _ ty el da db ea eb => some (ty.s, ea.toInt + eb.toInt, typeDigits ty el (da.toNat + db.toNat))
  | .fdiv _ _ _ ty el da _ ea eb ed =>
      some (ty.s, ed.toInt, typeDigits ty el (da.toNat + (ea.toInt - eb.toInt - ed.toInt).toNat))
  | .fcvt _ _ ty _ _ ed => some (ty.s, ed.toInt, ty.dd.toNat)
  | .fqnt _ _ _ ty ed => some (ty.s, ed.toInt, ty.dd.toNat)

/-- Every register field the command uses (30_encoding.md R82). -/
def usedRegs (i : Instr) : List RegField :=
  (destOf i).toList ++ sourcesOf i ++ ((wordSourceOf i).map Prod.fst).toList

end Sys2Proof.Machine
end

