-- ==== Sys2Proof/Certificates/Slice0/Obligations.lean ====
section
/-! DEFINITION. The statements for the provers, in the order of OBLIGATIONS.json. Every statement quantifies over
the parameters `W`, `N`, `NREG` through the state. -/

open Sys2Proof Sys2Proof.Machine

/-! ### Encoding -/

/-- No bit of an encoding is dropped: every command, with every operand at every value its field can hold, is
decoded from its own word (30_encoding.md section 1 and 3). Legality is not needed: decoding is R83 steps 1
and 2 only. -/
def Obligations.DecodeOfEncode : Prop := ∀ i : Instr, decode (encode i) = some i

/-- "The rule makes every accepted command word have exactly one meaning" (30_encoding.md R80): a word that
decodes is the word of the command it decodes to. -/
def Obligations.EncodeOfDecode : Prop := ∀ (c : CmdWord) (i : Instr), decode c = some i → encode i = c

/-- The decoder and the opcode table of 30_encoding.md R88 agree: a word decodes to a command of a row exactly
when `c AND mask = match` for that row. -/
def Obligations.DecoderMatchesTheTable : Prop :=
  ∀ c : CmdWord,
    (∀ i, decode c = some i → ∃ row ∈ opcodeTable, row.mnemonic = i.mnemonic ∧ c &&& row.mask = row.pattern) ∧
      ∀ row ∈ opcodeTable, c &&& row.mask = row.pattern → ∃ i, decode c = some i ∧ i.mnemonic = row.mnemonic

/-- Command words of the spec's own examples, one for each format, decode to the commands they stand for. -/
def Obligations.SpecWordsDecode : Prop :=
  decode 0x00000000000000810000000800100101 = some (.ldi 1 true 8 0x81) ∧
    decode 0x00000000000000120001000000000002 = some (.ldw 0 1 0x12) ∧
    decode 0x00000000000000000009000000100216 = some (.wshr 2 0 true 9) ∧
    decode 0x00000000000000000000001002110223 = some (.pdiv 2 0 1 ⟨true, 0, .sat, 16⟩ false 0 0) ∧
    decode 0xFFFDFFFE000000000000001002910232 =
      some (.fmul 2 0 1 ⟨true, 2, .sat, 16⟩ false 0 0 0xFFFE 0xFFFD) ∧
    decode 0x00000000000000000000000000000005 = none

/-- The tag encodings of 30_encoding.md R76: the five rounding tags in order, the three reserved codes, and the
four overflow tags. -/
def Obligations.TagCodes : Prop :=
  [0, 1, 2, 3, 4, 5, 6, 7].map roundingTag =
      [some .te, some .ta, some .tz, some .tn, some .nat, none, none, none] ∧
    [0, 1, 2, 3].map Ovf.ofField = [.wrap, .sat, .chk, .und]

/-! ### The machine -/

/-- A step with a command word at the head of the host's events that decodes to `i` is `exec` of `i` on the state
with that event taken; `State.withFetchWord` puts such a word there. The list of events is the model's form of
the host's interface (log 2). -/
def Obligations.StepRunsTheDecodedCommand : Prop :=
  (∀ (s : State) (c : CmdWord) (rest : List HostEvent) (i : Instr),
      s.input = .command c :: rest → decode c = some i → step s = exec i { s with input := rest }) ∧
    ∀ (s : State) (i : Instr), step (s.withFetchWord 128 (encode i).toNat) = exec i s

/-- A command word that is no command (a reserved opcode, a nonzero `RSV`, a nonzero unused field: 30_encoding.md
R83 steps 1 and 2) raises IllegalCommand, and the failure is the failure step of 60_exceptions.md R236. -/
def Obligations.UndecodableWordIsIllegal : Prop :=
  ∀ (s : State) (c : CmdWord) (rest : List HostEvent),
    s.input = .command c :: rest → decode c = none →
      ∃ t, step s = .next t ∧ FailsWith { s with input := rest } t .illegalCommand

/-- With no event pending the block holds its state (60_exceptions.md R255). That such a step is a step at all
is the model's choice (log 3). -/
def Obligations.IdleStepHoldsTheState : Prop := ∀ s : State, s.input = [] → step s = .next s

/-- A reset clears every valid bit, FLAGS, STATUS and RTYPE, leaves the parameters, produces no response
(70_reset_and_hazards.md R260, R261), and on an instance whose parameters are in range leaves a state whose
invariant holds, whatever the state before. That reset is an event of the same list as the commands, and that the
responses already given stay, is the model's choice (log 7). -/
def Obligations.ResetEventClearsTheBlock : Prop :=
  ∀ (s : State) (rest : List HostEvent), s.input = .reset :: rest →
    ∃ t, step s = .next t ∧ t.params = s.params ∧ t.input = rest ∧ t.out = s.out ∧
      t.regs.length = s.params.nreg ∧
      (∀ v ∈ t.regs, v.length = s.params.n ∧ ∀ c ∈ v, c.ok = false) ∧
      t.flags = 0 ∧ t.status = 0 ∧ t.rtype = 0 ∧ (s.params.Valid → t.Inv)

/-- The reset values of 10_state.md R38 in `State.reset` and in the reset state of every instance: every valid bit
0, FLAGS, STATUS and RTYPE 0, PARAMS the constants of the instance. That `State.reset` is the reset state of
`instanceParams` is the model's choice (log 1). -/
def Obligations.ResetValues : Prop :=
  (∀ p : Params, (State.resetOf p).params = p ∧ (State.resetOf p).regs.length = p.nreg ∧
      (∀ v ∈ (State.resetOf p).regs, v.length = p.n ∧ ∀ c ∈ v, c.ok = false) ∧
      (State.resetOf p).flags = 0 ∧ (State.resetOf p).status = 0 ∧ (State.resetOf p).rtype = 0) ∧
    State.reset = State.resetOf instanceParams

/-- The reset state of every instance whose parameters are in range satisfies the invariant, and so does
`State.reset`, whose instance is the model's choice (log 1). -/
def Obligations.ResetSatisfiesInv : Prop := (∀ p : Params, p.Valid → (State.resetOf p).Inv) ∧ State.reset.Inv

/-- Every step keeps the invariant: the register file keeps its shape and every word its range, FLAGS stays
one-hot or 0, STATUS stays consistent with LASTCAUSE, and RTYPE holds a legal type or 0. -/
def Obligations.StepKeepsInv : Prop := ∀ s t : State, s.Inv → step s = .next t → t.Inv

/-- "A model's step function returns the next state in every case; no failure is a stuck state" (60_exceptions.md
R238): after any step, failing or not, there is a next one, whatever the host presents. -/
def Obligations.EveryStepAnswersNext : Prop :=
  ∀ s : State, ∃ t, step s = .next t ∧ ∀ c : CmdWord, ∃ u, step (t.present c) = .next u

/-- A list of `n` command words, legal or not, takes `n` steps and produces exactly `n` responses, after those
already there (60_exceptions.md R249). The lists of events and of responses are the model's (log 2, log 4). -/
def Obligations.OneResponsePerCommand : Prop :=
  ∀ (s : State) (program : List CmdWord), s.input = [] →
    ∃ t rs, Sys2Proof.core.run program.length (s.issue program) = .next t ∧ t.input = [] ∧
      t.out = s.out ++ rs ∧ rs.length = program.length

/-- A command as one indivisible step (10_state.md R39): it succeeds, leaving STATUS alone and responding with
status 0, or it is one failure step, which changes STATUS and nothing else (60_exceptions.md R236). -/
def Obligations.EveryCommandSucceedsOrFails : Prop :=
  ∀ (i : Instr) (s : State),
    ∃ t, exec i s = .next t ∧ ((∃ data, Succeeds s t data) ∨ ∃ f, FailsWith s t f)

/-- The priority of 60_exceptions.md R235: the first that applies of IllegalCommand, CapacityExceeded, UninitRead
and DivideByZero decides the command; where none applies it succeeds, or it is a P or F command under CHK
that raises Overflow. -/
def Obligations.FailurePriority : Prop :=
  ∀ (i : Instr) (s : State), ∃ t, exec i s = .next t ∧
    if i.legal s.params = false then FailsWith s t .illegalCommand
    else if i.withinCapacity s.params = false then FailsWith s t .capacityExceeded
    else (¬ s.Sourced i → FailsWith s t .uninitRead) ∧
      (s.Sourced i → s.DividesByZero i → FailsWith s t .divideByZero) ∧
      (s.Sourced i → ¬ s.DividesByZero i →
        (∃ data, Succeeds s t data) ∨
          (FailsWith s t .overflow ∧ ∃ ty, typeOf i = some ty ∧ ty.ovf = .chk))

/-- "A used register field whose value is `>= NREG` raises IllegalCommand" (30_encoding.md R82). -/
def Obligations.RegisterFieldRange : Prop :=
  ∀ (i : Instr) (s : State) (r : RegField), r ∈ usedRegs i → s.params.nreg ≤ r.toNat →
    ∃ t, exec i s = .next t ∧ FailsWith s t .illegalCommand

/-- Only WCMP writes FLAGS (10_state.md section 2). -/
def Obligations.OnlyCompareWritesFlags : Prop :=
  ∀ (i : Instr) (s t : State), (∀ ra rb sg, i ≠ .wcmp ra rb sg) → exec i s = .next t → t.flags = s.flags

/-- RTYPE is written, all fields together, by each P and F command that succeeds, in the step that writes its
destination register; T and W commands never write it, nor does a failing command (10_state.md R29). DIGITS is
0 after reset, a value no command produces (R30). -/
def Obligations.RtypeIsWrittenByTypedCommands : Prop :=
  (∀ (i : Instr) (s t : State), exec i s = .next t → formatOf i = .t ∨ formatOf i = .w → t.rtype = s.rtype) ∧
    (∀ (i : Instr) (s t : State) (r : Response), exec i s = .next t → t.out = s.out ++ [r] → r.status ≠ 0 →
      t.rtype = s.rtype) ∧
    (∀ (i : Instr) (s t : State) (data : Data64), s.Inv → exec i s = .next t → Succeeds s t data →
      formatOf i = .p ∨ formatOf i = .f →
        ∃ sg er d rd, resultTypeOf i = some (sg, er, d) ∧ HasType t sg er d ∧ 1 ≤ d ∧
          destOf i = some rd ∧ (t.reg rd).length = s.params.n ∧ ∀ c ∈ t.reg rd, c.ok = true) ∧
    ∀ p : Params, rtypeDigits (State.resetOf p).rtype = 0

/-- STATUS is sticky (60_exceptions.md section 3, 10_state.md section 3): a step keeps every sticky bit that is set,
unless the host resets the block. -/
def Obligations.StickyBitsStay : Prop :=
  ∀ s t : State, step s = .next t → (∀ rest, s.input ≠ .reset :: rest) →
    ∀ k, k < 5 → s.status.getLsbD k = true → t.status.getLsbD k = true

/-- "No command clears a valid bit" (10_state.md section 1). -/
def Obligations.CommandsKeepValidBits : Prop :=
  ∀ (i : Instr) (s t : State), s.Inv → exec i s = .next t →
    ∀ (r : RegField) (k : Nat) (v : Word), (s.reg r)[k]? = some ⟨v, true⟩ → ∃ v', (t.reg r)[k]? = some ⟨v', true⟩

/-- The frame of every command (10_state.md section 1, the table of what each command writes): a register the
command does not name as its destination is unchanged, the parameters and the events to come are unchanged,
and the responses already given stay. -/
def Obligations.OnlyTheDestinationChanges : Prop :=
  ∀ (i : Instr) (s t : State), exec i s = .next t →
    (∀ r, destOf i ≠ some r → t.reg r = s.reg r) ∧ t.params = s.params ∧ t.input = s.input ∧
      ∃ r, t.out = s.out ++ [r]

/-! ### Values, ranges and rounding -/

/-- What a write leaves to be read (00_scope.md section 4): a register that holds `words(x)` is readable, its
unsigned value is `x mod 2^NW`, its signed value is the one number congruent to `x` modulo `2^NW` in the signed
range, and its value is `x` exactly when `x` lies in the range. -/
def Obligations.ValueOfAWrittenRegister : Prop :=
  ∀ (t : State) (r : RegField) (x : Int), t.params.Valid → t.Holds r x →
    t.readable r = true ∧ t.valOf r false = x % 2 ^ t.params.nw ∧
      (∃ j : Int, t.valOf r true = x - j * 2 ^ t.params.nw) ∧
      -2 ^ (t.params.nw - 1) ≤ t.valOf r true ∧ t.valOf r true < 2 ^ (t.params.nw - 1) ∧
      ∀ sg, t.valOf r sg = x ↔ fits x t.params.nw sg = true

/-- The range functions of 00_scope.md section 4: `fits` is the range of the type; `wrap` is the one number in the
range congruent to `x` modulo `2^D`; `sat` is the number of the range nearest to `x`; `ext` of the low `D` bits
is `wrap`. -/
def Obligations.RangeFunctions : Prop :=
  ∀ (x : Int) (d : Nat) (sg : Bool), 1 ≤ d →
    (fits x d sg = true ↔ (if sg then -2 ^ (d - 1) else 0) ≤ x ∧ x < (if sg then 2 ^ (d - 1) else 2 ^ d)) ∧
      fits (wrap x d sg) d sg = true ∧
      (∀ y, fits y d sg = true → (y = wrap x d sg ↔ (2 ^ d : Int) ∣ x - y)) ∧
      fits (sat x d sg) d sg = true ∧ (∀ y, fits y d sg = true → |x - sat x d sg| ≤ |x - y|) ∧
      ext (x % 2 ^ d) d sg = wrap x d sg

/-- The rounding unit over the rationals (42_policy.md section 2): `TN` is the floor; `TZ` and, for a ratio, `NAT`
drop the fraction; `TE` and `TA` give a nearest integer, `TE` the even one and `TA` the one of larger magnitude
at a tie. `round_shift` is `round_ratio` by a power of two, but a floor under `NAT`. -/
def Obligations.RoundingTags : Prop :=
  (∀ p q : Int, q ≠ 0 →
      roundRatio p q .tn = ⌊(p / q : ℚ)⌋ ∧
        (roundRatio p q .tz = if 0 ≤ (p / q : ℚ) then ⌊(p / q : ℚ)⌋ else ⌈(p / q : ℚ)⌉) ∧
        roundRatio p q .nat = roundRatio p q .tz ∧
        |(p / q : ℚ) - roundRatio p q .te| ≤ 1 / 2 ∧
        (|(p / q : ℚ) - roundRatio p q .te| = 1 / 2 → roundRatio p q .te % 2 = 0) ∧
        |(p / q : ℚ) - roundRatio p q .ta| ≤ 1 / 2 ∧
        (|(p / q : ℚ) - roundRatio p q .ta| = 1 / 2 → |(p / q : ℚ)| ≤ |(roundRatio p q .ta : ℚ)|)) ∧
    ∀ (x : Int) (k : Nat),
      roundShift x k .nat = ⌊(x / 2 ^ k : ℚ)⌋ ∧ ∀ tag, tag ≠ .nat → roundShift x k tag = roundRatio x (2 ^ k) tag

/-- Truncating division (41_wide_engine.md R131). -/
def Obligations.TruncatingDivision : Prop :=
  ∀ a b : Int, b ≠ 0 →
    tdiv a b = a.sign * b.sign * (|a| / |b|) ∧ trem a b = a - b * tdiv a b ∧
      a = b * tdiv a b + trem a b ∧ |trem a b| < |b| ∧ (trem a b = 0 ∨ (trem a b).sign = a.sign) ∧
      tdiv 0 b = 0 ∧ trem 0 b = 0

/-! ### Format T -/

/-- NOP succeeds in every state and changes nothing but the response (40_construction_transfer.md, NOP). -/
def Obligations.NopCompletes : Prop := ∀ s : State, ∃ t, exec .nop s = .next t ∧ OnlyResponds s t 0

/-- LDI writes the low `DS` bits of `DATA`, sign- or zero-extended, and changes no other register, no flag and no
RTYPE (40_construction_transfer.md, LDI); `DATA[63:DS]` is not examined. -/
def Obligations.LdiCompletes : Prop :=
  ∀ (s : State) (rd : RegField) (sg : Bool) (ds : Field16) (data : Data64), s.Inv →
    rd.toNat < s.params.nreg → 1 ≤ ds.toNat → ds.toNat ≤ 64 →
    ∃ t, exec (.ldi rd sg ds data) s = .next t ∧
      WritesReg s t rd
        (if sg = true ∧ 2 ^ (ds.toNat - 1) ≤ data.toNat % 2 ^ ds.toNat then
          ((data.toNat % 2 ^ ds.toNat : Nat) : Int) - 2 ^ ds.toNat
        else ((data.toNat % 2 ^ ds.toNat : Nat) : Int))

/-- LDW writes one word and its valid bit, and changes no other word, valid bit, flag or RTYPE
(40_construction_transfer.md, LDW). -/
def Obligations.LdwCompletes : Prop :=
  ∀ (s : State) (rd : RegField) (k : Field16) (data : Data64), s.Inv →
    rd.toNat < s.params.nreg → k.toNat < s.params.n → data.toNat < 2 ^ s.params.w →
    ∃ t, exec (.ldw rd k data) s = .next t ∧ Succeeds s t 0 ∧
      (t.reg rd)[k.toNat]? = some ⟨data.toNat, true⟩ ∧
      (∀ j, j ≠ k.toNat → (t.reg rd)[j]? = (s.reg rd)[j]?) ∧
      KeepsOtherRegs s t rd ∧ t.flags = s.flags ∧ t.rtype = s.rtype ∧ t.draws = s.draws

/-- RDW responds with the addressed word, whatever the other words of the register, and changes nothing else
(40_construction_transfer.md, RDW). -/
def Obligations.RdwCompletes : Prop :=
  ∀ (s : State) (ra : RegField) (k : Field16) (v : Word), s.Inv →
    ra.toNat < s.params.nreg → k.toNat < s.params.n → (s.reg ra)[k.toNat]? = some ⟨v, true⟩ →
    ∃ t data, exec (.rdw ra k) s = .next t ∧ OnlyResponds s t data ∧ data.toNat = v

/-- RDC responds with the control register, zero-extended, and changes nothing else; a number that names none
raises IllegalCommand (40_construction_transfer.md, RDC; 10_state.md section 3 for PARAMS). -/
def Obligations.RdcCompletes : Prop :=
  ∀ (s : State) (csr : Field16), s.Inv →
    (csr.toNat = 0 → ∃ t data, exec (.rdc csr) s = .next t ∧ OnlyResponds s t data ∧ data.toNat = s.status.toNat) ∧
    (csr.toNat = 1 → ∃ t data, exec (.rdc csr) s = .next t ∧ OnlyResponds s t data ∧ data.toNat = s.flags.toNat) ∧
    (csr.toNat = 2 → ∃ t data, exec (.rdc csr) s = .next t ∧ OnlyResponds s t data ∧ data.toNat = s.rtype.toNat) ∧
    (csr.toNat = 3 → ∃ t data, exec (.rdc csr) s = .next t ∧ OnlyResponds s t data ∧
      data.toNat = s.params.w + 2 ^ 8 * s.params.n + 2 ^ 24 * s.params.nreg) ∧
    (3 < csr.toNat → ∃ t, exec (.rdc csr) s = .next t ∧ FailsWith s t .illegalCommand)

/-! ### Format W -/

/-- WADD, WSUB and WMUL write the sum, difference and product of the unsigned values reduced modulo `2^NW`, for
either `S`, and change no other register, no flag and no RTYPE (41_wide_engine.md sections 2 and 3). -/
def Obligations.WideSumsComplete : Prop :=
  ∀ (s : State) (rd ra rb : RegField) (sg : Bool), s.Inv →
    rd.toNat < s.params.nreg → ra.toNat < s.params.nreg → rb.toNat < s.params.nreg →
    s.readable ra = true → s.readable rb = true →
    (∃ t, exec (.wadd rd ra rb sg) s = .next t ∧ WritesReg s t rd (s.valOf ra false + s.valOf rb false)) ∧
      (∃ t, exec (.wsub rd ra rb sg) s = .next t ∧ WritesReg s t rd (s.valOf ra false - s.valOf rb false)) ∧
      ∃ t, exec (.wmul rd ra rb sg) s = .next t ∧ WritesReg s t rd (s.valOf ra false * s.valOf rb false)

/-- The results of WADD, WSUB and WMUL are the same whether the operands are thought of as signed or unsigned
(41_wide_engine.md sections 2 and 3): the destination also holds the sum, difference and product of the signed
values. -/
def Obligations.WideSumsIgnoreSignedness : Prop :=
  ∀ (s t : State) (rd ra rb : RegField) (sg : Bool), s.Inv →
    rd.toNat < s.params.nreg → ra.toNat < s.params.nreg → rb.toNat < s.params.nreg →
    s.readable ra = true → s.readable rb = true →
    (exec (.wadd rd ra rb sg) s = .next t → t.Holds rd (s.valOf ra true + s.valOf rb true)) ∧
      (exec (.wsub rd ra rb sg) s = .next t → t.Holds rd (s.valOf ra true - s.valOf rb true)) ∧
      (exec (.wmul rd ra rb sg) s = .next t → t.Holds rd (s.valOf ra true * s.valOf rb true))

/-- WDIV and WMOD by a nonzero divisor write the quotient rounded toward zero and the remainder with the sign of
the dividend, which the three conditions on `q` and `r` determine; by zero both raise DivideByZero
(41_wide_engine.md section 4). -/
def Obligations.WideDivisionCompletes : Prop :=
  ∀ (s : State) (rd ra rb : RegField) (sg : Bool), s.Inv →
    rd.toNat < s.params.nreg → ra.toNat < s.params.nreg → rb.toNat < s.params.nreg →
    s.readable ra = true → s.readable rb = true →
    (s.valOf rb sg ≠ 0 → ∃ t u q r, exec (.wdiv rd ra rb sg) s = .next t ∧ WritesReg s t rd q ∧
        exec (.wmod rd ra rb sg) s = .next u ∧ WritesReg s u rd r ∧
        s.valOf ra sg = s.valOf rb sg * q + r ∧ |r| < |s.valOf rb sg| ∧ (r = 0 ∨ r.sign = (s.valOf ra sg).sign)) ∧
      (s.valOf rb sg = 0 → (∃ t, exec (.wdiv rd ra rb sg) s = .next t ∧ FailsWith s t .divideByZero) ∧
        ∃ t, exec (.wmod rd ra rb sg) s = .next t ∧ FailsWith s t .divideByZero)

/-- WSHL multiplies by `2^SH` modulo `2^NW`, whatever `S`; WSHR divides by `2^SH` rounding down, logical or
arithmetic by `S`. From `SH = NW` on, WSHL writes 0 and WSHR 0 or -1 (41_wide_engine.md section 5). -/
def Obligations.WideShiftsComplete : Prop :=
  ∀ (s : State) (rd ra : RegField) (sg : Bool) (sh : Field16), s.Inv →
    rd.toNat < s.params.nreg → ra.toNat < s.params.nreg → s.readable ra = true →
    (∃ t, exec (.wshl rd ra sg sh) s = .next t ∧ WritesReg s t rd (s.valOf ra false * 2 ^ sh.toNat) ∧
        (s.params.nw ≤ sh.toNat → t.Holds rd 0)) ∧
      ∃ t, exec (.wshr rd ra sg sh) s = .next t ∧ WritesReg s t rd ⌊(s.valOf ra sg / 2 ^ sh.toNat : ℚ)⌋ ∧
        (s.params.nw ≤ sh.toNat → t.Holds rd (if s.valOf ra sg < 0 then -1 else 0))

/-- WCMP writes FLAGS one-hot and responds with the same value; no register and no RTYPE changes
(41_wide_engine.md section 6). -/
def Obligations.CompareCompletes : Prop :=
  ∀ (s : State) (ra rb : RegField) (sg : Bool), s.Inv →
    ra.toNat < s.params.nreg → rb.toNat < s.params.nreg → s.readable ra = true → s.readable rb = true →
    ∃ t data, exec (.wcmp ra rb sg) s = .next t ∧ Succeeds s t data ∧ data.toNat = t.flags.toNat ∧
      (s.valOf ra sg < s.valOf rb sg → t.flags = 1) ∧ (s.valOf ra sg = s.valOf rb sg → t.flags = 2) ∧
      (s.valOf rb sg < s.valOf ra sg → t.flags = 4) ∧
      t.regs = s.regs ∧ t.rtype = s.rtype ∧ t.draws = s.draws

/-- WEXT writes `wrap(val(v[RA], s'), D, S)` for either source signedness `s'`; with `D = NW` it copies the register
(41_wide_engine.md section 7). -/
def Obligations.ExtendCompletes : Prop :=
  ∀ (s : State) (rd ra : RegField) (sg sg' : Bool) (d : Field16), s.Inv →
    rd.toNat < s.params.nreg → ra.toNat < s.params.nreg → 1 ≤ d.toNat → d.toNat ≤ s.params.nw →
    s.readable ra = true →
    ∃ t, exec (.wext rd ra sg d) s = .next t ∧ WritesReg s t rd (wrap (s.valOf ra sg') d.toNat sg) ∧
      (d.toNat = s.params.nw → t.reg rd = s.reg ra)

/-- WLIM writes the least (`KIND` 0 and 2) or the greatest (`KIND` 1) value of the type and reads no register; any
other `KIND` raises IllegalCommand (41_wide_engine.md section 8). -/
def Obligations.LimitsComplete : Prop :=
  ∀ (s : State) (rd : RegField) (sg : Bool) (d kind : Field16), s.Inv →
    rd.toNat < s.params.nreg → 1 ≤ d.toNat → d.toNat ≤ s.params.nw →
    (kind.toNat = 0 ∨ kind.toNat = 2 → ∃ t, exec (.wlim rd sg d kind) s = .next t ∧
        WritesReg s t rd (if sg then -2 ^ (d.toNat - 1) else 0)) ∧
      (kind.toNat = 1 → ∃ t, exec (.wlim rd sg d kind) s = .next t ∧
        WritesReg s t rd (if sg then 2 ^ (d.toNat - 1) - 1 else 2 ^ d.toNat - 1)) ∧
      (2 < kind.toNat → ∃ t, exec (.wlim rd sg d kind) s = .next t ∧ FailsWith s t .illegalCommand)

/-- The law of 41_wide_engine.md R127 (source section 8), as two commands: subtracting `b` from the WADD of `a` and
`b` gives `a` again, word for word. The register that holds `b` must survive the WADD, so it is not its
destination; every other choice of registers is included. -/
def Obligations.AddThenSubtract : Prop :=
  ∀ (s : State) (ra rb rx ry : RegField) (sg sg' : Bool), s.Inv →
    ra.toNat < s.params.nreg → rb.toNat < s.params.nreg → rx.toNat < s.params.nreg → ry.toNat < s.params.nreg →
    s.readable ra = true → s.readable rb = true → rx ≠ rb →
    ∃ t u, exec (.wadd rx ra rb sg) s = .next t ∧ exec (.wsub ry rx rb sg') t = .next u ∧ u.reg ry = s.reg ra

/-- The law of 41_wide_engine.md R136 (source section 8), as two commands: where `a * b` fits the type and `b` is
not 0, dividing the WMUL of `a` and `b` by `b` gives `a` again, word for word. -/
def Obligations.MultiplyThenDivide : Prop :=
  ∀ (s : State) (ra rb rx ry : RegField) (sg sg' : Bool), s.Inv →
    ra.toNat < s.params.nreg → rb.toNat < s.params.nreg → rx.toNat < s.params.nreg → ry.toNat < s.params.nreg →
    s.readable ra = true → s.readable rb = true → rx ≠ rb →
    s.valOf rb sg ≠ 0 → fits (s.valOf ra sg * s.valOf rb sg) s.params.nw sg = true →
    ∃ t u, exec (.wmul rx ra rb sg') s = .next t ∧ exec (.wdiv ry rx rb sg) t = .next u ∧ u.reg ry = s.reg ra

/-! ### The word-level algorithms of the engine -/

/-- The carry chain and the borrow chain compute the words of the sum and of the difference (41_wide_engine.md
section 2). -/
def Obligations.CarryAndBorrowChains : Prop :=
  ∀ (p : Params) (as bs : List Word), as.length = p.n → bs.length = p.n →
    (∀ v ∈ as, v < 2 ^ p.w) → (∀ v ∈ bs, v < 2 ^ p.w) →
    addWords p.w 0 as bs = words p (uval p.w as + uval p.w bs) ∧
      subWords p.w 0 as bs = words p (uval p.w as - uval p.w bs)

/-- The schoolbook multiplication computes the words of the product (41_wide_engine.md section 3). -/
def Obligations.SchoolbookMultiply : Prop :=
  ∀ (p : Params) (as bs : List Word), as.length = p.n → bs.length = p.n →
    (∀ v ∈ as, v < 2 ^ p.w) → (∀ v ∈ bs, v < 2 ^ p.w) →
    mulWords p.w as bs = words p (uval p.w as * uval p.w bs)

/-- The restoring long division computes the truncating quotient and remainder of every pair of values a register
can hold (41_wide_engine.md section 4). -/
def Obligations.LongDivision : Prop :=
  ∀ (bits : Nat) (a b : Int), b ≠ 0 → |a| < 2 ^ bits → divideMod bits a b = (tdiv a b, trem a b)

/-- The shifter computes the words of the shifted value, to the left and, logical or arithmetic, to the right
(41_wide_engine.md section 5). -/
def Obligations.WordShifts : Prop :=
  ∀ (p : Params) (ws : List Word) (sh : Nat) (sg : Bool), p.Valid → ws.length = p.n → (∀ v ∈ ws, v < 2 ^ p.w) →
    shiftLeftWords p sh ws = words p (uval p.w ws * 2 ^ sh) ∧
      shiftRightWords p sg sh ws = words p (val p sg ws / 2 ^ sh)

/-- The comparator from the most significant word down orders registers as their values under `S`
(41_wide_engine.md section 6). -/
def Obligations.WordComparator : Prop :=
  ∀ (p : Params) (as bs : List Word) (sg : Bool), p.Valid → as.length = p.n → bs.length = p.n →
    (∀ v ∈ as, v < 2 ^ p.w) → (∀ v ∈ bs, v < 2 ^ p.w) →
    compareWords p.w sg as bs = compareFlags (val p sg as) (val p sg bs)

/-! ### Format P -/

/-- PADD, PSUB and PMUL range-check the true sum, difference and product against `DD` or the deduced digit count
and end as the overflow tag says (42_policy.md sections 3 to 5); `RND` is not consulted. Under CHK a result that
does not fit raises Overflow. -/
def Obligations.PolicySumsComplete : Prop :=
  ∀ (s : State) (rd ra rb : RegField) (ty : TypeFields) (el : Bool) (da db : Field16) (a b : Int), s.Inv →
    s.readable ra = true → s.readable rb = true → s.valOf ra ty.s = a → s.valOf rb ty.s = b →
    ((Instr.padd rd ra rb ty el da db).wellFormed s.params = true →
        (fits (a + b) (typeDigits ty el (max da.toNat db.toNat + 1)) ty.s = true ∨ ty.ovf ≠ .chk →
          ∃ t, exec (.padd rd ra rb ty el da db) s = .next t ∧
            Finishes s t rd (a + b) (typeDigits ty el (max da.toNat db.toNat + 1)) ty.s ty.ovf 0) ∧
        (fits (a + b) (typeDigits ty el (max da.toNat db.toNat + 1)) ty.s = false ∧ ty.ovf = .chk →
          ∃ t, exec (.padd rd ra rb ty el da db) s = .next t ∧ FailsWith s t .overflow)) ∧
    ((Instr.psub rd ra rb ty el da db).wellFormed s.params = true →
        (fits (a - b) (typeDigits ty el (max da.toNat db.toNat + 1)) ty.s = true ∨ ty.ovf ≠ .chk →
          ∃ t, exec (.psub rd ra rb ty el da db) s = .next t ∧
            Finishes s t rd (a - b) (typeDigits ty el (max da.toNat db.toNat + 1)) ty.s ty.ovf 0) ∧
        (fits (a - b) (typeDigits ty el (max da.toNat db.toNat + 1)) ty.s = false ∧ ty.ovf = .chk →
          ∃ t, exec (.psub rd ra rb ty el da db) s = .next t ∧ FailsWith s t .overflow)) ∧
    ((Instr.pmul rd ra rb ty el da db).wellFormed s.params = true →
        (fits (a * b) (typeDigits ty el (da.toNat + db.toNat)) ty.s = true ∨ ty.ovf ≠ .chk →
          ∃ t, exec (.pmul rd ra rb ty el da db) s = .next t ∧
            Finishes s t rd (a * b) (typeDigits ty el (da.toNat + db.toNat)) ty.s ty.ovf 0) ∧
        (fits (a * b) (typeDigits ty el (da.toNat + db.toNat)) ty.s = false ∧ ty.ovf = .chk →
          ∃ t, exec (.pmul rd ra rb ty el da db) s = .next t ∧ FailsWith s t .overflow))

/-- PDIV by a nonzero divisor rounds the exact quotient by the command's tag and range-checks it; elastic digits are
the dividend's. By zero it raises DivideByZero whatever `OVF` (42_policy.md section 5). -/
def Obligations.PolicyDivisionCompletes : Prop :=
  ∀ (s : State) (rd ra rb : RegField) (ty : TypeFields) (el : Bool) (da db : Field16) (tag : Rnd) (x : Int), s.Inv →
    (Instr.pdiv rd ra rb ty el da db).wellFormed s.params = true → s.readable ra = true → s.readable rb = true →
    roundingTag ty.rnd = some tag → roundRatio (s.valOf ra ty.s) (s.valOf rb ty.s) tag = x →
    (s.valOf rb ty.s ≠ 0 → fits x (typeDigits ty el da.toNat) ty.s = true ∨ ty.ovf ≠ .chk →
        ∃ t, exec (.pdiv rd ra rb ty el da db) s = .next t ∧
          Finishes s t rd x (typeDigits ty el da.toNat) ty.s ty.ovf 0) ∧
      (s.valOf rb ty.s ≠ 0 → fits x (typeDigits ty el da.toNat) ty.s = false → ty.ovf = .chk →
        ∃ t, exec (.pdiv rd ra rb ty el da db) s = .next t ∧ FailsWith s t .overflow) ∧
      (s.valOf rb ty.s = 0 →
        ∃ t, exec (.pdiv rd ra rb ty el da db) s = .next t ∧ FailsWith s t .divideByZero)

/-- PSHL range-checks `a * 2^SH`, elastic digits `DA + SH`; PSHR rounds `a / 2^SH` by the command's tag and
range-checks it, elastic digits `DA` (42_policy.md section 5). -/
def Obligations.PolicyShiftsComplete : Prop :=
  ∀ (s : State) (rd ra : RegField) (ty : TypeFields) (el : Bool) (da sh : Field16) (tag : Rnd) (a : Int), s.Inv →
    s.readable ra = true → s.valOf ra ty.s = a → roundingTag ty.rnd = some tag →
    ((Instr.pshl rd ra ty el da sh).wellFormed s.params = true →
        (fits (a * 2 ^ sh.toNat) (typeDigits ty el (da.toNat + sh.toNat)) ty.s = true ∨ ty.ovf ≠ .chk →
          ∃ t, exec (.pshl rd ra ty el da sh) s = .next t ∧
            Finishes s t rd (a * 2 ^ sh.toNat) (typeDigits ty el (da.toNat + sh.toNat)) ty.s ty.ovf 0) ∧
        (fits (a * 2 ^ sh.toNat) (typeDigits ty el (da.toNat + sh.toNat)) ty.s = false ∧ ty.ovf = .chk →
          ∃ t, exec (.pshl rd ra ty el da sh) s = .next t ∧ FailsWith s t .overflow)) ∧
    ((Instr.pshr rd ra ty el da sh).wellFormed s.params = true →
        (fits (roundShift a sh.toNat tag) (typeDigits ty el da.toNat) ty.s = true ∨ ty.ovf ≠ .chk →
          ∃ t, exec (.pshr rd ra ty el da sh) s = .next t ∧
            Finishes s t rd (roundShift a sh.toNat tag) (typeDigits ty el da.toNat) ty.s ty.ovf 0) ∧
        (fits (roundShift a sh.toNat tag) (typeDigits ty el da.toNat) ty.s = false ∧ ty.ovf = .chk →
          ∃ t, exec (.pshr rd ra ty el da sh) s = .next t ∧ FailsWith s t .overflow))

/-- Where the operands fit their declared digit counts, elastic PADD, PMUL, PSHL, PSHR and signed PSUB write the true
result whatever `OVF` is (42_policy.md section 4), and so do elastic FADD, FMUL and signed FSUB, on the raw values at
the common exponent (42_policy.md section 6, 43_scaled.md section 2). The other elastic forms: `ElasticExceptions`. -/
def Obligations.ElasticResultsFit : Prop :=
  ∀ (s : State) (rd ra rb : RegField) (ty : TypeFields) (da db sh ea eb : Field16) (tag : Rnd) (a b p q : Int), s.Inv →
    s.readable ra = true → s.readable rb = true → s.valOf ra ty.s = a → s.valOf rb ty.s = b →
    roundingTag ty.rnd = some tag → fits a da.toNat ty.s = true → fits b db.toNat ty.s = true →
    p = a * 2 ^ (ea.toInt - eb.toInt).toNat → q = b * 2 ^ (eb.toInt - ea.toInt).toNat →
    ((Instr.padd rd ra rb ty true da db).wellFormed s.params = true →
        ∃ t, exec (.padd rd ra rb ty true da db) s = .next t ∧
          WritesTyped s t rd (a + b) ty.s 0 (max da.toNat db.toNat + 1)) ∧
    ((Instr.psub rd ra rb ty true da db).wellFormed s.params = true → ty.s = true →
        ∃ t, exec (.psub rd ra rb ty true da db) s = .next t ∧
          WritesTyped s t rd (a - b) ty.s 0 (max da.toNat db.toNat + 1)) ∧
    ((Instr.pmul rd ra rb ty true da db).wellFormed s.params = true →
        ∃ t, exec (.pmul rd ra rb ty true da db) s = .next t ∧
          WritesTyped s t rd (a * b) ty.s 0 (da.toNat + db.toNat)) ∧
    ((Instr.pshl rd ra ty true da sh).wellFormed s.params = true →
        ∃ t, exec (.pshl rd ra ty true da sh) s = .next t ∧
          WritesTyped s t rd (a * 2 ^ sh.toNat) ty.s 0 (da.toNat + sh.toNat)) ∧
    ((Instr.pshr rd ra ty true da sh).wellFormed s.params = true →
        ∃ t, exec (.pshr rd ra ty true da sh) s = .next t ∧
          WritesTyped s t rd (roundShift a sh.toNat tag) ty.s 0 da.toNat) ∧
    ((Instr.fadd rd ra rb ty true da db ea eb).wellFormed s.params = true →
        ∃ t, exec (.fadd rd ra rb ty true da db ea eb) s = .next t ∧
          WritesTyped s t rd (p + q) ty.s (min ea.toInt eb.toInt) (WellFormed.scaledSumDigits da db ea eb)) ∧
    ((Instr.fsub rd ra rb ty true da db ea eb).wellFormed s.params = true → ty.s = true →
        ∃ t, exec (.fsub rd ra rb ty true da db ea eb) s = .next t ∧
          WritesTyped s t rd (p - q) ty.s (min ea.toInt eb.toInt) (WellFormed.scaledSumDigits da db ea eb)) ∧
    ((Instr.fmul rd ra rb ty true da db ea eb).wellFormed s.params = true →
        ∃ t, exec (.fmul rd ra rb ty true da db ea eb) s = .next t ∧
          WritesTyped s t rd (a * b) ty.s (ea.toInt + eb.toInt) (da.toNat + db.toNat))

/-- The two elastic cases in which operands that fit their declared digit counts can still overflow (42_policy.md
section 6). An unsigned PSUB or FSUB fits exactly where the minuend is not below the subtrahend; elsewhere `OVF` is
applied against the deduced unsigned type. A PDIV or FDIV by a nonzero divisor fits, but for a signed dividend
`-2^(DA-1)` whose quotient comes to `2^(D-1)`, `D` the deduced count: there `OVF` is applied against `D` signed
digits; a divisor -1 reaches it under every rounding tag. For PDIV `D` is `DA`, as the rule writes it; for FDIV the
dividend is shifted up by `k = EA - EB - ED` where that is positive and `D` grows by as much, so that the case is
stated at `D` (an inference from the rule, DEDUCED). -/
def Obligations.ElasticExceptions : Prop :=
  ∀ (s : State) (rd ra rb : RegField) (ty : TypeFields) (da db ea eb ed : Field16) (tag : Rnd) (a b p q k x : Int)
    (d : Nat), s.Inv →
    s.readable ra = true → s.readable rb = true → s.valOf ra ty.s = a → s.valOf rb ty.s = b →
    roundingTag ty.rnd = some tag → fits a da.toNat ty.s = true → fits b db.toNat ty.s = true →
    ((Instr.psub rd ra rb ty true da db).wellFormed s.params = true → ty.s = false →
        d = max da.toNat db.toNat + 1 →
        ∃ t, exec (.psub rd ra rb ty true da db) s = .next t ∧
          if b ≤ a then WritesTyped s t rd (a - b) false 0 d
          else OverflowsTo s t rd (a - b + 2 ^ d) 0 d false ty.ovf 0) ∧
    ((Instr.fsub rd ra rb ty true da db ea eb).wellFormed s.params = true → ty.s = false →
        p = a * 2 ^ (ea.toInt - eb.toInt).toNat → q = b * 2 ^ (eb.toInt - ea.toInt).toNat →
        d = WellFormed.scaledSumDigits da db ea eb →
        ∃ t, exec (.fsub rd ra rb ty true da db ea eb) s = .next t ∧
          if q ≤ p then WritesTyped s t rd (p - q) false (min ea.toInt eb.toInt) d
          else OverflowsTo s t rd (p - q + 2 ^ d) 0 d false ty.ovf (min ea.toInt eb.toInt)) ∧
    ((Instr.pdiv rd ra rb ty true da db).wellFormed s.params = true → b ≠ 0 →
        x = roundRatio a b tag → d = da.toNat →
        (ty.s = true → a = -2 ^ (da.toNat - 1) → b = -1 → x = 2 ^ (d - 1)) ∧
        ∃ t, exec (.pdiv rd ra rb ty true da db) s = .next t ∧
          if ty.s = true ∧ a = -2 ^ (da.toNat - 1) ∧ x = 2 ^ (d - 1) then
            OverflowsTo s t rd (-2 ^ (d - 1)) (2 ^ (d - 1) - 1) d true ty.ovf 0
          else WritesTyped s t rd x ty.s 0 d) ∧
    ((Instr.fdiv rd ra rb ty true da db ea eb ed).wellFormed s.params = true → b ≠ 0 →
        k = ea.toInt - eb.toInt - ed.toInt → x = roundRatio (a * 2 ^ k.toNat) (b * 2 ^ (-k).toNat) tag →
        d = da.toNat + k.toNat →
        (ty.s = true → a = -2 ^ (da.toNat - 1) → b = -1 → 0 ≤ k → x = 2 ^ (d - 1)) ∧
        ∃ t, exec (.fdiv rd ra rb ty true da db ea eb ed) s = .next t ∧
          if ty.s = true ∧ a = -2 ^ (da.toNat - 1) ∧ x = 2 ^ (d - 1) then
            OverflowsTo s t rd (-2 ^ (d - 1)) (2 ^ (d - 1) - 1) d true ty.ovf ed.toInt
          else WritesTyped s t rd x ty.s ed.toInt d)

/-- Every P and F command that succeeds, and every WEXT, WLIM and LDI, writes its destination in canonical form for its
destination type (10_state.md section 1): read under `S` it is a value of `D` digits. Under UND the rule makes no
promise where the result does not fit, so there the statement asks that no unspecified pattern was drawn (log 6). -/
def Obligations.DestinationsAreCanonical : Prop :=
  (∀ (i : Instr) (s t : State) (rd : RegField) (ty : TypeFields) (sg : Bool) (er : Int) (d : Nat) (data : Data64),
      s.Inv → exec i s = .next t → Succeeds s t data → destOf i = some rd → typeOf i = some ty →
      (ty.ovf = .und → t.draws = s.draws) → resultTypeOf i = some (sg, er, d) → fits (t.valOf rd sg) d sg = true) ∧
    (∀ (s t : State) (rd ra : RegField) (sg : Bool) (d : Field16) (data : Data64),
      s.Inv → exec (.wext rd ra sg d) s = .next t → Succeeds s t data → fits (t.valOf rd sg) d.toNat sg = true) ∧
    (∀ (s t : State) (rd : RegField) (sg : Bool) (d kind : Field16) (data : Data64),
      s.Inv → exec (.wlim rd sg d kind) s = .next t → Succeeds s t data → fits (t.valOf rd sg) d.toNat sg = true) ∧
    ∀ (s t : State) (rd : RegField) (sg : Bool) (ds : Field16) (dat data : Data64),
      s.Inv → exec (.ldi rd sg ds dat) s = .next t → Succeeds s t data →
        fits (t.valOf rd sg) (min ds.toNat s.params.nw) sg = true

/-- With `OVF = WRAP` and `DD = NW`, PADD writes what WADD writes, and PSHR under NAT writes what WSHR writes
(42_policy.md section 5). -/
def Obligations.PolicyCommandsAtFullWidth : Prop :=
  ∀ (s : State) (rd ra rb : RegField) (ty : TypeFields) (sh : Field16), s.Inv →
    ty.ovf = .wrap → ty.dd.toNat = s.params.nw → ty.rnd.toNat ≤ 4 →
    rd.toNat < s.params.nreg → ra.toNat < s.params.nreg → rb.toNat < s.params.nreg →
    s.readable ra = true → s.readable rb = true →
    (∃ t u, exec (.padd rd ra rb ty false 0 0) s = .next t ∧ exec (.wadd rd ra rb ty.s) s = .next u ∧
        t.regs = u.regs) ∧
      (ty.rnd = 4 → ∃ t u, exec (.pshr rd ra ty false 0 sh) s = .next t ∧ exec (.wshr rd ra ty.s sh) s = .next u ∧
        t.regs = u.regs)

/-! ### Format F -/

/-- FADD and FSUB bring both raw values to the smaller exponent, exactly, and range-check the true sum or difference;
RTYPE.EXP is `min(EA, EB)` (43_scaled.md section 3). -/
def Obligations.ScaledSumsComplete : Prop :=
  ∀ (s : State) (rd ra rb : RegField) (ty : TypeFields) (el : Bool) (da db ea eb : Field16) (a b : Int), s.Inv →
    s.readable ra = true → s.readable rb = true →
    a = s.valOf ra ty.s * 2 ^ (ea.toInt - eb.toInt).toNat → b = s.valOf rb ty.s * 2 ^ (eb.toInt - ea.toInt).toNat →
    ((Instr.fadd rd ra rb ty el da db ea eb).wellFormed s.params = true →
        (fits (a + b) (typeDigits ty el (WellFormed.scaledSumDigits da db ea eb)) ty.s = true ∨ ty.ovf ≠ .chk →
          ∃ t, exec (.fadd rd ra rb ty el da db ea eb) s = .next t ∧
            Finishes s t rd (a + b) (typeDigits ty el (WellFormed.scaledSumDigits da db ea eb)) ty.s ty.ovf
              (min ea.toInt eb.toInt)) ∧
        (fits (a + b) (typeDigits ty el (WellFormed.scaledSumDigits da db ea eb)) ty.s = false ∧ ty.ovf = .chk →
          ∃ t, exec (.fadd rd ra rb ty el da db ea eb) s = .next t ∧ FailsWith s t .overflow)) ∧
    ((Instr.fsub rd ra rb ty el da db ea eb).wellFormed s.params = true →
        (fits (a - b) (typeDigits ty el (WellFormed.scaledSumDigits da db ea eb)) ty.s = true ∨ ty.ovf ≠ .chk →
          ∃ t, exec (.fsub rd ra rb ty el da db ea eb) s = .next t ∧
            Finishes s t rd (a - b) (typeDigits ty el (WellFormed.scaledSumDigits da db ea eb)) ty.s ty.ovf
              (min ea.toInt eb.toInt)) ∧
        (fits (a - b) (typeDigits ty el (WellFormed.scaledSumDigits da db ea eb)) ty.s = false ∧ ty.ovf = .chk →
          ∃ t, exec (.fsub rd ra rb ty el da db ea eb) s = .next t ∧ FailsWith s t .overflow))

/-- FMUL range-checks the product of the raw values; RTYPE.EXP is `EA + EB` (43_scaled.md section 3). -/
def Obligations.ScaledProductCompletes : Prop :=
  ∀ (s : State) (rd ra rb : RegField) (ty : TypeFields) (el : Bool) (da db ea eb : Field16) (x : Int), s.Inv →
    s.readable ra = true → s.readable rb = true → x = s.valOf ra ty.s * s.valOf rb ty.s →
    (Instr.fmul rd ra rb ty el da db ea eb).wellFormed s.params = true →
    (fits x (typeDigits ty el (da.toNat + db.toNat)) ty.s = true ∨ ty.ovf ≠ .chk →
        ∃ t, exec (.fmul rd ra rb ty el da db ea eb) s = .next t ∧
          Finishes s t rd x (typeDigits ty el (da.toNat + db.toNat)) ty.s ty.ovf (ea.toInt + eb.toInt)) ∧
      (fits x (typeDigits ty el (da.toNat + db.toNat)) ty.s = false ∧ ty.ovf = .chk →
        ∃ t, exec (.fmul rd ra rb ty el da db ea eb) s = .next t ∧ FailsWith s t .overflow)

/-- FDIV rounds the exact rational `(a / b) * 2^k`, `k = EA - EB - ED`, once; the statement writes it as a ratio of
integers. RTYPE.EXP is `ED`; a zero divisor raises DivideByZero whatever `OVF` (43_scaled.md section 3). -/
def Obligations.ScaledDivisionCompletes : Prop :=
  ∀ (s : State) (rd ra rb : RegField) (ty : TypeFields) (el : Bool) (da db ea eb ed : Field16) (tag : Rnd)
    (k x : Int) (d : Nat), s.Inv →
    (Instr.fdiv rd ra rb ty el da db ea eb ed).wellFormed s.params = true →
    s.readable ra = true → s.readable rb = true → roundingTag ty.rnd = some tag →
    k = ea.toInt - eb.toInt - ed.toInt → d = typeDigits ty el (da.toNat + k.toNat) →
    x = roundRatio (s.valOf ra ty.s * 2 ^ k.toNat) (s.valOf rb ty.s * 2 ^ (-k).toNat) tag →
    (s.valOf rb ty.s ≠ 0 → fits x d ty.s = true ∨ ty.ovf ≠ .chk →
        ∃ t, exec (.fdiv rd ra rb ty el da db ea eb ed) s = .next t ∧ Finishes s t rd x d ty.s ty.ovf ed.toInt) ∧
      (s.valOf rb ty.s ≠ 0 → fits x d ty.s = false → ty.ovf = .chk →
        ∃ t, exec (.fdiv rd ra rb ty el da db ea eb ed) s = .next t ∧ FailsWith s t .overflow) ∧
      (s.valOf rb ty.s = 0 →
        ∃ t, exec (.fdiv rd ra rb ty el da db ea eb ed) s = .next t ∧ FailsWith s t .divideByZero)

/-- FCVT reads the source under `SS`, rescales it from `EA` to `ED` (exactly, or rounded by the command's tag where
`ED` is coarser), and range-checks it against (`DD`, `S`); RTYPE.EXP is `ED` (43_scaled.md section 3). -/
def Obligations.ConversionCompletes : Prop :=
  ∀ (s : State) (rd ra : RegField) (ty : TypeFields) (ss : Bool) (ea ed : Field16) (tag : Rnd) (x : Int), s.Inv →
    (Instr.fcvt rd ra ty ss ea ed).wellFormed s.params = true → s.readable ra = true →
    roundingTag ty.rnd = some tag →
    (x = if ed.toInt ≤ ea.toInt then s.valOf ra ss * 2 ^ (ea.toInt - ed.toInt).toNat
      else roundShift (s.valOf ra ss) (ed.toInt - ea.toInt).toNat tag) →
    (fits x ty.dd.toNat ty.s = true ∨ ty.ovf ≠ .chk →
        ∃ t, exec (.fcvt rd ra ty ss ea ed) s = .next t ∧ Finishes s t rd x ty.dd.toNat ty.s ty.ovf ed.toInt) ∧
      (fits x ty.dd.toNat ty.s = false ∧ ty.ovf = .chk →
        ∃ t, exec (.fcvt rd ra ty ss ea ed) s = .next t ∧ FailsWith s t .overflow)

/-- FQNT rounds the exact rational `(p / q) / 2^ED` once; the statement writes it as a ratio of integers. RTYPE.EXP is
`ED`; `q = 0` raises DivideByZero (43_scaled.md section 3). -/
def Obligations.QuantizationCompletes : Prop :=
  ∀ (s : State) (rd ra rb : RegField) (ty : TypeFields) (ed : Field16) (tag : Rnd) (x : Int), s.Inv →
    (Instr.fqnt rd ra rb ty ed).wellFormed s.params = true → s.readable ra = true → s.readable rb = true →
    roundingTag ty.rnd = some tag →
    x = roundRatio (s.valOf ra ty.s * 2 ^ (-ed.toInt).toNat) (s.valOf rb ty.s * 2 ^ ed.toInt.toNat) tag →
    (s.valOf rb ty.s ≠ 0 → fits x ty.dd.toNat ty.s = true ∨ ty.ovf ≠ .chk →
        ∃ t, exec (.fqnt rd ra rb ty ed) s = .next t ∧ Finishes s t rd x ty.dd.toNat ty.s ty.ovf ed.toInt) ∧
      (s.valOf rb ty.s ≠ 0 → fits x ty.dd.toNat ty.s = false → ty.ovf = .chk →
        ∃ t, exec (.fqnt rd ra rb ty ed) s = .next t ∧ FailsWith s t .overflow) ∧
      (s.valOf rb ty.s = 0 →
        ∃ t, exec (.fqnt rd ra rb ty ed) s = .next t ∧ FailsWith s t .divideByZero)

/-- The F commands beside the P commands (43_scaled.md section 3): FMUL writes what PMUL writes; FADD at equal
exponents, and FDIV at three zero exponents, write what PADD and PDIV write; FQNT is FDIV with `EA = EB = 0`. The
premise on `draws` says that no unspecified pattern was drawn: of two of those nothing is claimed. -/
def Obligations.ScaledCommandsBesidePolicyCommands : Prop :=
  ∀ (s t u : State) (rd ra rb : RegField) (ty : TypeFields) (el : Bool) (da db ea eb ed : Field16), s.Inv →
    t.draws = s.draws →
    (exec (.fmul rd ra rb ty el da db ea eb) s = .next t → exec (.pmul rd ra rb ty el da db) s = .next u →
        t.regs = u.regs ∧ t.status = u.status ∧ t.out = u.out) ∧
      (exec (.fadd rd ra rb ty el da db ea ea) s = .next t → exec (.padd rd ra rb ty el da db) s = .next u →
        t.regs = u.regs ∧ t.status = u.status ∧ t.out = u.out) ∧
      (exec (.fdiv rd ra rb ty el da db 0 0 0) s = .next t → exec (.pdiv rd ra rb ty el da db) s = .next u →
        t = u) ∧
      (exec (.fqnt rd ra rb ty ed) s = .next t → exec (.fdiv rd ra rb ty false 0 0 0 0 ed) s = .next u → t = u)

/-- FCVT with `EA = ED`, `SS = S` and `DD = NW` copies the register under every pair of tags (43_scaled.md section
3). -/
def Obligations.ConversionCopies : Prop :=
  ∀ (s : State) (rd ra : RegField) (ty : TypeFields) (e : Field16), s.Inv →
    ty.dd.toNat = s.params.nw → ty.rnd.toNat ≤ 4 → rd.toNat < s.params.nreg → ra.toNat < s.params.nreg →
    s.readable ra = true → ∃ t, exec (.fcvt rd ra ty ty.s e e) s = .next t ∧ t.reg rd = s.reg ra

/-- What the real value of a scaled sum is (43_scaled.md section 3): where FADD's result fits, it is exactly
`real(a, EA) + real(b, EB)` at the exponent RTYPE.EXP reports. -/
def Obligations.ScaledSumIsExact : Prop :=
  ∀ (s t : State) (rd ra rb : RegField) (ty : TypeFields) (el : Bool) (da db ea eb : Field16), s.Inv →
    s.readable ra = true → s.readable rb = true →
    (Instr.fadd rd ra rb ty el da db ea eb).wellFormed s.params = true →
    fits (s.valOf ra ty.s * 2 ^ (ea.toInt - eb.toInt).toNat + s.valOf rb ty.s * 2 ^ (eb.toInt - ea.toInt).toNat)
      (typeDigits ty el (WellFormed.scaledSumDigits da db ea eb)) ty.s = true →
    exec (.fadd rd ra rb ty el da db ea eb) s = .next t →
    (t.valOf rd ty.s : ℚ) * 2 ^ rtypeExp t.rtype =
      (s.valOf ra ty.s : ℚ) * 2 ^ ea.toInt + (s.valOf rb ty.s : ℚ) * 2 ^ eb.toInt
end

