-- ==== Sys2Proof/Laws/State.lean ====
section
/-! SUPPORT. One lemma per field per update of the state, true by `rfl`, and the reading of a register after a
write, so that no later proof unfolds a record update. -/

namespace Sys2Proof.Machine

variable (s : State) (r q : RegField) (x : Int) (k : Nat) (v : Word)

@[simp] theorem setReg_params : (s.setReg r x).params = s.params := rfl
@[simp] theorem setReg_flags : (s.setReg r x).flags = s.flags := rfl
@[simp] theorem setReg_status : (s.setReg r x).status = s.status := rfl
@[simp] theorem setReg_rtype : (s.setReg r x).rtype = s.rtype := rfl
@[simp] theorem setReg_input : (s.setReg r x).input = s.input := rfl
@[simp] theorem setReg_out : (s.setReg r x).out = s.out := rfl
@[simp] theorem setReg_draws : (s.setReg r x).draws = s.draws := rfl

@[simp] theorem setWord_params : (s.setWord r k v).params = s.params := rfl
@[simp] theorem setWord_flags : (s.setWord r k v).flags = s.flags := rfl
@[simp] theorem setWord_status : (s.setWord r k v).status = s.status := rfl
@[simp] theorem setWord_rtype : (s.setWord r k v).rtype = s.rtype := rfl
@[simp] theorem setWord_input : (s.setWord r k v).input = s.input := rfl
@[simp] theorem setWord_out : (s.setWord r k v).out = s.out := rfl
@[simp] theorem setWord_draws : (s.setWord r k v).draws = s.draws := rfl

@[simp] theorem setAny_params : (s.setAny r).params = s.params := rfl
@[simp] theorem setAny_regs : (s.setAny r).regs = (s.setReg r (Config.anyWords s.draws)).regs := rfl
@[simp] theorem setAny_flags : (s.setAny r).flags = s.flags := rfl
@[simp] theorem setAny_status : (s.setAny r).status = s.status := rfl
@[simp] theorem setAny_rtype : (s.setAny r).rtype = s.rtype := rfl
@[simp] theorem setAny_input : (s.setAny r).input = s.input := rfl
@[simp] theorem setAny_out : (s.setAny r).out = s.out := rfl
@[simp] theorem setAny_draws : (s.setAny r).draws = s.draws + 1 := rfl

@[simp] theorem setFlags_params (f : BitVec 3) : (s.setFlags f).params = s.params := rfl
@[simp] theorem setFlags_regs (f : BitVec 3) : (s.setFlags f).regs = s.regs := rfl
@[simp] theorem setFlags_flags (f : BitVec 3) : (s.setFlags f).flags = f := rfl
@[simp] theorem setFlags_status (f : BitVec 3) : (s.setFlags f).status = s.status := rfl
@[simp] theorem setFlags_rtype (f : BitVec 3) : (s.setFlags f).rtype = s.rtype := rfl
@[simp] theorem setFlags_input (f : BitVec 3) : (s.setFlags f).input = s.input := rfl
@[simp] theorem setFlags_out (f : BitVec 3) : (s.setFlags f).out = s.out := rfl
@[simp] theorem setFlags_draws (f : BitVec 3) : (s.setFlags f).draws = s.draws := rfl

@[simp] theorem setRtype_params (sg : Bool) (er : Int) (d : Nat) : (s.setRtype sg er d).params = s.params := rfl
@[simp] theorem setRtype_regs (sg : Bool) (er : Int) (d : Nat) : (s.setRtype sg er d).regs = s.regs := rfl
@[simp] theorem setRtype_flags (sg : Bool) (er : Int) (d : Nat) : (s.setRtype sg er d).flags = s.flags := rfl
@[simp] theorem setRtype_status (sg : Bool) (er : Int) (d : Nat) : (s.setRtype sg er d).status = s.status := rfl
@[simp] theorem setRtype_rtype (sg : Bool) (er : Int) (d : Nat) : (s.setRtype sg er d).rtype = rtypeOf sg er d := rfl
@[simp] theorem setRtype_input (sg : Bool) (er : Int) (d : Nat) : (s.setRtype sg er d).input = s.input := rfl
@[simp] theorem setRtype_out (sg : Bool) (er : Int) (d : Nat) : (s.setRtype sg er d).out = s.out := rfl
@[simp] theorem setRtype_draws (sg : Bool) (er : Int) (d : Nat) : (s.setRtype sg er d).draws = s.draws := rfl

@[simp] theorem respond_params (d : Data64) : (s.respond d).params = s.params := rfl
@[simp] theorem respond_regs (d : Data64) : (s.respond d).regs = s.regs := rfl
@[simp] theorem respond_flags (d : Data64) : (s.respond d).flags = s.flags := rfl
@[simp] theorem respond_status (d : Data64) : (s.respond d).status = s.status := rfl
@[simp] theorem respond_rtype (d : Data64) : (s.respond d).rtype = s.rtype := rfl
@[simp] theorem respond_input (d : Data64) : (s.respond d).input = s.input := rfl
@[simp] theorem respond_out (d : Data64) : (s.respond d).out = s.out ++ [⟨0, d⟩] := rfl
@[simp] theorem respond_draws (d : Data64) : (s.respond d).draws = s.draws := rfl

@[simp] theorem raise_params (f : Failure) : (s.raise f).params = s.params := rfl
@[simp] theorem raise_regs (f : Failure) : (s.raise f).regs = s.regs := rfl
@[simp] theorem raise_flags (f : Failure) : (s.raise f).flags = s.flags := rfl
@[simp] theorem raise_status (f : Failure) : (s.raise f).status = recordFailure s.status f := rfl
@[simp] theorem raise_rtype (f : Failure) : (s.raise f).rtype = s.rtype := rfl
@[simp] theorem raise_input (f : Failure) : (s.raise f).input = s.input := rfl
@[simp] theorem raise_out (f : Failure) :
    (s.raise f).out = s.out ++ [⟨BitVec.ofNat 8 (failureCode f), 0⟩] := rfl
@[simp] theorem raise_draws (f : Failure) : (s.raise f).draws = s.draws := rfl

@[simp] theorem resetBlock_params : s.resetBlock.params = s.params := rfl
@[simp] theorem resetBlock_regs : s.resetBlock.regs = (State.resetOf s.params).regs := rfl
@[simp] theorem resetBlock_flags : s.resetBlock.flags = 0 := rfl
@[simp] theorem resetBlock_status : s.resetBlock.status = 0 := rfl
@[simp] theorem resetBlock_rtype : s.resetBlock.rtype = 0 := rfl
@[simp] theorem resetBlock_input : s.resetBlock.input = s.input := rfl
@[simp] theorem resetBlock_out : s.resetBlock.out = s.out := rfl
@[simp] theorem resetBlock_draws : s.resetBlock.draws = s.draws := rfl

/-! ### Registers -/

@[simp] theorem respond_reg (d : Data64) : (s.respond d).reg r = s.reg r := rfl
@[simp] theorem raise_reg (f : Failure) : (s.raise f).reg r = s.reg r := rfl
@[simp] theorem setFlags_reg (f : BitVec 3) : (s.setFlags f).reg r = s.reg r := rfl
@[simp] theorem setRtype_reg (sg : Bool) (er : Int) (d : Nat) : (s.setRtype sg er d).reg r = s.reg r := rfl
@[simp] theorem setAny_reg : (s.setAny r).reg q = (s.setReg r (Config.anyWords s.draws)).reg q := rfl

variable {s r q}

/-- A register written reads as the valid words of the value. -/
theorem setReg_reg_same (h : r.toNat < s.regs.length) :
    (s.setReg r x).reg r = (words s.params x).map fun v => ⟨v, true⟩ := by
  simp [State.reg, State.setReg, h]

/-- A write of one register leaves every other one. -/
theorem setReg_reg_other (h : q ≠ r) : (s.setReg r x).reg q = s.reg q := by
  have h' : r.toNat ≠ q.toNat := fun e => h (BitVec.eq_of_toNat_eq e.symm)
  simp [State.reg, State.setReg, List.getElem?_set_ne h']

/-- A word written stands in its register, the other words as before. -/
theorem setWord_reg_same (h : r.toNat < s.regs.length) :
    (s.setWord r k v).reg r = (s.reg r).set k ⟨v, true⟩ := by
  simp [State.reg, State.setWord, h]

/-- A write of one word leaves every other register. -/
theorem setWord_reg_other (h : q ≠ r) : (s.setWord r k v).reg q = s.reg q := by
  have h' : r.toNat ≠ q.toNat := fun e => h (BitVec.eq_of_toNat_eq e.symm)
  simp [State.reg, State.setWord, List.getElem?_set_ne h']

end Sys2Proof.Machine
end

