-- ==== Sys2Proof/Laws/Values.lean ====
section
/-! SUPPORT. The words of a value and the value of words (00_scope.md R11), and the range functions (R12). -/

namespace Sys2Proof.Machine

theorem pow2_pos (k : Nat) : 0 < pow2 k := by unfold pow2; positivity

theorem pow2_eq (k : Nat) : pow2 k = 2 ^ k := by simp [pow2]

@[simp] theorem words_length (p : Params) (x : Int) : (words p x).length = p.n := by simp [words]

theorem words_getElem (p : Params) (x : Int) {k : Nat} (h : k < p.n) :
    (words p x)[k]? = some (wordOf p x k) := by simp [words, h]

theorem wordOf_lt (p : Params) (x : Int) (k : Nat) : wordOf p x k < 2 ^ p.w :=
  Nat.mod_lt _ (Nat.two_pow_pos _)

theorem words_lt (p : Params) (x : Int) : ∀ v ∈ words p x, v < 2 ^ p.w := by
  intro v hv
  simp only [words, List.mem_map] at hv
  obtain ⟨k, -, rfl⟩ := hv
  exact wordOf_lt p x k

/-- The value of `m` consecutive words of `u` is `u` modulo the width they cover. -/
theorem uval_digits (w u m : Nat) :
    uval w ((List.range m).map fun k => u / 2 ^ (k * w) % 2 ^ w) = u % 2 ^ (m * w) := by
  induction m generalizing u with
  | zero => simp [uval, Nat.mod_one]
  | succ m ih =>
    have step : (List.range (m + 1)).map (fun k => u / 2 ^ (k * w) % 2 ^ w) =
        u % 2 ^ w :: (List.range m).map fun k => (u / 2 ^ w) / 2 ^ (k * w) % 2 ^ w := by
      rw [List.range_succ_eq_map, List.map_cons, List.map_map]
      congr 1
      · simp
      · apply List.map_congr_left
        intro k _
        simp only [Function.comp, Nat.succ_eq_add_one]
        rw [Nat.div_div_eq_div_mul, ← pow_add, Nat.add_mul, Nat.one_mul, Nat.add_comm w]
    rw [step, uval, ih, Nat.add_mul, Nat.one_mul, Nat.add_comm (m * w), pow_add, Nat.mod_mul]

/-- `uval(words(x)) = x mod 2^NW` (00_scope.md R11). -/
theorem uval_words (p : Params) (x : Int) : uval p.w (words p x) = (x % pow2 p.nw).toNat := by
  have h := uval_digits p.w (x % pow2 p.nw).toNat p.n
  rw [words, show wordOf p x = fun k => (x % pow2 p.nw).toNat / 2 ^ (k * p.w) % 2 ^ p.w from rfl, h]
  apply Nat.mod_eq_of_lt
  have h1 := Int.emod_lt_of_pos x (pow2_pos p.nw)
  have h2 := Int.emod_nonneg x (pow2_pos p.nw).ne'
  have h3 : pow2 p.nw = ((2 ^ (p.n * p.w) : Nat) : Int) := rfl
  omega

/-- The value of `m` words below `2^w` is below `2^(m*w)`. -/
theorem uval_lt (w : Nat) : ∀ ws : List Word, (∀ v ∈ ws, v < 2 ^ w) → uval w ws < 2 ^ (ws.length * w)
  | [], _ => by simp [uval]
  | x :: xs, h => by
    have hx : x < 2 ^ w := h x (by simp)
    have ih := uval_lt w xs fun v hv => h v (by simp [hv])
    rw [uval, List.length_cons, Nat.add_mul, Nat.one_mul, Nat.add_comm (_ * w), pow_add]
    have hm : 2 ^ w * (uval w xs + 1) ≤ 2 ^ w * 2 ^ (xs.length * w) := Nat.mul_le_mul_left _ ih
    rw [Nat.mul_add, Nat.mul_one] at hm
    exact Nat.lt_of_lt_of_le (by rw [Nat.add_comm]; exact Nat.add_lt_add_left hx _) hm

/-- Words below `2^w` with the same value are the same words. -/
theorem uval_inj (w : Nat) : ∀ xs ys : List Word, xs.length = ys.length → (∀ v ∈ xs, v < 2 ^ w) →
    (∀ v ∈ ys, v < 2 ^ w) → uval w xs = uval w ys → xs = ys
  | [], [], _, _, _, _ => rfl
  | [], _ :: _, hl, _, _, _ => by simp at hl
  | _ :: _, [], hl, _, _, _ => by simp at hl
  | x :: xs, y :: ys, hl, hx, hy, h => by
    have hx0 : x < 2 ^ w := hx x (by simp)
    have hy0 : y < 2 ^ w := hy y (by simp)
    simp only [uval] at h
    have h1 : x = y := by
      have := congrArg (· % 2 ^ w) h
      simpa [Nat.add_mul_mod_self_left, Nat.mod_eq_of_lt hx0, Nat.mod_eq_of_lt hy0] using this
    subst h1
    have h2 : uval w xs = uval w ys :=
      Nat.eq_of_mul_eq_mul_left (Nat.two_pow_pos w) (Nat.add_left_cancel h)
    rw [uval_inj w xs ys (by simpa using hl) (fun v hv => hx v (by simp [hv])) (fun v hv => hy v (by simp [hv])) h2]

/-- The words of a register's own value are the register's words (20_memory.md R53). -/
theorem words_uval (p : Params) (ws : List Word) (hl : ws.length = p.n) (h : ∀ v ∈ ws, v < 2 ^ p.w) :
    words p (uval p.w ws) = ws := by
  apply uval_inj p.w _ _ (by simp [hl]) (words_lt p _) h
  have hlt := uval_lt p.w ws h
  rw [hl] at hlt
  rw [uval_words]
  have h3 : pow2 p.nw = ((2 ^ (p.n * p.w) : Nat) : Int) := rfl
  rw [Int.emod_eq_of_lt (by omega) (by rw [h3]; exact_mod_cast hlt)]
  simp

/-- `words` depends on its argument modulo `2^NW` only. -/
theorem words_congr {p : Params} {x y : Int} (h : x % pow2 p.nw = y % pow2 p.nw) : words p x = words p y := by
  simp only [words, show wordOf p x = wordOf p y from by funext k; simp [wordOf, h]]

end Sys2Proof.Machine
end

