-- ==== Sys2Proof/Laws/Ops.lean ====
section
/-! SUPPORT. What each shared operation can do, said once: the checks, the reads, the writes, the failure step
and the end of a command. -/

namespace Sys2Proof.Machine

/-! ### Failures and checks -/

theorem ok_bind {α β : Type} (a : α) (k : α → Except Failure β) : (Except.ok a >>= k) = k a := rfl

theorem error_bind {α β : Type} (f : Failure) (k : α → Except Failure β) :
    ((Except.error f : Except Failure α) >>= k) = .error f := rfl

theorem run_ok (s t : State) (d : Data64) : s.run (.ok (t, d)) = .next (t.respond d) := rfl

theorem run_error (s : State) (f : Failure) : s.run (.error f) = .next (s.raise f) := rfl

/-- A check goes on, or ends the command with its failure. -/
theorem require_bind {β : Type} (c : Bool) (f : Failure) (k : Unit → Except Failure β) :
    (require c f >>= k) = if c then k () else .error f := by
  cases c <;> rfl

theorem checkRegs_bind {β : Type} (p : Params) (rs : List RegField) (k : Unit → Except Failure β) :
    (checkRegs p rs >>= k) = if rs.all (WellFormed.reg p) then k () else .error .illegalCommand :=
  require_bind _ _ k

theorem checkDigits_bind {β : Type} (p : Params) (d : Field16) (k : Unit → Except Failure β) :
    (checkDigits p d >>= k) = if WellFormed.digits p d then k () else .error .illegalCommand :=
  require_bind _ _ k

theorem checkDigits2_bind {β : Type} (p : Params) (ty : TypeFields) (el : Bool) (da db : Field16)
    (k : Unit → Except Failure β) :
    (checkDigits2 p el ty.dd da db >>= k) =
      if WellFormed.digits2 p ty el da db then k () else .error .illegalCommand := by
  have e : checkDigits2 p el ty.dd da db = require (WellFormed.digits2 p ty el da db) .illegalCommand := by
    cases el
    · exact congrArg (require · _) (by rw [Bool.and_comm, ← Bool.and_assoc]; rfl)
    · rfl
  rw [e, require_bind]

theorem checkDigits1_bind {β : Type} (p : Params) (ty : TypeFields) (el : Bool) (da : Field16)
    (k : Unit → Except Failure β) :
    (checkDigits1 p el ty.dd da >>= k) =
      if WellFormed.digits1 p ty el da then k () else .error .illegalCommand := by
  have e : checkDigits1 p el ty.dd da = require (WellFormed.digits1 p ty el da) .illegalCommand := by
    cases el
    · exact congrArg (require · _) (by rw [Bool.and_comm]; rfl)
    · rfl
  rw [e, require_bind]

/-- The tag of a legal rounding field. -/
def tagOf (ty : TypeFields) : Rnd := (roundingTag ty.rnd).getD .te

theorem roundingTag_isSome (c : BitVec 3) : (roundingTag c).isSome = decide (c.toNat ≤ 4) := by
  revert c; decide

theorem checkRnd_bind {β : Type} (ty : TypeFields) (k : Rnd → Except Failure β) :
    (checkRnd ty.rnd >>= k) = if WellFormed.rounding ty then k (tagOf ty) else .error .illegalCommand := by
  have h := roundingTag_isSome ty.rnd
  rw [WellFormed.rounding, ← h, checkRnd, tagOf]
  cases roundingTag ty.rnd <;> rfl

/-- The destination digit count, or CapacityExceeded. -/
theorem destDigits_bind {β : Type} (p : Params) (el : Bool) (ty : TypeFields) (deduced : Nat)
    (k : Nat → Except Failure β) :
    (destDigits p el ty.dd deduced >>= k) =
      if !el || decide (deduced ≤ p.nw) then k (typeDigits ty el deduced) else .error .capacityExceeded := by
  cases el
  · rfl
  · by_cases h : deduced ≤ p.nw <;> simp [destDigits, h, ok_bind, error_bind, typeDigits]

theorem source_bind {β : Type} (s : State) (r : RegField) (sg : Bool) (k : Int → Except Failure β) :
    (s.source r sg >>= k) = if s.readable r then k (s.valOf r sg) else .error .uninitRead := by
  unfold State.source
  split <;> rfl

/-! ### Fields -/

theorem sextField_eq (f : Field16) : sextField f = f.toInt := by
  have := f.isLt
  rw [sextField, BitVec.toInt]
  split <;> split <;> omega

/-! ### Reads -/

theorem readable_iff (s : State) (r : RegField) :
    s.readable r = true ↔ (s.reg r).length = s.params.n ∧ ∀ c ∈ s.reg r, c.ok = true := by
  simp [State.readable, VReg.whole]

/-- A register of a well-shaped state has `N` words, each in range. -/
theorem State.RegsShaped.reg {s : State} (h : s.RegsShaped) {r : RegField} (hr : r.toNat < s.params.nreg) :
    (s.reg r).length = s.params.n ∧ ∀ c ∈ s.reg r, c.val < 2 ^ s.params.w := by
  have hl : r.toNat < s.regs.length := by rw [h.1]; exact hr
  have hm : s.reg r ∈ s.regs := by
    simp only [State.reg, List.getD_eq_getElem?_getD, List.getElem?_eq_getElem hl, Option.getD_some]
    exact List.getElem_mem hl
  exact h.2 _ hm

/-- A field below `NREG` names a register of a well-shaped state. -/
theorem State.RegsShaped.index {s : State} (h : s.RegsShaped) {r : RegField}
    (hr : WellFormed.reg s.params r = true) : r.toNat < s.regs.length := by
  rw [h.1]
  simpa [WellFormed.reg] using hr

/-! ### Writes -/

theorem setReg_holds {s : State} {r : RegField} (x : Int) (h : r.toNat < s.regs.length) :
    (s.setReg r x).Holds r x := by
  constructor
  · rw [setReg_reg_same x h]; simp
  · intro k hk
    rw [setReg_params] at hk
    rw [setReg_reg_same x h, setReg_params, List.getElem?_map, words_getElem _ _ hk]
    rfl

theorem setReg_shaped {s : State} {r : RegField} {x : Int} (h : s.RegsShaped) : (s.setReg r x).RegsShaped := by
  refine ⟨by simpa [State.setReg] using h.1, fun v hv => ?_⟩
  rcases List.mem_or_eq_of_mem_set hv with hv | rfl
  · exact h.2 v hv
  · refine ⟨by simp, fun c hc => ?_⟩
    simp only [List.mem_map] at hc
    obtain ⟨u, hu, rfl⟩ := hc
    exact words_lt _ _ u hu

theorem setWord_shaped {s : State} {r : RegField} {k : Nat} {v : Word} (h : s.RegsShaped)
    (hr : r.toNat < s.params.nreg) (hv : v < 2 ^ s.params.w) : (s.setWord r k v).RegsShaped := by
  refine ⟨by simpa [State.setWord] using h.1, fun u hu => ?_⟩
  rcases List.mem_or_eq_of_mem_set hu with hu | rfl
  · exact h.2 u hu
  · have hs := h.reg hr
    refine ⟨by simpa using hs.1, fun c hc => ?_⟩
    rcases List.mem_or_eq_of_mem_set hc with hc | rfl
    · exact hs.2 c hc
    · exact hv

/-! ### The control registers -/

theorem rtypeDigits_rtypeOf (sg : Bool) (er : Int) (d : Nat) : rtypeDigits (rtypeOf sg er d) = d % 2 ^ 16 := by
  have h : (rtypeOf sg er d).extractLsb' 0 16 = BitVec.ofNat 16 d := BitVec.extractLsb'_append_eq_right
  rw [rtypeDigits, h, BitVec.toNat_ofNat]

theorem rtypeExp_rtypeOf (sg : Bool) (er : Int) (d : Nat) : rtypeExp (rtypeOf sg er d) = er.bmod (2 ^ 32) := by
  have h : (rtypeOf sg er d).extractLsb' 16 32 = BitVec.ofInt 32 er :=
    (BitVec.extractLsb'_append_eq_of_le (le_refl 16)).trans BitVec.extractLsb'_append_eq_right
  rw [rtypeExp, h, BitVec.toInt_ofInt]

theorem rtypeSgn_rtypeOf (sg : Bool) (er : Int) (d : Nat) : rtypeSgn (rtypeOf sg er d) = sg := by
  have h : (rtypeOf sg er d).getLsbD 48 = (BitVec.ofBool sg).getLsbD 0 :=
    (BitVec.getLsbD_append).trans (BitVec.getLsbD_append)
  rw [rtypeSgn, h]
  cases sg <;> rfl

theorem hasType_rtypeOf {t : State} {sg : Bool} {er : Int} {d : Nat} (h : t.rtype = rtypeOf sg er d)
    (hd : d < 2 ^ 16) (h1 : -65536 ≤ er) (h2 : er ≤ 65534) : HasType t sg er d := by
  refine ⟨?_, ?_, ?_⟩
  · rw [h, rtypeDigits_rtypeOf, Nat.mod_eq_of_lt hd]
  · rw [h, rtypeExp_rtypeOf]
    exact Int.bmod_eq_of_le (by omega) (by omega)
  · rw [h, rtypeSgn_rtypeOf]

theorem recordFailure_sticky (st : BitVec 16) (f : Failure) (k : Nat) (hk : k < 8) :
    (recordFailure st f).getLsbD k = (st.getLsbD k || decide (k = failureCode f - 1)) := by
  have h : (recordFailure st f).getLsbD k =
      (st.extractLsb' 0 8 ||| BitVec.ofNat 8 (2 ^ (failureCode f - 1))).getLsbD k :=
    BitVec.getLsbD_append.trans (if_pos hk)
  rw [h, BitVec.getLsbD_or, BitVec.getLsbD_extractLsb']
  cases f <;> interval_cases k <;> simp [failureCode]

theorem recordFailure_lastCause (st : BitVec 16) (f : Failure) :
    (lastCause (recordFailure st f)).toNat = failureCode f := by
  have h : lastCause (recordFailure st f) = BitVec.ofNat 8 (failureCode f) := BitVec.extractLsb'_append_eq_left
  rw [h]
  cases f <;> rfl

/-- The failure step does what 60_exceptions.md R236 says, and no more. -/
theorem raise_failsWith (s : State) (f : Failure) : FailsWith s (s.raise f) f where
  params := rfl
  regs := rfl
  flags := rfl
  rtype := rfl
  input := rfl
  draws := rfl
  sticky := fun k hk => recordFailure_sticky s.status f k hk
  lastCause := recordFailure_lastCause s.status f
  out := rfl

/-! ### The end of a P or F command -/

theorem finish_fits {s : State} {rd : RegField} {t : Int} {d : Nat} {sg : Bool} {ovf : Ovf} {er : Int}
    (h : fits t d sg = true) : s.finish rd t d sg ovf er = .ok ((s.setReg rd t).setRtype sg er d, 0) := by
  simp [State.finish, h]

/-- Under CHK a result that does not fit is the one Overflow there is. -/
theorem finish_error_iff {s : State} {rd : RegField} {t : Int} {d : Nat} {sg : Bool} {ovf : Ovf} {er : Int}
    {f : Failure} :
    s.finish rd t d sg ovf er = .error f ↔ fits t d sg = false ∧ ovf = .chk ∧ f = .overflow := by
  cases h : fits t d sg <;> cases ovf <;> simp [State.finish, h, eq_comm]

/-- Where the command does not fail, it writes `rd` and RTYPE and ends as `Finishes` says. -/
theorem finish_finishes {s : State} {rd : RegField} {x : Int} {d : Nat} {sg : Bool} {ovf : Ovf} {er : Int}
    (hr : rd.toNat < s.regs.length) (hd : d < 2 ^ 16) (h1 : -65536 ≤ er) (h2 : er ≤ 65534)
    (h : fits x d sg = true ∨ ovf ≠ .chk) :
    ∃ u, s.finish rd x d sg ovf er = .ok (u, 0) ∧ Finishes s (u.respond 0) rd x d sg ovf er := by
  have typed : ∀ y : Int, WritesTyped s (((s.setReg rd y).setRtype sg er d).respond 0) rd y sg er d := fun y =>
    { succeeds := ⟨rfl, rfl, rfl, rfl⟩
      holds := setReg_holds y hr
      others := fun q hq => setReg_reg_other y hq
      flags := rfl
      rtype := hasType_rtypeOf rfl hd h1 h2
      draws := rfl }
  have unspecified : WritesUnspecified s (((s.setAny rd).setRtype sg er d).respond 0) rd sg er d :=
    { succeeds := ⟨rfl, rfl, rfl, rfl⟩
      length := (setReg_holds (Config.anyWords s.draws) hr).1
      valid := by
        intro c hc
        rw [respond_reg, setRtype_reg, setAny_reg, setReg_reg_same _ hr, List.mem_map] at hc
        obtain ⟨u, hu, rfl⟩ := hc
        exact ⟨rfl, words_lt _ _ u hu⟩
      others := fun q hq => setReg_reg_other _ hq
      flags := rfl
      rtype := hasType_rtypeOf rfl hd h1 h2
      draws := rfl }
  cases hf : fits x d sg <;> cases ovf <;> simp only [State.finish, hf, Bool.false_eq_true, if_false, if_true] <;>
    first
    | exact ⟨_, rfl, by constructor <;> intros <;> first | exact typed _ | exact unspecified | simp_all⟩
    | simp_all

end Sys2Proof.Machine
end

