-- ==== Sys2Proof/Laws/Meanings.lean ====
section
/-! SUPPORT. Every meaning in one shape: legality, capacity, the reads, and then the command's own effect. -/

namespace Sys2Proof.Machine

/-- The registers and the word a command reads are valid, as one test. -/
def sourcesReadable (s : State) (i : Instr) : Bool :=
  (sourcesOf i).all s.readable && (wordSourceOf i).all fun q => ((s.reg q.1)[q.2]?).any VWord.ok

/-- What a command comes to once it is legal, fits the storage and its sources are valid. -/
def effectOf (s : State) : Instr → Attempt
  | .nop => .ok (s, 0)
  | .ldi rd sg ds data => .ok (s.setReg rd (ext (data.toNat % 2 ^ ds.toNat : Nat) ds.toNat sg), 0)
  | .ldw rd k data => .ok (s.setWord rd k.toNat data.toNat, 0)
  | .rdw ra k => .ok (s, BitVec.ofNat 64 (((s.reg ra)[k.toNat]?).elim 0 VWord.val))
  | .rdc csr => .ok (s, (s.csr csr.toNat).getD 0)
  | .wadd rd ra rb _ => .ok (s.setReg rd (s.valOf ra false + s.valOf rb false), 0)
  | .wsub rd ra rb _ => .ok (s.setReg rd (s.valOf ra false - s.valOf rb false), 0)
  | .wmul rd ra rb _ => .ok (s.setReg rd (s.valOf ra false * s.valOf rb false), 0)
  | .wdiv rd ra rb sg =>
      if s.valOf rb sg = 0 then .error .divideByZero else .ok (s.setReg rd (tdiv (s.valOf ra sg) (s.valOf rb sg)), 0)
  | .wmod rd ra rb sg =>
      if s.valOf rb sg = 0 then .error .divideByZero else .ok (s.setReg rd (trem (s.valOf ra sg) (s.valOf rb sg)), 0)
  | .wshl rd ra _ sh => .ok (s.setReg rd (s.valOf ra false * pow2 sh.toNat), 0)
  | .wshr rd ra sg sh => .ok (s.setReg rd (s.valOf ra sg / pow2 sh.toNat), 0)
  | .wcmp ra rb sg =>
      let f := compareFlags (s.valOf ra sg) (s.valOf rb sg)
      .ok (s.setFlags f, f.setWidth 64)
  | .wext rd ra sg d => .ok (s.setReg rd (ext (s.valOf ra false % pow2 d.toNat) d.toNat sg), 0)
  | .wlim rd sg d kind => .ok (s.setReg rd ((limitOf kind.toNat d.toNat sg).getD 0), 0)
  | .padd rd ra rb ty el da db =>
      s.finish rd (s.valOf ra ty.s + s.valOf rb ty.s) (typeDigits ty el (sumDigits da db)) ty.s ty.ovf 0
  | .psub rd ra rb ty el da db =>
      s.finish rd (s.valOf ra ty.s - s.valOf rb ty.s) (typeDigits ty el (sumDigits da db)) ty.s ty.ovf 0
  | .pmul rd ra rb ty el da db =>
      s.finish rd (s.valOf ra ty.s * s.valOf rb ty.s) (typeDigits ty el (productDigits da db)) ty.s ty.ovf 0
  | .pdiv rd ra rb ty el da _ =>
      if s.valOf rb ty.s = 0 then .error .divideByZero
      else s.finish rd (roundRatio (s.valOf ra ty.s) (s.valOf rb ty.s) (tagOf ty))
        (typeDigits ty el (sameDigits da)) ty.s ty.ovf 0
  | .pshl rd ra ty el da sh =>
      s.finish rd (s.valOf ra ty.s * pow2 sh.toNat) (typeDigits ty el (shiftedDigits da sh)) ty.s ty.ovf 0
  | .pshr rd ra ty el da sh =>
      s.finish rd (roundShift (s.valOf ra ty.s) sh.toNat (tagOf ty)) (typeDigits ty el (sameDigits da)) ty.s ty.ovf 0
  | .fadd rd ra rb ty el da db ea eb =>
      s.finish rd
        (rescaleUp (s.valOf ra ty.s) (sextField ea) (sextField eb) + rescaleUp (s.valOf rb ty.s) (sextField eb) (sextField ea))
        (typeDigits ty el (scaledSumDigits da db ea eb)) ty.s ty.ovf (min (sextField ea) (sextField eb))
  | .fsub rd ra rb ty el da db ea eb =>
      s.finish rd
        (rescaleUp (s.valOf ra ty.s) (sextField ea) (sextField eb) - rescaleUp (s.valOf rb ty.s) (sextField eb) (sextField ea))
        (typeDigits ty el (scaledSumDigits da db ea eb)) ty.s ty.ovf (min (sextField ea) (sextField eb))
  | .fmul rd ra rb ty el da db ea eb =>
      s.finish rd (s.valOf ra ty.s * s.valOf rb ty.s) (typeDigits ty el (productDigits da db)) ty.s ty.ovf
        (sextField ea + sextField eb)
  | .fdiv rd ra rb ty el da _ ea eb ed =>
      if s.valOf rb ty.s = 0 then .error .divideByZero
      else s.finish rd (roundScaledRatio (s.valOf ra ty.s) (s.valOf rb ty.s) (divideShift ea eb ed) (tagOf ty))
        (typeDigits ty el (scaledQuotientDigits da ea eb ed)) ty.s ty.ovf (sextField ed)
  | .fcvt rd ra ty ss ea ed =>
      s.finish rd (roundScaled (s.valOf ra ss) (sextField ea - sextField ed) (tagOf ty)) ty.dd.toNat ty.s ty.ovf
        (sextField ed)
  | .fqnt rd ra rb ty ed =>
      if s.valOf rb ty.s = 0 then .error .divideByZero
      else s.finish rd (roundScaledRatio (s.valOf ra ty.s) (s.valOf rb ty.s) (-sextField ed) (tagOf ty)) ty.dd.toNat
        ty.s ty.ovf (sextField ed)

/-- The checks in their order (60_exceptions.md R235), and then the effect. -/
def checked (legal within readable : Bool) (effect : Attempt) : Attempt :=
  if legal then
    if within then
      if readable then effect else .error .uninitRead
    else .error .capacityExceeded
  else .error .illegalCommand

/-- A command as its checks and its effect. -/
def checkedEffect (s : State) (i : Instr) : Attempt :=
  checked (i.legal s.params) (i.withinCapacity s.params) (sourcesReadable s i) (effectOf s i)

theorem wideBinary_eq (s : State) (rd ra rb : RegField) (sg : Bool) (op : Int → Int → Except Failure Int) :
    s.wideBinary rd ra rb sg op =
      if WellFormed.reg s.params rd && WellFormed.reg s.params ra && WellFormed.reg s.params rb then
        if s.readable ra && s.readable rb then
          (op (s.valOf ra sg) (s.valOf rb sg)).map fun x => (s.setReg rd x, 0)
        else .error .uninitRead
      else .error .illegalCommand := by
  unfold State.wideBinary
  rw [checkRegs_bind]
  simp only [source_bind, List.all_cons, List.all_nil, Bool.and_true, Bool.and_assoc]
  congr 1
  cases s.readable ra <;> cases s.readable rb <;> simp only [Bool.false_eq_true, if_true, if_false, Bool.and_true, Bool.and_false]
  cases op (s.valOf ra sg) (s.valOf rb sg) <;> rfl

theorem zextField_eq (f : Field16) : zextField f = f.toNat := rfl

/-- Two whole source registers. -/
theorem readable_two (s : State) (i : Instr) (ra rb : RegField) (h : sourcesOf i = [ra, rb]) (hw : wordSourceOf i = none) :
    sourcesReadable s i = (s.readable ra && s.readable rb) := by
  simp [sourcesReadable, h, hw]

/-- One whole source register. -/
theorem readable_one (s : State) (i : Instr) (ra : RegField) (h : sourcesOf i = [ra]) (hw : wordSourceOf i = none) :
    sourcesReadable s i = s.readable ra := by
  simp [sourcesReadable, h, hw]

/-- A W command with two sources, in the shape of `checkedEffect`. -/
theorem run_wideBinary (s : State) (i : Instr) (rd ra rb : RegField) (sg : Bool) (op : Int → Int → Except Failure Int)
    (hl : i.legal s.params = (WellFormed.reg s.params rd && WellFormed.reg s.params ra && WellFormed.reg s.params rb))
    (hc : i.elasticDigits = none) (hs : sourcesOf i = [ra, rb]) (hw : wordSourceOf i = none)
    (he : effectOf s i = (op (s.valOf ra sg) (s.valOf rb sg)).map fun x => (s.setReg rd x, 0)) :
    s.wideBinary rd ra rb sg op = checkedEffect s i := by
  rw [wideBinary_eq, checkedEffect, hl, Instr.withinCapacity, hc, readable_two s i ra rb hs hw, he]
  rfl

theorem policyBinary_eq (s : State) (rd ra rb : RegField) (ty : TypeFields) (el : Bool) (da db : Field16)
    (deduced : Nat) (er : Int) (op : Compute2) :
    s.policyBinary rd ra rb ty el da db deduced er op =
      if WellFormed.reg s.params rd && WellFormed.reg s.params ra && WellFormed.reg s.params rb &&
          WellFormed.rounding ty && WellFormed.digits2 s.params ty el da db then
        if !el || decide (deduced ≤ s.params.nw) then
          if s.readable ra && s.readable rb then
            op (s.valOf ra ty.s) (s.valOf rb ty.s) (tagOf ty) >>= fun t =>
              s.finish rd t (typeDigits ty el deduced) ty.s ty.ovf er
          else .error .uninitRead
        else .error .capacityExceeded
      else .error .illegalCommand := by
  unfold State.policyBinary
  rw [checkRegs_bind]
  simp only [checkRnd_bind, checkDigits2_bind, destDigits_bind, source_bind, List.all_cons, List.all_nil, Bool.and_true]
  cases WellFormed.reg s.params rd <;> cases WellFormed.reg s.params ra <;> cases WellFormed.reg s.params rb <;>
    cases WellFormed.rounding ty <;> cases WellFormed.digits2 s.params ty el da db <;>
    cases s.readable ra <;> cases s.readable rb <;> rfl

theorem policyUnary_eq (s : State) (rd ra : RegField) (ty : TypeFields) (el : Bool) (da : Field16) (deduced : Nat)
    (op : Int → Rnd → Int) :
    s.policyUnary rd ra ty el da deduced op =
      if WellFormed.reg s.params rd && WellFormed.reg s.params ra && WellFormed.rounding ty &&
          WellFormed.digits1 s.params ty el da then
        if !el || decide (deduced ≤ s.params.nw) then
          if s.readable ra then
            s.finish rd (op (s.valOf ra ty.s) (tagOf ty)) (typeDigits ty el deduced) ty.s ty.ovf 0
          else .error .uninitRead
        else .error .capacityExceeded
      else .error .illegalCommand := by
  unfold State.policyUnary
  rw [checkRegs_bind]
  simp only [checkRnd_bind, checkDigits1_bind, destDigits_bind, source_bind, List.all_cons, List.all_nil, Bool.and_true]
  cases WellFormed.reg s.params rd <;> cases WellFormed.reg s.params ra <;> cases WellFormed.rounding ty <;>
    cases WellFormed.digits1 s.params ty el da <;> rfl

/-- `EL = 0`, or the deduced count is at most `NW`. -/
theorem withinCapacity_eq (p : Params) (i : Instr) (el : Bool) (d : Nat)
    (h : i.elasticDigits = if el then some d else none) : i.withinCapacity p = (!el || decide (d ≤ p.nw)) := by
  cases el <;> simp [Instr.withinCapacity, h]

theorem scaledSumDigits_eq (da db ea eb : Field16) :
    scaledSumDigits da db ea eb = WellFormed.scaledSumDigits da db ea eb := by
  simp only [scaledSumDigits, WellFormed.scaledSumDigits, sextField_eq, zextField]
  split <;> split <;> omega

theorem scaledQuotientDigits_eq (da ea eb ed : Field16) :
    scaledQuotientDigits da ea eb ed = da.toNat + (ea.toInt - eb.toInt - ed.toInt).toNat := by
  simp only [scaledQuotientDigits, divideShift, sextField_eq, zextField]
  omega

/-- A policy command with two sources, in the shape of `checkedEffect`. -/
theorem run_policyBinary (s : State) (i : Instr) (rd ra rb : RegField) (ty : TypeFields) (el : Bool) (da db : Field16)
    (deduced : Nat) (er : Int) (op : Compute2)
    (hl : i.legal s.params = (WellFormed.reg s.params rd && WellFormed.reg s.params ra && WellFormed.reg s.params rb &&
      WellFormed.rounding ty && WellFormed.digits2 s.params ty el da db))
    (hc : i.elasticDigits = if el then some deduced else none)
    (hs : sourcesReadable s i = (s.readable ra && s.readable rb))
    (he : effectOf s i = op (s.valOf ra ty.s) (s.valOf rb ty.s) (tagOf ty) >>= fun t =>
      s.finish rd t (typeDigits ty el deduced) ty.s ty.ovf er) :
    s.policyBinary rd ra rb ty el da db deduced er op = checkedEffect s i := by
  have hw := withinCapacity_eq s.params i el deduced hc
  rw [policyBinary_eq, checkedEffect, hl, hw, hs, he]
  rfl

theorem run_policyUnary (s : State) (i : Instr) (rd ra : RegField) (ty : TypeFields) (el : Bool) (da : Field16)
    (deduced : Nat) (op : Int → Rnd → Int)
    (hl : i.legal s.params = (WellFormed.reg s.params rd && WellFormed.reg s.params ra &&
      WellFormed.rounding ty && WellFormed.digits1 s.params ty el da))
    (hc : i.elasticDigits = if el then some deduced else none)
    (hs : sourcesReadable s i = s.readable ra)
    (he : effectOf s i = s.finish rd (op (s.valOf ra ty.s) (tagOf ty)) (typeDigits ty el deduced) ty.s ty.ovf 0) :
    s.policyUnary rd ra ty el da deduced op = checkedEffect s i := by
  have hw := withinCapacity_eq s.params i el deduced hc
  rw [policyUnary_eq, checkedEffect, hl, hw, hs, he]
  rfl

/-- Every command is its checks in their order and then its effect. -/
theorem exec_eq (i : Instr) (s : State) : exec i s = s.run (checkedEffect s i) := by
  cases i with
  | nop => rfl
  | ldi rd sg ds data =>
    simp only [exec, execLdi, zextField_eq, checkRegs_bind, require_bind, List.all_cons, List.all_nil, Bool.and_true]
    change _ = s.run (checked (WellFormed.reg s.params rd && decide (1 ≤ ds.toNat ∧ ds.toNat ≤ 64)) true true _)
    by_cases h : 1 ≤ ds.toNat ∧ ds.toNat ≤ 64 <;> cases WellFormed.reg s.params rd <;>
      simp only [h, decide_false] <;> rfl
  | ldw rd k data =>
    simp only [exec, execLdw, zextField_eq, checkRegs_bind, require_bind, List.all_cons, List.all_nil, Bool.and_true]
    change _ = s.run (checked (WellFormed.reg s.params rd && decide (k.toNat < s.params.n) &&
      decide (data.toNat < 2 ^ s.params.w)) true true _)
    by_cases h : k.toNat < s.params.n <;> by_cases h' : data.toNat < 2 ^ s.params.w <;>
      cases WellFormed.reg s.params rd <;> simp only [h, h', decide_true, decide_false] <;> rfl
  | rdw ra k =>
    simp only [exec, execRdw, zextField_eq, checkRegs_bind, require_bind, List.all_cons, List.all_nil, Bool.and_true]
    change _ = s.run (checked (WellFormed.reg s.params ra && decide (k.toNat < s.params.n)) true
      (((s.reg ra)[k.toNat]?).any VWord.ok) (.ok (s, BitVec.ofNat 64 (((s.reg ra)[k.toNat]?).elim 0 VWord.val))))
    have hr : s.sourceWord ra k.toNat = (match (s.reg ra)[k.toNat]? with
      | some ⟨v, true⟩ => .ok v | _ => .error .uninitRead) := rfl
    rw [hr]
    by_cases h : k.toNat < s.params.n <;> simp only [h, decide_true, decide_false] <;>
      cases WellFormed.reg s.params ra <;> try rfl
    rcases (s.reg ra)[k.toNat]? with _ | ⟨v, _ | _⟩ <;> rfl
  | rdc csr =>
    change s.run (match s.csr csr.toNat with | some v => .ok (s, v) | none => .error .illegalCommand) =
      s.run (checked (decide (csr.toNat ≤ 3)) true true (.ok (s, (s.csr csr.toNat).getD 0)))
    generalize csr.toNat = n
    rcases n with _ | _ | _ | _ | n <;> rfl
  | wadd rd ra rb sg => exact congrArg s.run (run_wideBinary s _ _ _ _ _ _ rfl rfl rfl rfl rfl)
  | wsub rd ra rb sg => exact congrArg s.run (run_wideBinary s _ _ _ _ _ _ rfl rfl rfl rfl rfl)
  | wmul rd ra rb sg => exact congrArg s.run (run_wideBinary s _ _ _ _ _ _ rfl rfl rfl rfl rfl)
  | wdiv rd ra rb sg =>
    refine congrArg s.run (run_wideBinary s _ _ _ _ _ _ rfl rfl rfl rfl ?_)
    rw [effectOf]; split <;> rfl
  | wmod rd ra rb sg =>
    refine congrArg s.run (run_wideBinary s _ _ _ _ _ _ rfl rfl rfl rfl ?_)
    rw [effectOf]; split <;> rfl
  | wshl rd ra sg sh =>
    simp only [exec, execWshl, checkRegs_bind, source_bind, List.all_cons, List.all_nil, Bool.and_true]
    rw [checkedEffect, readable_one s _ ra rfl rfl]
    rfl
  | wshr rd ra sg sh =>
    simp only [exec, execWshr, checkRegs_bind, source_bind, List.all_cons, List.all_nil, Bool.and_true]
    rw [checkedEffect, readable_one s _ ra rfl rfl]
    rfl
  | wcmp ra rb sg =>
    simp only [exec, execWcmp, checkRegs_bind, source_bind, List.all_cons, List.all_nil, Bool.and_true]
    rw [checkedEffect, readable_two s _ ra rb rfl rfl]
    cases s.readable ra <;> cases s.readable rb <;> rfl
  | wext rd ra sg d =>
    simp only [exec, execWext, checkRegs_bind, checkDigits_bind, source_bind, List.all_cons, List.all_nil, Bool.and_true]
    rw [checkedEffect, readable_one s _ ra rfl rfl]
    change _ = s.run (checked (WellFormed.reg s.params rd && WellFormed.reg s.params ra && WellFormed.digits s.params d)
      true _ _)
    cases WellFormed.reg s.params rd <;> cases WellFormed.reg s.params ra <;> cases WellFormed.digits s.params d <;> rfl
  | wlim rd sg d kind =>
    simp only [exec, execWlim, zextField_eq, checkRegs_bind, checkDigits_bind, List.all_cons, List.all_nil, Bool.and_true]
    change _ = s.run (checked (WellFormed.reg s.params rd && WellFormed.digits s.params d && decide (kind.toNat ≤ 2))
      true true (.ok (s.setReg rd ((limitOf kind.toNat d.toNat sg).getD 0), 0)))
    generalize kind.toNat = n
    cases WellFormed.reg s.params rd <;> cases WellFormed.digits s.params d <;> try rfl
    rcases n with _ | _ | _ | n <;> rfl
  | padd rd ra rb ty el da db =>
    exact congrArg s.run (run_policyBinary s _ _ _ _ _ _ _ _ _ _ _ rfl rfl (readable_two s _ _ _ rfl rfl) rfl)
  | psub rd ra rb ty el da db =>
    exact congrArg s.run (run_policyBinary s _ _ _ _ _ _ _ _ _ _ _ rfl rfl (readable_two s _ _ _ rfl rfl) rfl)
  | pmul rd ra rb ty el da db =>
    exact congrArg s.run (run_policyBinary s _ _ _ _ _ _ _ _ _ _ _ rfl rfl (readable_two s _ _ _ rfl rfl) rfl)
  | pdiv rd ra rb ty el da db =>
    refine congrArg s.run (run_policyBinary s _ _ _ _ _ _ _ _ _ _ _ rfl rfl (readable_two s _ _ _ rfl rfl) ?_)
    rw [effectOf]; split <;> rfl
  | pshl rd ra ty el da sh =>
    exact congrArg s.run (run_policyUnary s _ _ _ _ _ _ _ _ rfl rfl (readable_one s _ _ rfl rfl) rfl)
  | pshr rd ra ty el da sh =>
    exact congrArg s.run (run_policyUnary s _ _ _ _ _ _ _ _ rfl rfl (readable_one s _ _ rfl rfl) rfl)
  | fadd rd ra rb ty el da db ea eb =>
    exact congrArg s.run (run_policyBinary s _ _ _ _ _ _ _ _ _ _ _ rfl (by rw [scaledSumDigits_eq]; rfl)
      (readable_two s _ _ _ rfl rfl) rfl)
  | fsub rd ra rb ty el da db ea eb =>
    exact congrArg s.run (run_policyBinary s _ _ _ _ _ _ _ _ _ _ _ rfl (by rw [scaledSumDigits_eq]; rfl)
      (readable_two s _ _ _ rfl rfl) rfl)
  | fmul rd ra rb ty el da db ea eb =>
    exact congrArg s.run (run_policyBinary s _ _ _ _ _ _ _ _ _ _ _ rfl rfl (readable_two s _ _ _ rfl rfl) rfl)
  | fdiv rd ra rb ty el da db ea eb ed =>
    refine congrArg s.run (run_policyBinary s _ _ _ _ _ _ _ _ _ _ _ rfl (by rw [scaledQuotientDigits_eq]; rfl)
      (readable_two s _ _ _ rfl rfl) ?_)
    rw [effectOf]; split <;> rfl
  | fcvt rd ra ty ss ea ed =>
    simp only [exec, execFcvt, checkRegs_bind, checkRnd_bind, checkDigits_bind, source_bind, List.all_cons,
      List.all_nil, Bool.and_true]
    rw [checkedEffect, readable_one s _ ra rfl rfl]
    change _ = s.run (checked (WellFormed.reg s.params rd && WellFormed.reg s.params ra && WellFormed.rounding ty &&
      WellFormed.digits s.params ty.dd) true _ _)
    cases WellFormed.reg s.params rd <;> cases WellFormed.reg s.params ra <;> cases WellFormed.rounding ty <;>
      cases WellFormed.digits s.params ty.dd <;> rfl
  | fqnt rd ra rb ty ed =>
    simp only [exec, execFqnt, checkRegs_bind, checkRnd_bind, checkDigits_bind, source_bind, require_bind,
      List.all_cons, List.all_nil, Bool.and_true]
    rw [checkedEffect, readable_two s _ ra rb rfl rfl, effectOf]
    change _ = s.run (checked (WellFormed.reg s.params rd && WellFormed.reg s.params ra && WellFormed.reg s.params rb &&
      WellFormed.rounding ty && WellFormed.digits s.params ty.dd) true _ _)
    cases WellFormed.reg s.params rd <;> cases WellFormed.reg s.params ra <;> cases WellFormed.reg s.params rb <;>
      cases WellFormed.rounding ty <;> cases WellFormed.digits s.params ty.dd <;> cases s.readable ra <;>
      cases s.readable rb <;> try rfl
    by_cases h : s.valOf rb ty.s = 0 <;> simp [h, checked, zextField]

end Sys2Proof.Machine
end

