-- ==== Sys2Proof/Laws/Effects.lean ====
section
/-! SUPPORT. What the effect of a command can be, said once: the inversion every whole-machine proof starts from. -/

namespace Sys2Proof.Machine

theorem fits_iff (x : Int) (d : Nat) (sg : Bool) : fits x d sg = true ↔ lo d sg ≤ x ∧ x ≤ hi d sg := by
  simp [fits]

theorem pow2_succ_pred {d : Nat} (hd : 1 ≤ d) : pow2 d = 2 * pow2 (d - 1) := by
  obtain ⟨k, rfl⟩ : ∃ k, d = k + 1 := ⟨d - 1, by omega⟩
  simp only [pow2_eq, Nat.add_sub_cancel, pow_succ]
  ring

/-- A wrapped value lies in its type. -/
theorem fits_wrap (x : Int) {d : Nat} (sg : Bool) (hd : 1 ≤ d) : fits (wrap x d sg) d sg = true := by
  have h1 := pow2_pos d
  have h2 := pow2_succ_pred hd
  rw [fits_iff]
  cases sg
  · have := Int.emod_nonneg x h1.ne'
    have := Int.emod_lt_of_pos x h1
    simp only [lo, hi, wrap, Bool.false_eq_true, if_false]
    omega
  · have := Int.emod_nonneg (x + pow2 (d - 1)) h1.ne'
    have := Int.emod_lt_of_pos (x + pow2 (d - 1)) h1
    simp only [lo, hi, wrap, if_true]
    omega

/-- A saturated value lies in its type. -/
theorem fits_sat (x : Int) {d : Nat} (sg : Bool) : fits (sat x d sg) d sg = true := by
  have h1 := pow2_pos d
  have h2 := pow2_pos (d - 1)
  rw [fits_iff]
  cases sg <;> simp only [lo, hi, sat, Bool.false_eq_true, if_false, if_true] <;> split <;> (try split) <;> omega

/-- What `finish` leaves where it does not fail: a value of the type, or an unspecified pattern under UND. -/
theorem finish_ok {s t : State} {rd : RegField} {x : Int} {d : Nat} {sg : Bool} {ovf : Ovf} {er : Int} {data : Data64}
    (hd : 1 ≤ d) (h : s.finish rd x d sg ovf er = .ok (t, data)) :
    data = 0 ∧ ((∃ y, t = (s.setReg rd y).setRtype sg er d ∧ fits y d sg = true) ∨
      (ovf = .und ∧ t = (s.setAny rd).setRtype sg er d)) := by
  unfold State.finish at h
  split at h
  · simp only [Except.ok.injEq, Prod.mk.injEq] at h
    exact ⟨h.2.symm, .inl ⟨x, h.1.symm, by assumption⟩⟩
  · cases ovf <;> simp only [Except.ok.injEq, Prod.mk.injEq, reduceCtorEq] at h
    · exact ⟨h.2.symm, .inl ⟨_, h.1.symm, fits_wrap x sg hd⟩⟩
    · exact ⟨h.2.symm, .inl ⟨_, h.1.symm, fits_sat x sg⟩⟩
    · exact ⟨h.2.symm, .inr ⟨rfl, h.1.symm⟩⟩

/-- The type a P or F command writes is a type of the instance. -/
theorem resultType_bounds {p : Params} {i : Instr} (hl : i.legal p = true) (hc : i.withinCapacity p = true)
    {sg : Bool} {er : Int} {d : Nat} (h : resultTypeOf i = some (sg, er, d)) :
    1 ≤ d ∧ d ≤ p.nw ∧ -65536 ≤ er ∧ er ≤ 65534 := by
  have hx : ∀ f : Field16, -32768 ≤ f.toInt ∧ f.toInt ≤ 32767 := fun f => by
    have := BitVec.toInt_lt (x := f)
    have := BitVec.le_toInt (x := f)
    omega
  cases i <;> simp only [resultTypeOf, reduceCtorEq, Option.some.injEq, Prod.mk.injEq] at h <;>
    obtain ⟨rfl, rfl, rfl⟩ := h
  case fcvt rd ra ty ss ea ed =>
    simp only [Instr.legal, WellFormed.digits, Bool.and_eq_true, decide_eq_true_eq] at hl
    have := hx ed
    omega
  case fqnt rd ra rb ty ed =>
    simp only [Instr.legal, WellFormed.digits, Bool.and_eq_true, decide_eq_true_eq] at hl
    have := hx ed
    omega
  case pshl rd ra ty el da sh =>
    cases el <;> simp_all [Instr.legal, WellFormed.digits1, WellFormed.digits, Instr.withinCapacity,
      Instr.elasticDigits, typeDigits]
    omega
  case pshr rd ra ty el da sh =>
    cases el <;> simp_all [Instr.legal, WellFormed.digits1, WellFormed.digits, Instr.withinCapacity,
      Instr.elasticDigits, typeDigits]
  case padd rd ra rb ty el da db =>
    cases el <;> simp_all [Instr.legal, WellFormed.digits2, WellFormed.digits, Instr.withinCapacity,
      Instr.elasticDigits, typeDigits]
  case psub rd ra rb ty el da db =>
    cases el <;> simp_all [Instr.legal, WellFormed.digits2, WellFormed.digits, Instr.withinCapacity,
      Instr.elasticDigits, typeDigits]
  case pmul rd ra rb ty el da db =>
    cases el <;> simp_all [Instr.legal, WellFormed.digits2, WellFormed.digits, Instr.withinCapacity,
      Instr.elasticDigits, typeDigits]
    omega
  case pdiv rd ra rb ty el da db =>
    cases el <;> simp_all [Instr.legal, WellFormed.digits2, WellFormed.digits, Instr.withinCapacity,
      Instr.elasticDigits, typeDigits]
  case fadd rd ra rb ty el da db ea eb =>
    have := hx ea
    have := hx eb
    clear hx
    cases el <;> simp_all [Instr.legal, WellFormed.digits2, WellFormed.digits, Instr.withinCapacity,
      Instr.elasticDigits, typeDigits, WellFormed.scaledSumDigits]
    all_goals omega
  case fsub rd ra rb ty el da db ea eb =>
    have := hx ea
    have := hx eb
    clear hx
    cases el <;> simp_all [Instr.legal, WellFormed.digits2, WellFormed.digits, Instr.withinCapacity,
      Instr.elasticDigits, typeDigits, WellFormed.scaledSumDigits]
    all_goals omega
  case fmul rd ra rb ty el da db ea eb =>
    have := hx ea
    have := hx eb
    clear hx
    cases el <;> simp_all [Instr.legal, WellFormed.digits2, WellFormed.digits, Instr.withinCapacity,
      Instr.elasticDigits, typeDigits]
    all_goals omega
  case fdiv rd ra rb ty el da db ea eb ed =>
    have := hx ed
    clear hx
    cases el <;> simp_all [Instr.legal, WellFormed.digits2, WellFormed.digits, Instr.withinCapacity,
      Instr.elasticDigits, typeDigits]
    all_goals omega

/-- The effects a command can have. -/
inductive Effect (s : State) (i : Instr) (t : State) : Prop
  | nothing (hd : destOf i = none) (hf : formatOf i = .t) (h : t = s)
  | register (rd : RegField) (x : Int) (hd : destOf i = some rd) (hf : formatOf i = .t ∨ formatOf i = .w)
      (h : t = s.setReg rd x)
  | word (rd : RegField) (k : Nat) (v : Word) (hd : destOf i = some rd) (hf : formatOf i = .t)
      (hv : v < 2 ^ s.params.w) (h : t = s.setWord rd k v)
  | compare (ra rb : RegField) (sg : Bool) (f : BitVec 3) (hi : i = .wcmp ra rb sg) (hf : f = 1 ∨ f = 2 ∨ f = 4)
      (h : t = s.setFlags f)
  | typed (rd : RegField) (sg : Bool) (er : Int) (d : Nat) (x : Int) (hd : destOf i = some rd)
      (hf : formatOf i = .p ∨ formatOf i = .f) (ht : resultTypeOf i = some (sg, er, d)) (hx : fits x d sg = true)
      (h : t = (s.setReg rd x).setRtype sg er d)
  | unspecified (rd : RegField) (sg : Bool) (er : Int) (d : Nat) (hd : destOf i = some rd)
      (hf : formatOf i = .p ∨ formatOf i = .f) (ht : resultTypeOf i = some (sg, er, d))
      (ho : ∃ ty, typeOf i = some ty ∧ ty.ovf = .und) (h : t = (s.setAny rd).setRtype sg er d)

theorem compareFlags_cases (a b : Int) : compareFlags a b = 1 ∨ compareFlags a b = 2 ∨ compareFlags a b = 4 := by
  unfold compareFlags
  split
  · exact .inl rfl
  · split
    · exact .inr (.inl rfl)
    · exact .inr (.inr rfl)

/-- The end of a P or F command is one of the two typed effects. -/
theorem effect_of_finish {s t : State} {i : Instr} {rd : RegField} {x : Int} {ty : TypeFields} {er : Int} {d : Nat}
    {data : Data64} (hl : i.legal s.params = true) (hc : i.withinCapacity s.params = true) (hd : destOf i = some rd)
    (hf : formatOf i = .p ∨ formatOf i = .f) (ht : resultTypeOf i = some (ty.s, er, d)) (hty : typeOf i = some ty)
    (h : s.finish rd x d ty.s ty.ovf er = .ok (t, data)) : Effect s i t := by
  rcases (finish_ok (resultType_bounds hl hc ht).1 h).2 with ⟨y, rfl, hy⟩ | ⟨ho, rfl⟩
  · exact .typed rd _ _ _ y hd hf ht hy rfl
  · exact .unspecified rd _ _ _ hd hf ht ⟨ty, hty, ho⟩ rfl

/-- Every effect of a legal command that fits the storage is one of those. -/
theorem effectOf_cases {s t : State} {i : Instr} {data : Data64} (hl : i.legal s.params = true)
    (hc : i.withinCapacity s.params = true) (h : effectOf s i = .ok (t, data)) : Effect s i t := by
  cases i
  case nop => simp only [effectOf, Except.ok.injEq, Prod.mk.injEq] at h; exact .nothing rfl rfl h.1.symm
  case rdw => simp only [effectOf, Except.ok.injEq, Prod.mk.injEq] at h; exact .nothing rfl rfl h.1.symm
  case rdc => simp only [effectOf, Except.ok.injEq, Prod.mk.injEq] at h; exact .nothing rfl rfl h.1.symm
  case ldi => simp only [effectOf, Except.ok.injEq, Prod.mk.injEq] at h; exact .register _ _ rfl (.inl rfl) h.1.symm
  case ldw =>
    simp only [effectOf, Except.ok.injEq, Prod.mk.injEq] at h
    simp only [Instr.legal, Bool.and_eq_true, decide_eq_true_eq] at hl
    exact .word _ _ _ rfl rfl hl.2 h.1.symm
  case wcmp =>
    simp only [effectOf, Except.ok.injEq, Prod.mk.injEq] at h
    exact .compare _ _ _ _ rfl (compareFlags_cases _ _) h.1.symm
  case wdiv =>
    simp only [effectOf] at h
    split at h <;> simp only [Except.ok.injEq, Prod.mk.injEq, reduceCtorEq] at h
    exact .register _ _ rfl (.inr rfl) h.1.symm
  case wmod =>
    simp only [effectOf] at h
    split at h <;> simp only [Except.ok.injEq, Prod.mk.injEq, reduceCtorEq] at h
    exact .register _ _ rfl (.inr rfl) h.1.symm
  case pdiv =>
    simp only [effectOf] at h
    split at h
    · simp only [reduceCtorEq] at h
    · exact effect_of_finish hl hc rfl (.inl rfl) rfl rfl h
  case fdiv =>
    simp only [effectOf, scaledQuotientDigits_eq, sextField_eq] at h
    split at h
    · simp only [reduceCtorEq] at h
    · exact effect_of_finish hl hc rfl (.inr rfl) rfl rfl h
  case fqnt =>
    simp only [effectOf, sextField_eq] at h
    split at h
    · simp only [reduceCtorEq] at h
    · exact effect_of_finish hl hc rfl (.inr rfl) rfl rfl h
  case padd => exact effect_of_finish hl hc rfl (.inl rfl) rfl rfl h
  case psub => exact effect_of_finish hl hc rfl (.inl rfl) rfl rfl h
  case pmul => exact effect_of_finish hl hc rfl (.inl rfl) rfl rfl h
  case pshl => exact effect_of_finish hl hc rfl (.inl rfl) rfl rfl h
  case pshr => exact effect_of_finish hl hc rfl (.inl rfl) rfl rfl h
  case fadd =>
    simp only [effectOf, scaledSumDigits_eq, sextField_eq] at h
    exact effect_of_finish hl hc rfl (.inr rfl) rfl rfl h
  case fsub =>
    simp only [effectOf, scaledSumDigits_eq, sextField_eq] at h
    exact effect_of_finish hl hc rfl (.inr rfl) rfl rfl h
  case fmul =>
    simp only [effectOf, sextField_eq] at h
    exact effect_of_finish hl hc rfl (.inr rfl) rfl rfl h
  case fcvt =>
    simp only [effectOf, sextField_eq] at h
    exact effect_of_finish hl hc rfl (.inr rfl) rfl rfl h
  all_goals
    simp only [effectOf, Except.ok.injEq, Prod.mk.injEq] at h
    exact .register _ _ rfl (.inr rfl) h.1.symm

/-- A command's next state is a failure step, or a response after one of the effects. -/
theorem exec_cases {i : Instr} {s t : State} (h : exec i s = .next t) :
    (∃ f, t = s.raise f) ∨
      ∃ u data, i.legal s.params = true ∧ i.withinCapacity s.params = true ∧ sourcesReadable s i = true ∧
        effectOf s i = .ok (u, data) ∧ Effect s i u ∧ t = u.respond data := by
  rw [exec_eq, checkedEffect, checked] at h
  split at h
  · split at h
    · split at h
      · cases he : effectOf s i with
        | error f => rw [he, run_error] at h; exact .inl ⟨f, (Host.Outcome.next.inj h).symm⟩
        | ok r =>
          rw [he, run_ok] at h
          exact .inr ⟨r.1, r.2, ‹_›, ‹_›, ‹_›, rfl, effectOf_cases ‹_› ‹_› he, (Host.Outcome.next.inj h).symm⟩
      · rw [run_error] at h; exact .inl ⟨_, (Host.Outcome.next.inj h).symm⟩
    · rw [run_error] at h; exact .inl ⟨_, (Host.Outcome.next.inj h).symm⟩
  · rw [run_error] at h; exact .inl ⟨_, (Host.Outcome.next.inj h).symm⟩

/-! ### Completion -/

/-- A command answers a next state, always. -/
theorem exec_next (i : Instr) (s : State) : ∃ t, exec i s = .next t := by
  rw [exec_eq]
  unfold State.run
  split <;> exact ⟨_, rfl⟩

/-- A command that passes its checks comes to its effect. -/
theorem exec_of_checks {i : Instr} {s : State} (hw : i.wellFormed s.params = true) (hr : sourcesReadable s i = true) :
    exec i s = s.run (effectOf s i) := by
  simp only [Instr.wellFormed, Bool.and_eq_true] at hw
  rw [exec_eq, checkedEffect, hw.1, hw.2, hr]
  rfl

/-- `State.Sourced` as the test the checks run. -/
theorem sourced_iff (s : State) (i : Instr) : s.Sourced i ↔ sourcesReadable s i = true := by
  have h : ∀ q : RegField × Nat,
      (∃ v, (s.reg q.1)[q.2]? = some ⟨v, true⟩) ↔ ((s.reg q.1)[q.2]?).any VWord.ok = true := by
    intro q
    rcases (s.reg q.1)[q.2]? with _ | ⟨v, _ | _⟩ <;> simp
  simp only [State.Sourced, sourcesReadable, Bool.and_eq_true, List.all_eq_true, readable_iff]
  refine and_congr Iff.rfl ?_
  cases hw : wordSourceOf i with
  | none => simp
  | some q =>
    simp only [Option.some.injEq, Option.all_some, ← h]
    constructor
    · intro g; exact g q.1 q.2 rfl
    · rintro g r k rfl; exact g

/-- The destination of a legal command is a register of a well-shaped state. -/
theorem dest_lt {i : Instr} {s : State} {rd : RegField} (h : s.RegsShaped) (hl : i.legal s.params = true)
    (hd : destOf i = some rd) : rd.toNat < s.regs.length := by
  apply h.index
  cases i <;> simp only [destOf, reduceCtorEq, Option.some.injEq] at hd <;> subst hd <;>
    simp only [Instr.legal, Bool.and_eq_true] at hl <;> tauto

/-- A write of a whole register, as a claim says it. -/
theorem writesReg_setReg {s : State} {rd : RegField} (x : Int) (h : rd.toNat < s.regs.length) :
    WritesReg s ((s.setReg rd x).respond 0) rd x where
  succeeds := ⟨rfl, rfl, rfl, rfl⟩
  holds := setReg_holds x h
  others := fun _ hq => setReg_reg_other x hq
  flags := rfl
  rtype := rfl
  draws := rfl

/-- A P or F command whose effect is `finish`: it ends as `Finishes` says, or raises Overflow under CHK. -/
theorem exec_finishes {i : Instr} {s : State} {rd : RegField} {x : Int} {d : Nat} {er : Int} {ty : TypeFields}
    (hi : s.Inv) (hw : i.wellFormed s.params = true) (hr : sourcesReadable s i = true) (hd : destOf i = some rd)
    (ht : resultTypeOf i = some (ty.s, er, d)) (he : effectOf s i = s.finish rd x d ty.s ty.ovf er) :
    (fits x d ty.s = true ∨ ty.ovf ≠ .chk → ∃ t, exec i s = .next t ∧ Finishes s t rd x d ty.s ty.ovf er) ∧
      (fits x d ty.s = false ∧ ty.ovf = .chk → ∃ t, exec i s = .next t ∧ FailsWith s t .overflow) := by
  have hl := hw
  simp only [Instr.wellFormed, Bool.and_eq_true] at hl
  have hb := resultType_bounds hl.1 hl.2 ht
  have hn : s.params.nw ≤ 65535 := hi.1.2.2.2.1
  rw [exec_of_checks hw hr, he]
  refine ⟨fun h => ?_, fun h => ?_⟩
  · obtain ⟨u, h1, h2⟩ := finish_finishes (dest_lt hi.2.1 hl.1 hd) (by omega) hb.2.2.1 hb.2.2.2 h
    exact ⟨_, by rw [h1]; rfl, h2⟩
  · rw [(finish_error_iff (s := s) (rd := rd) (er := er)).2 ⟨h.1, h.2, rfl⟩]
    exact ⟨_, rfl, raise_failsWith _ _⟩

/-- Where its rounded result fits, such a command writes it, whatever `OVF`. -/
theorem exec_fits {i : Instr} {s : State} {rd : RegField} {x : Int} {d : Nat} {er : Int} {ty : TypeFields}
    (hi : s.Inv) (hw : i.wellFormed s.params = true) (hr : sourcesReadable s i = true) (hd : destOf i = some rd)
    (ht : resultTypeOf i = some (ty.s, er, d)) (he : effectOf s i = s.finish rd x d ty.s ty.ovf er)
    (hf : fits x d ty.s = true) : ∃ t, exec i s = .next t ∧ WritesTyped s t rd x ty.s er d := by
  obtain ⟨t, h1, h2⟩ := (exec_finishes hi hw hr hd ht he).1 (.inl hf)
  exact ⟨t, h1, h2.fitting hf⟩

/-- Where its rounded result does not fit, such a command ends as `OverflowsTo` says. -/
theorem exec_overflows {i : Instr} {s : State} {rd : RegField} {x : Int} {d : Nat} {er : Int} {ty : TypeFields}
    (hi : s.Inv) (hw : i.wellFormed s.params = true) (hr : sourcesReadable s i = true) (hd : destOf i = some rd)
    (ht : resultTypeOf i = some (ty.s, er, d)) (he : effectOf s i = s.finish rd x d ty.s ty.ovf er)
    (hf : fits x d ty.s = false) :
    ∃ t, exec i s = .next t ∧ OverflowsTo s t rd (wrap x d ty.s) (sat x d ty.s) d ty.s ty.ovf er := by
  have h := exec_finishes hi hw hr hd ht he
  by_cases hc : ty.ovf = .chk
  · obtain ⟨t, h1, h2⟩ := h.2 ⟨hf, hc⟩
    exact ⟨t, h1, by constructor <;> intro h' <;> simp_all⟩
  · obtain ⟨t, h1, h2⟩ := h.1 (.inr hc)
    exact ⟨t, h1, h2.wrapped hf, h2.saturated hf, fun h => absurd h hc, h2.undefined hf⟩

end Sys2Proof.Machine
end

