-- ==== Sys2Proof/Laws/PerInstr.lean ====
section
/-! SUPPORT. One lemma per instruction: the fields an instruction is encoded to are read back as that instruction. -/

namespace Sys2Proof

theorem ovf_ofField_toField (o : Ovf) : Ovf.ofField o.toField = o := by cases o <;> rfl

/-- `DATA` put together from the four fields it overlays (30_encoding.md R72). -/
theorem withData_data (f : Fields) (data : Data64) : (f.withData data).data = data := by
  refine BitVec.eq_of_getLsbD_eq fun i hi => ?_
  simp only [Fields.data, Fields.withData, BitVec.getLsbD_append, BitVec.getLsbD_extractLsb']
  split
  · simp [*]
  · split
    · simp [show 16 + (i - 16) = i by omega, *]
    · split
      · simp [show 32 + (i - 16 - 16) = i by omega, *]
      · simp [show 48 + (i - 16 - 16 - 16) = i by omega, show i - 16 - 16 - 16 < 16 by omega]

namespace Laws.FieldRoundTrip

/-- The fields of `i` are read back as `i`. -/
def Statement (i : Instr) : Prop := i.toFields.toInstr = some i

theorem nop : Statement (.nop) := by
  simp [Statement, Instr.toFields, Fields.toInstr, accept, Fields.ofOp, Fields.noTags, Fields.noDigits,
    Fields.noExps, Fields.noData]

theorem ldi (rd : RegField) (sg : Bool) (ds : Field16) (data : Data64) : Statement (.ldi rd sg ds data) := by
  simp [Statement, Instr.toFields, Fields.toInstr, accept, withData_data]
  simp [Fields.withData, Fields.ofOp, Fields.noTags]

theorem ldw (rd : RegField) (k : Field16) (data : Data64) : Statement (.ldw rd k data) := by
  simp [Statement, Instr.toFields, Fields.toInstr, accept, withData_data]
  simp [Fields.withData, Fields.ofOp, Fields.noTags]

theorem rdw (ra : RegField) (k : Field16) : Statement (.rdw ra k) := by
  simp [Statement, Instr.toFields, Fields.toInstr, accept, Fields.ofOp, Fields.noTags, Fields.noDigits,
    Fields.noExps, Fields.noData]

theorem rdc (csr : Field16) : Statement (.rdc csr) := by
  simp [Statement, Instr.toFields, Fields.toInstr, accept, Fields.ofOp, Fields.noTags, Fields.noDigits,
    Fields.noExps, Fields.noData]

theorem wadd (rd ra rb : RegField) (sg : Bool) : Statement (.wadd rd ra rb sg) := by
  simp [Statement, Instr.toFields, Fields.toInstr, accept, Fields.wide, Fields.ofOp, Fields.noTags, Fields.noDigits,
    Fields.noExps, Fields.noData]

theorem wsub (rd ra rb : RegField) (sg : Bool) : Statement (.wsub rd ra rb sg) := by
  simp [Statement, Instr.toFields, Fields.toInstr, accept, Fields.wide, Fields.ofOp, Fields.noTags, Fields.noDigits,
    Fields.noExps, Fields.noData]

theorem wmul (rd ra rb : RegField) (sg : Bool) : Statement (.wmul rd ra rb sg) := by
  simp [Statement, Instr.toFields, Fields.toInstr, accept, Fields.wide, Fields.ofOp, Fields.noTags, Fields.noDigits,
    Fields.noExps, Fields.noData]

theorem wdiv (rd ra rb : RegField) (sg : Bool) : Statement (.wdiv rd ra rb sg) := by
  simp [Statement, Instr.toFields, Fields.toInstr, accept, Fields.wide, Fields.ofOp, Fields.noTags, Fields.noDigits,
    Fields.noExps, Fields.noData]

theorem wmod (rd ra rb : RegField) (sg : Bool) : Statement (.wmod rd ra rb sg) := by
  simp [Statement, Instr.toFields, Fields.toInstr, accept, Fields.wide, Fields.ofOp, Fields.noTags, Fields.noDigits,
    Fields.noExps, Fields.noData]

theorem wshl (rd ra : RegField) (sg : Bool) (sh : Field16) : Statement (.wshl rd ra sg sh) := by
  simp [Statement, Instr.toFields, Fields.toInstr, accept, Fields.wide, Fields.ofOp, Fields.noTags, Fields.noDigits,
    Fields.noExps, Fields.noData]

theorem wshr (rd ra : RegField) (sg : Bool) (sh : Field16) : Statement (.wshr rd ra sg sh) := by
  simp [Statement, Instr.toFields, Fields.toInstr, accept, Fields.wide, Fields.ofOp, Fields.noTags, Fields.noDigits,
    Fields.noExps, Fields.noData]

theorem wcmp (ra rb : RegField) (sg : Bool) : Statement (.wcmp ra rb sg) := by
  simp [Statement, Instr.toFields, Fields.toInstr, accept, Fields.wide, Fields.ofOp, Fields.noTags, Fields.noDigits,
    Fields.noExps, Fields.noData]

theorem wext (rd ra : RegField) (sg : Bool) (d : Field16) : Statement (.wext rd ra sg d) := by
  simp [Statement, Instr.toFields, Fields.toInstr, accept, Fields.wide, Fields.ofOp, Fields.noTags, Fields.noDigits,
    Fields.noExps, Fields.noData]

theorem wlim (rd : RegField) (sg : Bool) (d kind : Field16) : Statement (.wlim rd sg d kind) := by
  simp [Statement, Instr.toFields, Fields.toInstr, accept, Fields.wide, Fields.ofOp, Fields.noTags, Fields.noDigits,
    Fields.noExps, Fields.noData]

theorem padd (rd ra rb : RegField) (ty : TypeFields) (el : Bool) (da db : Field16) : Statement (.padd rd ra rb ty el da db) := by
  simp [Statement, Instr.toFields, Fields.toInstr, accept, Fields.policy, Fields.wide, Fields.ofOp, Fields.ty,
    Fields.noExps, ovf_ofField_toField]

theorem psub (rd ra rb : RegField) (ty : TypeFields) (el : Bool) (da db : Field16) : Statement (.psub rd ra rb ty el da db) := by
  simp [Statement, Instr.toFields, Fields.toInstr, accept, Fields.policy, Fields.wide, Fields.ofOp, Fields.ty,
    Fields.noExps, ovf_ofField_toField]

theorem pmul (rd ra rb : RegField) (ty : TypeFields) (el : Bool) (da db : Field16) : Statement (.pmul rd ra rb ty el da db) := by
  simp [Statement, Instr.toFields, Fields.toInstr, accept, Fields.policy, Fields.wide, Fields.ofOp, Fields.ty,
    Fields.noExps, ovf_ofField_toField]

theorem pdiv (rd ra rb : RegField) (ty : TypeFields) (el : Bool) (da db : Field16) : Statement (.pdiv rd ra rb ty el da db) := by
  simp [Statement, Instr.toFields, Fields.toInstr, accept, Fields.policy, Fields.wide, Fields.ofOp, Fields.ty,
    Fields.noExps, ovf_ofField_toField]

theorem pshl (rd ra : RegField) (ty : TypeFields) (el : Bool) (da sh : Field16) : Statement (.pshl rd ra ty el da sh) := by
  simp [Statement, Instr.toFields, Fields.toInstr, accept, Fields.policy, Fields.wide, Fields.ofOp, Fields.ty,
    Fields.noExps, ovf_ofField_toField]

theorem pshr (rd ra : RegField) (ty : TypeFields) (el : Bool) (da sh : Field16) : Statement (.pshr rd ra ty el da sh) := by
  simp [Statement, Instr.toFields, Fields.toInstr, accept, Fields.policy, Fields.wide, Fields.ofOp, Fields.ty,
    Fields.noExps, ovf_ofField_toField]

theorem fadd (rd ra rb : RegField) (ty : TypeFields) (el : Bool) (da db ea eb : Field16) : Statement (.fadd rd ra rb ty el da db ea eb) := by
  simp [Statement, Instr.toFields, Fields.toInstr, accept, Fields.policy, Fields.wide, Fields.ofOp, Fields.ty,
    ovf_ofField_toField]

theorem fsub (rd ra rb : RegField) (ty : TypeFields) (el : Bool) (da db ea eb : Field16) : Statement (.fsub rd ra rb ty el da db ea eb) := by
  simp [Statement, Instr.toFields, Fields.toInstr, accept, Fields.policy, Fields.wide, Fields.ofOp, Fields.ty,
    ovf_ofField_toField]

theorem fmul (rd ra rb : RegField) (ty : TypeFields) (el : Bool) (da db ea eb : Field16) : Statement (.fmul rd ra rb ty el da db ea eb) := by
  simp [Statement, Instr.toFields, Fields.toInstr, accept, Fields.policy, Fields.wide, Fields.ofOp, Fields.ty,
    ovf_ofField_toField]

theorem fdiv (rd ra rb : RegField) (ty : TypeFields) (el : Bool) (da db ea eb ed : Field16) : Statement (.fdiv rd ra rb ty el da db ea eb ed) := by
  simp [Statement, Instr.toFields, Fields.toInstr, accept, Fields.policy, Fields.wide, Fields.ofOp, Fields.ty,
    ovf_ofField_toField]

theorem fcvt (rd ra : RegField) (ty : TypeFields) (ss : Bool) (ea ed : Field16) : Statement (.fcvt rd ra ty ss ea ed) := by
  simp [Statement, Instr.toFields, Fields.toInstr, accept, Fields.policy, Fields.wide, Fields.ofOp, Fields.ty,
    Fields.noDigits, ovf_ofField_toField]

theorem fqnt (rd ra rb : RegField) (ty : TypeFields) (ed : Field16) : Statement (.fqnt rd ra rb ty ed) := by
  simp [Statement, Instr.toFields, Fields.toInstr, accept, Fields.policy, Fields.wide, Fields.ofOp, Fields.ty,
    Fields.noDigits, Fields.noExps, Fields.noData, ovf_ofField_toField]

end Laws.FieldRoundTrip

end Sys2Proof
end

