-- ==== Sys2Proof/Laws/Rounding.lean ====
section
/-! SUPPORT. Bounds of the rounding unit: a rounded quotient is no larger in magnitude than its dividend. -/

namespace Sys2Proof.Machine

theorem roundFraction_bounds (fl rem q : Int) (neg : Bool) (tag : Rnd) :
    fl ≤ roundFraction fl rem q neg tag ∧ roundFraction fl rem q neg tag ≤ fl + 1 := by
  cases tag <;> simp only [roundFraction] <;> (try split_ifs) <;> constructor <;> omega

/-- By a positive divisor the rounded quotient lies between 0 and the dividend. -/
theorem roundRatio_between {p q : Int} (tag : Rnd) (hq : 0 < q) :
    (0 ≤ p → 0 ≤ roundRatio p q tag ∧ roundRatio p q tag ≤ p) ∧
      (p ≤ 0 → p ≤ roundRatio p q tag ∧ roundRatio p q tag ≤ 0) := by
  have hb := roundFraction_bounds (p / q) (p % q) q (decide (p < 0)) tag
  have hlow : p ≤ 0 → p ≤ p / q := fun hp => by
    rw [Int.le_ediv_iff_mul_le hq]
    nlinarith
  have hhigh : p % q ≠ 0 → 0 ≤ p → p / q + 1 ≤ p := fun hm hp => by
    have h1 := Int.mul_ediv_add_emod p q
    have h2 := Int.emod_nonneg p hq.ne'
    have h3 : 0 ≤ p / q := Int.ediv_nonneg hp hq.le
    have h4 : 1 ≤ p % q := by omega
    nlinarith
  have hneg : p % q ≠ 0 → p ≤ 0 → p / q + 1 ≤ 0 := fun hm hp => by
    have h1 : p < 0 := lt_of_le_of_ne hp fun h => hm (by rw [h, Int.zero_emod])
    have := Int.ediv_neg_of_neg_of_pos h1 hq
    omega
  have hpos : 0 ≤ p → 0 ≤ p / q ∧ p / q ≤ p := fun hp => ⟨Int.ediv_nonneg hp hq.le, Int.ediv_le_self q hp⟩
  have hnonpos : p ≤ 0 → p / q ≤ 0 := fun hp => by
    have := Int.ediv_le_ediv hq hp
    rwa [Int.zero_ediv] at this
  simp only [roundRatio, if_neg (not_lt.2 hq.le)]
  split_ifs with h
  · exact ⟨hpos, fun hp => ⟨hlow hp, hnonpos hp⟩⟩
  · exact ⟨fun hp => ⟨(hpos hp).1.trans hb.1, hb.2.trans (hhigh h hp)⟩,
      fun hp => ⟨(hlow hp).trans hb.1, hb.2.trans (hneg h hp)⟩⟩

theorem roundRatio_neg_neg {p q : Int} (tag : Rnd) (hq : q < 0) :
    roundRatio p q tag = roundRatio (-p) (-q) tag := by
  simp only [roundRatio, if_pos hq, if_neg (not_lt.2 (neg_nonneg.2 hq.le))]

/-- The magnitude of a rounded quotient is at most the dividend's, whatever the tag. -/
theorem abs_roundRatio_le {p q : Int} (tag : Rnd) (hq : q ≠ 0) : |roundRatio p q tag| ≤ |p| := by
  have key : ∀ {p q : Int}, 0 < q → |roundRatio p q tag| ≤ |p| := fun {p q} h => by
    have hb := roundRatio_between (p := p) tag h
    rcases le_total 0 p with hp | hp
    · rw [abs_of_nonneg hp, abs_of_nonneg (hb.1 hp).1]
      exact (hb.1 hp).2
    · rw [abs_of_nonpos hp, abs_of_nonpos (hb.2 hp).2]
      exact neg_le_neg (hb.2 hp).1
  rcases lt_or_gt_of_ne hq with h | h
  · rw [roundRatio_neg_neg tag h, ← abs_neg p]
    exact key (neg_pos.2 h)
  · exact key h

end Sys2Proof.Machine
end

