-- ==== Sys2Proof/Machine/Assembler.lean ====
section
/-! DEFINITION. The assembler syntax and the pseudo-commands (30_encoding.md R86, R87): from a line of text to a
command word. It is how the spec writes programs down; the machine never runs it. What R86 leaves open is
settled here, each point marked DESIGN CHOICE where it is settled and listed in log 12. -/

namespace Sys2Proof.Machine

/-- An option of a line (30_encoding.md R86). `dd` is also what `d=` and `ds=` write (see `readValueOption`). -/
inductive AsmOption
  | s | u | ss | su | el
  | rnd (t : Rnd)
  | ovf (o : Ovf)
  | dd (n : Nat)
  | da (n : Nat)
  | db (n : Nat)
  | sh (n : Nat)
  | ea (e : Int)
  | eb (e : Int)
  | ed (e : Int)
  | k (n : Nat)
  | csr (n : Nat)
  | kind (n : Nat)
  | data (x : Int)
deriving DecidableEq, Repr

/-- A line: mnemonic, registers in the order written, options (30_encoding.md R86). -/
structure AsmLine where
  mnemonic : List Char
  regs : List Nat
  options : List AsmOption
deriving DecidableEq, Repr

/-- Whether a command's `S` must be written, may be written, or is not a field of it (30_encoding.md R86). -/
inductive SignOption
  | mustWrite
  | mayWrite
  | absent
deriving DecidableEq, Repr

/-- How a command is written: opcode, register operands it uses, its `S`, whether it carries a policy
(`rnd` and `ovf`, both required), and which other options name a field it has. -/
structure AsmForm where
  op : BitVec 8
  usesRd : Bool
  usesRa : Bool
  usesRb : Bool
  sign : SignOption
  policy : Bool
  extra : List (List Char)
deriving DecidableEq, Repr

/-- The name of an option as a field (30_encoding.md R86, R75). -/
def optionName : AsmOption → List Char
  | .s => ['s', '/', 'u']
  | .u => ['s', '/', 'u']
  | .ss => ['s', 's', '/', 's', 'u']
  | .su => ['s', 's', '/', 's', 'u']
  | .el => ['e', 'l']
  | .rnd _ => ['r', 'n', 'd']
  | .ovf _ => ['o', 'v', 'f']
  | .dd _ => ['d', 'd']
  | .da _ => ['d', 'a']
  | .db _ => ['d', 'b']
  | .sh _ => ['s', 'h']
  | .ea _ => ['e', 'a']
  | .eb _ => ['e', 'b']
  | .ed _ => ['e', 'd']
  | .k _ => ['k']
  | .csr _ => ['c', 's', 'r']
  | .kind _ => ['k', 'i', 'n', 'd']
  | .data _ => ['d', 'a', 't', 'a']

/-- The form of each mnemonic: opcode and used fields of 30_encoding.md R79, operand order of R86. -/
def asmForms : List (List Char × AsmForm) :=
  let el := ['e', 'l']; let dd := ['d', 'd']; let da := ['d', 'a']; let db := ['d', 'b']; let sh := ['s', 'h']
  let ea := ['e', 'a']; let eb := ['e', 'b']; let ed := ['e', 'd']; let k := ['k']
  let csr := ['c', 's', 'r']; let kind := ['k', 'i', 'n', 'd']; let data := ['d', 'a', 't', 'a']
  let wide (op : BitVec 8) (sg : SignOption) (extra : List (List Char)) : AsmForm := ⟨op, true, true, true, sg, false, extra⟩
  let wide1 (op : BitVec 8) (sg : SignOption) (extra : List (List Char)) : AsmForm := ⟨op, true, true, false, sg, false, extra⟩
  let pol (op : BitVec 8) (extra : List (List Char)) : AsmForm := ⟨op, true, true, true, .mustWrite, true, extra⟩
  let pol1 (op : BitVec 8) (extra : List (List Char)) : AsmForm := ⟨op, true, true, false, .mustWrite, true, extra⟩
  [("NOP".toList, ⟨0x00, false, false, false, .absent, false, []⟩),
   ("LDI".toList, ⟨0x01, true, false, false, .mustWrite, false, [dd, data]⟩),
   ("LDW".toList, ⟨0x02, true, false, false, .absent, false, [k, data]⟩),
   ("RDW".toList, ⟨0x03, false, true, false, .absent, false, [k]⟩),
   ("RDC".toList, ⟨0x04, false, false, false, .absent, false, [csr]⟩),
   ("WADD".toList, wide 0x10 .mayWrite []),
   ("WSUB".toList, wide 0x11 .mayWrite []),
   ("WMUL".toList, wide 0x12 .mayWrite []),
   ("WDIV".toList, wide 0x13 .mustWrite []),
   ("WMOD".toList, wide 0x14 .mustWrite []),
   ("WSHL".toList, wide1 0x15 .mayWrite [sh]),
   ("WSHR".toList, wide1 0x16 .mustWrite [sh]),
   ("WCMP".toList, ⟨0x17, false, true, true, .mustWrite, false, []⟩),
   ("WEXT".toList, wide1 0x18 .mustWrite [dd]),
   ("WLIM".toList, ⟨0x19, true, false, false, .mustWrite, false, [dd, kind]⟩)] ++
  [("PADD".toList, pol 0x20 [el, dd, da, db]),
   ("PSUB".toList, pol 0x21 [el, dd, da, db]),
   ("PMUL".toList, pol 0x22 [el, dd, da, db]),
   ("PDIV".toList, pol 0x23 [el, dd, da, db]),
   ("PSHL".toList, pol1 0x24 [el, dd, da, sh]),
   ("PSHR".toList, pol1 0x25 [el, dd, da, sh]),
   ("FADD".toList, pol 0x30 [el, dd, da, db, ea, eb]),
   ("FSUB".toList, pol 0x31 [el, dd, da, db, ea, eb]),
   ("FMUL".toList, pol 0x32 [el, dd, da, db, ea, eb]),
   ("FDIV".toList, pol 0x33 [el, dd, da, db, ea, eb, ed]),
   ("FCVT".toList, pol1 0x34 [['s', 's', '/', 's', 'u'], dd, ea, ed]),
   ("FQNT".toList, pol 0x35 [dd, ed])]

/-- The form of a mnemonic. -/
def formOf (m : List Char) : Option AsmForm := (asmForms.find? fun f => f.1 == m).map Prod.snd

/-- A pseudo-command as the real command it abbreviates (30_encoding.md R87); any other line is itself. -/
def expandPseudo (p : Params) (l : AsmLine) : AsmLine :=
  let sourceSign : List AsmOption :=
    if l.options.contains .s then [.ss] else if l.options.contains .u then [.su] else []
  if l.mnemonic = "MOV".toList then ⟨"WEXT".toList, l.regs, l.options ++ [.u, .dd p.nw]⟩
  else if l.mnemonic = "SEXT".toList then ⟨"WEXT".toList, l.regs, l.options ++ [.s]⟩
  else if l.mnemonic = "ZEXT".toList then ⟨"WEXT".toList, l.regs, l.options ++ [.u]⟩
  else if l.mnemonic = "LDZ".toList then ⟨"LDI".toList, l.regs, l.options ++ [.u, .dd 1, .data 0]⟩
  else if l.mnemonic = "PRND".toList then ⟨"PSHR".toList, l.regs, l.options⟩
  else if l.mnemonic = "POVF".toList then ⟨"FCVT".toList, l.regs, l.options ++ sourceSign ++ [.ea 0, .ed 0]⟩
  else if l.mnemonic = "QNTI".toList then ⟨"FCVT".toList, l.regs, l.options ++ sourceSign ++ [.ea 0]⟩
  else l

/-- A number that fits a 16-bit unsigned field. DESIGN CHOICE (log 12): one that does not fit is refused. -/
def unsigned16 (n : Nat) : Option Field16 := if n < 65536 then some (BitVec.ofNat 16 n) else none

/-- An exponent that fits a 16-bit two's-complement field (30_encoding.md R75). DESIGN CHOICE (log 12): one that does
not fit is refused. -/
def signed16 (e : Int) : Option Field16 :=
  if -32768 ≤ e ∧ e ≤ 32767 then some (BitVec.ofInt 16 e) else none

/-- The fields with one option applied; `signed` says whether the line has `s`, which a negative `data`
needs (30_encoding.md R86). DESIGN CHOICE (log 12): `data` is refused below `-2^63` and from `2^64` on. -/
def applyOption (signed : Bool) (f : Fields) : AsmOption → Option Fields
  | .s => some { f with s := true }
  | .u => some { f with s := false }
  | .ss => some { f with ss := true }
  | .su => some { f with ss := false }
  | .el => some { f with el := true }
  | .rnd t => some { f with rnd := match t with | .te => 0 | .ta => 1 | .tz => 2 | .tn => 3 | .nat => 4 }
  | .ovf o => some { f with ovf := o.toField }
  | .dd n => (unsigned16 n).map fun x => { f with dd := x }
  | .da n => (unsigned16 n).map fun x => { f with da := x }
  | .db n => (unsigned16 n).map fun x => { f with db := x }
  | .sh n => (unsigned16 n).map fun x => { f with imm := x }
  | .ea e => (signed16 e).map fun x => { f with ea := x }
  | .eb e => (signed16 e).map fun x => { f with eb := x }
  | .ed e => (signed16 e).map fun x => { f with imm := x }
  | .k n => (unsigned16 n).map fun x => { f with imm := x }
  | .csr n => (unsigned16 n).map fun x => { f with imm := x }
  | .kind n => (unsigned16 n).map fun x => { f with imm := x }
  | .data x =>
      if (0 ≤ x ∧ x < 2 ^ 64) ∨ (signed ∧ -(2 ^ 63) ≤ x ∧ x < 0) then some (f.withData (BitVec.ofInt 64 x)) else none

/-- The options applied from the left. -/
def applyOptions (signed : Bool) (f : Fields) : List AsmOption → Option Fields
  | [] => some f
  | o :: os => (applyOption signed f o).bind fun g => applyOptions signed g os

/-- The registers in the order RD, RA, RB, only those the command uses (30_encoding.md R86). -/
def placeRegs (form : AsmForm) (f : Fields) (regs : List Nat) : Option Fields :=
  if regs.all (fun r => decide (r ≤ 15)) then
    let r (k : Nat) : RegField := BitVec.ofNat 4 (regs.getD k 0)
    match form.usesRd, form.usesRa, form.usesRb, regs.length with
    | false, false, false, 0 => some f
    | true, false, false, 1 => some { f with rd := r 0 }
    | false, true, false, 1 => some { f with ra := r 0 }
    | true, true, false, 2 => some { f with rd := r 0, ra := r 1 }
    | false, true, true, 2 => some { f with ra := r 0, rb := r 1 }
    | true, true, true, 3 => some { f with rd := r 0, ra := r 1, rb := r 2 }
    | _, _, _, _ => none
  else none

/-- Whether the options fit the command: the required ones are there, and `da`, `db` come with `el` (30_encoding.md
R86). DESIGN CHOICE (log 12): an option that names no field of the command, or that is written twice, is refused. -/
def optionsFit (form : AsmForm) (os : List AsmOption) : Bool :=
  let names := os.map optionName
  let sign := ['s', '/', 'u']; let ss := ['s', 's', '/', 's', 'u']
  let rnd := ['r', 'n', 'd']; let ovf := ['o', 'v', 'f']; let el := ['e', 'l']
  let allowed := (if form.sign = .absent then [] else [sign]) ++ (if form.policy then [rnd, ovf] else []) ++ form.extra
  names.all allowed.contains && decide names.Nodup && (form.sign != .mustWrite || names.contains sign) &&
    (!form.policy || (names.contains rnd && names.contains ovf)) && (!form.extra.contains ss || names.contains ss) &&
    (names.contains el || (!names.contains ['d', 'a'] && !names.contains ['d', 'b']))

/-- The command word of a line (30_encoding.md R86, R87); `none` where the assembler refuses it. -/
def assemble (p : Params) (line : AsmLine) : Option CmdWord :=
  let l := expandPseudo p line
  (formOf l.mnemonic).bind fun form =>
    if optionsFit form l.options then
      ((placeRegs form (Fields.ofOp form.op) l.regs).bind fun f =>
        applyOptions (l.options.contains .s) f l.options).map Fields.toWord
    else none

/-! ### The text of a line -/

/-- The value of a digit in base `base` (10 or 16). -/
def digitValue (base : Nat) (c : Char) : Option Nat :=
  let v : Option Nat :=
    if '0' ≤ c ∧ c ≤ '9' then some (c.toNat - '0'.toNat)
    else if 'a' ≤ c ∧ c ≤ 'f' then some (c.toNat - 'a'.toNat + 10)
    else if 'A' ≤ c ∧ c ≤ 'F' then some (c.toNat - 'A'.toNat + 10)
    else none
  v.bind fun n => if n < base then some n else none

/-- Digits read from the left. DESIGN CHOICE (log 12): leading zeros are read. -/
def readDigits (base acc : Nat) : List Char → Option Nat
  | [] => some acc
  | c :: cs => (digitValue base c).bind fun v => readDigits base (base * acc + v) cs

/-- An unsigned number, decimal unless prefixed `0x` (30_encoding.md R86). -/
def readNat : List Char → Option Nat
  | [] => none
  | '0' :: 'x' :: c :: cs => readDigits 16 0 (c :: cs)
  | c :: cs => readDigits 10 0 (c :: cs)

/-- A number that may be a negative decimal (30_encoding.md R86). DESIGN CHOICE (log 12): a `0x` number is taken
wherever a number stands, an exponent too, and never with a sign before it. -/
def readInt : List Char → Option Int
  | '-' :: c :: cs => (readDigits 10 0 (c :: cs)).map fun n => -(n : Int)
  | cs => (readNat cs).map Int.ofNat

/-- The rounding tag a word names (30_encoding.md R86). -/
def readRnd (cs : List Char) : Option Rnd :=
  if cs = ['t', 'e'] then some .te else if cs = ['t', 'a'] then some .ta else if cs = ['t', 'z'] then some .tz
  else if cs = ['t', 'n'] then some .tn else if cs = ['n', 'a', 't'] then some .nat else none

/-- The overflow tag a word names (30_encoding.md R86). -/
def readOvf (cs : List Char) : Option Ovf :=
  if cs = "wrap".toList then some .wrap else if cs = "sat".toList then some .sat
  else if cs = "chk".toList then some .chk else if cs = "und".toList then some .und else none

/-- The CSR number a name stands for (30_encoding.md R86). -/
def readCsr (cs : List Char) : Option Nat :=
  if cs = "status".toList then some 0 else if cs = "flags".toList then some 1
  else if cs = "rtype".toList then some 2 else if cs = "params".toList then some 3 else none

/-- The limit kind a name stands for (30_encoding.md R86). -/
def readKind (cs : List Char) : Option Nat :=
  if cs = "min".toList then some 0 else if cs = "max".toList then some 1
  else if cs = "lowest".toList then some 2 else none

/-- An option of the form `name=value` (30_encoding.md R86). R86 gives the spellings `d=` for WEXT and WLIM and `ds=`
for LDI, and does not say whether another command takes them. DESIGN CHOICE (log 12): `dd=`, `d=` and `ds=` are one
option, which every command with a `DD` field takes under any of the three spellings. -/
def readValueOption (name value : List Char) : Option AsmOption :=
  if name = "rnd".toList then (readRnd value).map .rnd
  else if name = "ovf".toList then (readOvf value).map .ovf
  else if name = "dd".toList ∨ name = "d".toList ∨ name = "ds".toList then (readNat value).map .dd
  else if name = "da".toList then (readNat value).map .da
  else if name = "db".toList then (readNat value).map .db
  else if name = "sh".toList then (readNat value).map .sh
  else if name = "ea".toList then (readInt value).map .ea
  else if name = "eb".toList then (readInt value).map .eb
  else if name = "ed".toList then (readInt value).map .ed
  else if name = "k".toList then (readNat value).map .k
  else if name = "csr".toList then (readCsr value).map .csr
  else if name = "kind".toList then (readKind value).map .kind
  else if name = "data".toList then (readInt value).map .data
  else none

/-- The part before and after the first `c`; `none` for the second where `c` does not occur. -/
def splitAtChar (c : Char) : List Char → List Char × Option (List Char)
  | [] => ([], none)
  | x :: xs =>
      if x = c then ([], some xs)
      else
        let r := splitAtChar c xs
        (x :: r.1, r.2)

/-- An option of a line (30_encoding.md R86). -/
def readOption (cs : List Char) : Option AsmOption :=
  match splitAtChar '=' cs with
  | (name, some value) => readValueOption name value
  | (name, none) =>
      if name = ['s'] then some .s else if name = ['u'] then some .u else if name = ['s', 's'] then some .ss
      else if name = ['s', 'u'] then some .su else if name = ['e', 'l'] then some .el else none

/-- A register operand `v0` to `v15` (10_state.md R20). -/
def readReg : List Char → Option Nat
  | 'v' :: c :: cs => readDigits 10 0 (c :: cs)
  | _ => none

/-- The items between commas. DESIGN CHOICE (log 12): blanks are dropped wherever they stand. -/
def splitItems : List Char → List (List Char)
  | [] => [[]]
  | c :: cs =>
      if c = ',' then [] :: splitItems cs
      else if c = ' ' then splitItems cs
      else
        match splitItems cs with
        | item :: rest => (c :: item) :: rest
        | [] => [[c]]

/-- Registers first, then options (30_encoding.md R86). -/
def readItems : List (List Char) → Option (List Nat × List AsmOption)
  | [] => some ([], [])
  | item :: items =>
      match readReg item with
      | some r => (readItems items).map fun x => (r :: x.1, x.2)
      | none =>
          (readOption item).bind fun o =>
            (readItems items).bind fun x => if x.1.isEmpty then some ([], o :: x.2) else none

/-- One line of assembler text (30_encoding.md R86). DESIGN CHOICE (log 12): the mnemonic ends at the first blank, and
letters are read as R86 writes them, mnemonics in capitals and the rest in small letters; only the digits of a `0x`
number may be either. -/
def readLine (text : List Char) : Option AsmLine :=
  match splitAtChar ' ' text with
  | (m, none) => some ⟨m, [], []⟩
  | (m, some rest) => (readItems (splitItems rest)).map fun x => ⟨m, x.1, x.2⟩

/-- The command word of a line of assembler text. -/
def assembleText (p : Params) (text : List Char) : Option CmdWord := (readLine text).bind (assemble p)

end Sys2Proof.Machine
end

