-- ==== Sys2Proof/Tests/Slice0.lean ====
section
/-! SUPPORT. Tests of the model. The expected values are the spec's: its example command words and its worked
examples (the rule is named beside each), never the model's own answers. The instance is `W=8, N=2, NREG=8`. -/

namespace Sys2Proof.Tests

open Sys2Proof.Machine

/-! ### Helpers -/

/-- The instance of the spec's examples. -/
def inst : Params := ⟨8, 2, 8⟩

/-- A valid register of that instance holding a 16-bit value. -/
def vreg (u : Nat) : VReg := [⟨u % 256, true⟩, ⟨u / 256, true⟩]

/-- After reset, with `v0`, `v1` ... holding the given values and every other register unwritten. -/
def sample (us : List Nat) : State :=
  { State.resetOf inst with regs := us.map vreg ++ List.replicate (8 - us.length) [⟨0, false⟩, ⟨0, false⟩] }

/-- The state after a command; `none` where it is no next state. -/
def after (i : Instr) (s : State) : Option State :=
  match exec i s with
  | .next t => some t
  | .fault _ => none
  | .refused _ => none

/-- What a test looks at after a command: the words of register 2, and the response. -/
def result (i : Instr) (us : List Nat) : Option (VReg × List Response) :=
  (after i (sample us)).map fun t => (t.reg 2, t.out)

/-- Success, and register 2 holds `u`. -/
def writes (u : Nat) : Option (VReg × List Response) := some (vreg u, [⟨0, 0⟩])

/-- Failure with the given code; register 2 stays unwritten. -/
def fails (code : BitVec 8) : Option (VReg × List Response) :=
  some ([⟨0, false⟩, ⟨0, false⟩], [⟨code, 0⟩])

/-- RTYPE after a command. -/
def typeAfter (i : Instr) (us : List Nat) : Option (BitVec 49) := (after i (sample us)).map State.rtype

/-! ### WellFormed refuses ill-formed terms (60_exceptions.md R233) -/

theorem test_wf_register : (Instr.ldi 8 false 8 0).legal inst = false := by decide
theorem test_wf_ldi_digits :
    (Instr.ldi 0 false 0 0).legal inst = false ∧ (Instr.ldi 0 false 65 0).legal inst = false := by decide
theorem test_wf_word_index : (Instr.ldw 0 2 0).legal inst = false ∧ (Instr.rdw 0 2).legal inst = false := by decide
theorem test_wf_word_data : (Instr.ldw 0 0 256).legal inst = false := by decide
theorem test_wf_csr : (Instr.rdc 4).legal inst = false := by decide
theorem test_wf_wext_digits :
    (Instr.wext 0 0 true 0).legal inst = false ∧ (Instr.wext 0 0 true 17).legal inst = false := by decide
theorem test_wf_kind : (Instr.wlim 0 true 8 3).legal inst = false := by decide
theorem test_wf_rounding : (Instr.padd 0 0 0 ⟨true, 5, .sat, 8⟩ false 0 0).legal inst = false := by decide
theorem test_wf_fixed_with_da : (Instr.padd 0 0 0 ⟨true, 0, .sat, 8⟩ false 1 0).legal inst = false := by decide
theorem test_wf_elastic_with_dd : (Instr.padd 0 0 0 ⟨true, 0, .sat, 8⟩ true 8 8).legal inst = false := by decide
theorem test_wf_elastic_without_db : (Instr.pmul 0 0 0 ⟨true, 0, .sat, 0⟩ true 8 0).legal inst = false := by decide
theorem test_wf_shift_digits :
    (Instr.pshl 0 0 ⟨true, 0, .sat, 0⟩ true 17 0).legal inst = false ∧
      (Instr.pshr 0 0 ⟨true, 0, .sat, 0⟩ false 0 1).legal inst = false := by decide
theorem test_wf_destination_digits : (Instr.fqnt 0 0 0 ⟨true, 0, .sat, 17⟩ 0).legal inst = false := by decide
theorem test_wf_capacity :
    (Instr.padd 0 0 0 ⟨true, 0, .sat, 0⟩ true 16 5).withinCapacity inst = false ∧
      (Instr.padd 0 0 0 ⟨true, 0, .sat, 0⟩ true 15 5).withinCapacity inst = true := by decide

/-! ### Decoding: the example command word of each rule of 40 to 43 -/

theorem test_decode_nop : decode 0x00000000000000000000000000000000 = some .nop := by decide
theorem test_decode_ldi : decode 0x00000000000000810000000800100101 = some (.ldi 1 true 8 0x81) := by decide
theorem test_decode_ldw : decode 0x00000000000000120001000000000002 = some (.ldw 0 1 0x12) := by decide
theorem test_decode_rdw : decode 0x00000000000000000001000000001003 = some (.rdw 1 1) := by decide
theorem test_decode_rdc : decode 0x00000000000000000003000000000004 = some (.rdc 3) := by decide
theorem test_decode_wadd : decode 0x00000000000000000000000000010210 = some (.wadd 2 0 1 false) := by decide
theorem test_decode_wsub : decode 0x00000000000000000000000000010211 = some (.wsub 2 0 1 false) := by decide
theorem test_decode_wmul : decode 0x00000000000000000000000000010212 = some (.wmul 2 0 1 false) := by decide
theorem test_decode_wdiv : decode 0x00000000000000000000000000110213 = some (.wdiv 2 0 1 true) := by decide
theorem test_decode_wmod : decode 0x00000000000000000000000000110214 = some (.wmod 2 0 1 true) := by decide
theorem test_decode_wshl : decode 0x00000000000000000009000000000215 = some (.wshl 2 0 false 9) := by decide
theorem test_decode_wshr : decode 0x00000000000000000009000000100216 = some (.wshr 2 0 true 9) := by decide
theorem test_decode_wcmp : decode 0x00000000000000000000000000110017 = some (.wcmp 0 1 true) := by decide
theorem test_decode_wext : decode 0x00000000000000000000000800100218 = some (.wext 2 0 true 8) := by decide
theorem test_decode_wlim : decode 0x00000000000000000001000800100219 = some (.wlim 2 true 8 1) := by decide
theorem test_decode_padd :
    decode 0x00000000000000000000000802910220 = some (.padd 2 0 1 ⟨true, 2, .sat, 8⟩ false 0 0) := by decide
theorem test_decode_psub :
    decode 0x00000000000000000000000802810221 = some (.psub 2 0 1 ⟨false, 2, .sat, 8⟩ false 0 0) := by decide
theorem test_decode_pmul :
    decode 0x00000000000000000000001002910222 = some (.pmul 2 0 1 ⟨true, 2, .sat, 16⟩ false 0 0) := by decide
theorem test_decode_pdiv :
    decode 0x00000000000000000000001002110223 = some (.pdiv 2 0 1 ⟨true, 0, .sat, 16⟩ false 0 0) := by decide
theorem test_decode_pshl :
    decode 0x00000000000000000001000802900224 = some (.pshl 2 0 ⟨true, 2, .sat, 8⟩ false 0 1) := by decide
theorem test_decode_pshr :
    decode 0x00000000000000000001001002500225 = some (.pshr 2 0 ⟨true, 1, .sat, 16⟩ false 0 1) := by decide
theorem test_decode_fadd :
    decode 0xFFFD0000000000000000001002910230 = some (.fadd 2 0 1 ⟨true, 2, .sat, 16⟩ false 0 0 0 0xFFFD) := by decide
theorem test_decode_fsub :
    decode 0xFFFD0000000000000000001002910231 = some (.fsub 2 0 1 ⟨true, 2, .sat, 16⟩ false 0 0 0 0xFFFD) := by decide
theorem test_decode_fmul :
    decode 0xFFFDFFFE000000000000001002910232 =
      some (.fmul 2 0 1 ⟨true, 2, .sat, 16⟩ false 0 0 0xFFFE 0xFFFD) := by decide
theorem test_decode_fdiv :
    decode 0x0000000000000000FFF8001002D10233 =
      some (.fdiv 2 0 1 ⟨true, 3, .sat, 16⟩ false 0 0 0 0 0xFFF8) := by decide
theorem test_decode_fcvt :
    decode 0x0000000000000000FFF800100A900234 = some (.fcvt 2 0 ⟨true, 2, .sat, 16⟩ true 0 0xFFF8) := by decide
theorem test_decode_fqnt :
    decode 0x0000000000000000FFFD000804110235 = some (.fqnt 2 0 1 ⟨true, 0, .chk, 8⟩ 0xFFFD) := by decide
/-- The word read field by field in section 0 of 95_test_vectors.md. -/
theorem test_decode_elastic :
    decode 0x0000FFFD000300080000000004B32531 =
      some (.fsub 5 2 3 ⟨true, 2, .chk, 0⟩ true 8 3 0xFFFD 0) := by decide
/-- 30_encoding.md R80: a reserved opcode, a nonzero RSV, RD of WCMP, RB of WSHL. -/
theorem test_decode_refuses :
    decode 0x05 = none ∧ decode 0x10000010 = none ∧ decode 0x00000117 = none ∧ decode 0x00010015 = none := by decide

/-- The encoder gives the word of the spec's example back. -/
theorem test_encode_fdiv :
    encode (.fdiv 2 0 1 ⟨true, 3, .sat, 16⟩ false 0 0 0 0 0xFFF8) = 0x0000000000000000FFF8001002D10233 := by decide

/-- `decodeTableWord` and `withFetchWord` on a table word. -/
theorem test_fetch :
    decodeTableWord 128 0x10210 = some (.wadd 2 0 1 false) ∧
      (State.reset.withFetchWord 128 0x10210).input = [.command 0x10210] := by decide

/-! ### One step of each command, on the examples of its rule -/

theorem test_nop : result .nop [] = some ([⟨0, false⟩, ⟨0, false⟩], [⟨0, 0⟩]) := by decide
/-- R104: `LDI s, ds=8, data=0x81` writes `[0x81, 0xFF]`. -/
theorem test_ldi_signed : result (.ldi 2 true 8 0x81) [] = writes 0xFF81 := by decide
/-- R104: DS above NW truncates, and `DATA[63:DS]` is not examined. -/
theorem test_ldi_truncates : result (.ldi 2 false 32 0xABCD12345678) [] = writes 0x5678 := by decide
/-- R106: one word is written and made valid. -/
theorem test_ldw : result (.ldw 2 1 0x12) [] = some ([⟨0, false⟩, ⟨0x12, true⟩], [⟨0, 0⟩]) := by decide
/-- R108: `RDW v1, k=1` responds `0xFF` after the LDI example. -/
theorem test_rdw : result (.rdw 1 1) [0, 0xFF81, 0] = some (vreg 0, [⟨0, 0xFF⟩]) := by decide
/-- R23: the word of a register nothing has written is UninitRead. -/
theorem test_rdw_uninit : result (.rdw 0 0) [] = fails 4 := by decide
/-- R112: PARAMS of the instance. -/
theorem test_rdc_params : result (.rdc 3) [0, 0, 0] = some (vreg 0, [⟨0, 0x08000208⟩]) := by decide
theorem test_rdc_illegal : result (.rdc 4) [] = fails 3 := by decide
/-- R122: the carry crosses from word 0 to word 1, and the sum wraps. -/
theorem test_wadd_carry : result (.wadd 2 0 1 false) [0x00FF, 0x0001] = writes 0x0100 := by decide
theorem test_wadd_wraps : result (.wadd 2 0 1 true) [0xFFFF, 0x0001] = writes 0 := by decide
/-- R125. -/
theorem test_wsub_borrow : result (.wsub 2 0 1 false) [0x0100, 0x0001] = writes 0x00FF := by decide
/-- R128. -/
theorem test_wmul : result (.wmul 2 0 1 false) [0x7FFF, 0x7FFF] = writes 0x0001 := by decide
/-- R132: -7 / 2 = -3, and 0x8000 / 0xFFFF wraps. -/
theorem test_wdiv : result (.wdiv 2 0 1 true) [0xFFF9, 0x0002] = writes 0xFFFD := by decide
theorem test_wdiv_wraps : result (.wdiv 2 0 1 true) [0x8000, 0xFFFF] = writes 0x8000 := by decide
/-- R134: 7 rem -2 = 1; a zero divisor raises DivideByZero. -/
theorem test_wmod : result (.wmod 2 0 1 true) [0x0007, 0xFFFE] = writes 0x0001 := by decide
theorem test_wmod_zero : result (.wmod 2 0 1 true) [0x0007, 0] = fails 1 := by decide
/-- R138: `SH = 9`, and `SH = 16` even when signed. -/
theorem test_wshl : result (.wshl 2 0 false 9) [0x0081] = writes 0x0200 := by decide
theorem test_wshl_all : result (.wshl 2 0 true 16) [0x8081] = writes 0 := by decide
/-- R140. -/
theorem test_wshr_signed : result (.wshr 2 0 true 9) [0x8000] = writes 0xFFC0 := by decide
theorem test_wshr_unsigned : result (.wshr 2 0 false 9) [0x8000] = writes 0x0040 := by decide
/-- R146: `0x8000` against `0x0001` is LT signed and GT unsigned. -/
theorem test_wcmp_signed : (after (.wcmp 0 1 true) (sample [0x8000, 1])).map (fun t => (t.flags, t.out)) =
    some (1, [⟨0, 1⟩]) := by decide
theorem test_wcmp_unsigned : (after (.wcmp 0 1 false) (sample [0x8000, 1])).map (fun t => (t.flags, t.out)) =
    some (4, [⟨0, 4⟩]) := by decide
/-- R149. -/
theorem test_wext_signed : result (.wext 2 0 true 8) [0x1281] = writes 0xFF81 := by decide
theorem test_wext_one_bit : result (.wext 2 0 true 1) [0x1281] = writes 0xFFFF := by decide
/-- R152. -/
theorem test_wlim_max : result (.wlim 2 true 12 1) [] = writes 0x07FF := by decide
theorem test_wlim_lowest : result (.wlim 2 true 12 2) [] = writes 0xF800 := by decide
/-- R174: SAT at 8 digits, and RTYPE. -/
theorem test_padd_sat : result (.padd 2 0 1 ⟨true, 2, .sat, 8⟩ false 0 0) [100, 100] = writes 0x007F := by decide
theorem test_padd_type :
    typeAfter (.padd 2 0 1 ⟨true, 2, .sat, 8⟩ false 0 0) [100, 100] = some 0x1000000000008 := by decide
/-- R176: unsigned 3 - 5 wraps at the elastic width. -/
theorem test_psub_elastic : result (.psub 2 0 1 ⟨false, 2, .wrap, 0⟩ true 8 8) [3, 5] = writes 0x01FE := by decide
theorem test_psub_chk : result (.psub 2 0 1 ⟨false, 2, .chk, 8⟩ false 0 0) [3, 5] = fails 2 := by decide
/-- R178. -/
theorem test_pmul_sat : result (.pmul 2 0 1 ⟨true, 2, .sat, 8⟩ false 0 0) [0xFF80, 127] = writes 0xFF80 := by decide
theorem test_pmul_capacity : result (.pmul 2 0 1 ⟨true, 2, .sat, 0⟩ true 9 8) [] = fails 5 := by decide
/-- R180: -7 / 2 under TE. -/
theorem test_pdiv_te : result (.pdiv 2 0 1 ⟨true, 0, .sat, 16⟩ false 0 0) [0xFFF9, 2] = writes 0xFFFC := by decide
theorem test_pdiv_zero : result (.pdiv 2 0 1 ⟨true, 0, .chk, 16⟩ false 0 0) [7, 0] = fails 1 := by decide
/-- R183. -/
theorem test_pshl_elastic : result (.pshl 2 0 ⟨true, 2, .chk, 0⟩ true 8 3) [127] = writes 0x03F8 := by decide
/-- R185: -5 >> 1 under TA, and under NAT. -/
theorem test_pshr_ta : result (.pshr 2 0 ⟨true, 1, .sat, 16⟩ false 0 1) [0xFFFB] = writes 0xFFFD := by decide
theorem test_pshr_te : result (.pshr 2 0 ⟨true, 0, .sat, 16⟩ false 0 1) [0xFFFB] = writes 0xFFFE := by decide
/-- R205: 12 @ 0 plus 5 @ -3, and RTYPE. -/
theorem test_fadd : result (.fadd 2 0 1 ⟨true, 2, .sat, 16⟩ false 0 0 0 0xFFFD) [12, 5] = writes 0x0065 := by decide
theorem test_fadd_type :
    typeAfter (.fadd 2 0 1 ⟨true, 2, .sat, 16⟩ false 0 0 0 0xFFFD) [12, 5] = some 0x1FFFFFFFD0010 := by decide
/-- R207: 5 @ -3 minus 12 @ 0, elastic. -/
theorem test_fsub : result (.fsub 2 0 1 ⟨true, 2, .chk, 0⟩ true 4 5 0xFFFD 0) [5, 12] = writes 0xFFA5 := by decide
/-- R209. -/
theorem test_fmul : result (.fmul 2 0 1 ⟨true, 2, .sat, 8⟩ false 0 0 0xFFFD 0xFFFC) [0xFF81, 24] = writes 0xFF80 := by
  decide
theorem test_fmul_type :
    typeAfter (.fmul 2 0 1 ⟨true, 2, .sat, 16⟩ false 0 0 0xFFFE 0xFFFD) [12, 5] = some 0x1FFFFFFFB0010 := by decide
/-- R210: -1 / 3 at exponent -8 under TN, and a negative shift. -/
theorem test_fdiv : result (.fdiv 2 0 1 ⟨true, 3, .sat, 16⟩ false 0 0 0 0 0xFFF8) [0xFFFF, 3] = writes 0xFFAA := by
  decide
theorem test_fdiv_coarser : result (.fdiv 2 0 1 ⟨true, 0, .sat, 8⟩ false 0 0 0 0 4) [100, 3] = writes 0x0002 := by decide
/-- R212: 150 to exponent -8 saturates; signed -1 into unsigned 8 digits wraps. -/
theorem test_fcvt : result (.fcvt 2 0 ⟨true, 2, .sat, 16⟩ true 0 0xFFF8) [150] = writes 0x7FFF := by decide
theorem test_fcvt_signedness : result (.fcvt 2 0 ⟨false, 2, .wrap, 8⟩ true 0 0) [0xFFFF] = writes 0x00FF := by decide
/-- R215: -127/8 at exponent -3; 5/16 at exponent -3 is a tie. -/
theorem test_fqnt : result (.fqnt 2 0 1 ⟨true, 0, .chk, 8⟩ 0xFFFD) [0xFF81, 8] = writes 0xFF81 := by decide
theorem test_fqnt_tie : result (.fqnt 2 0 1 ⟨true, 1, .chk, 8⟩ 0xFFFD) [5, 16] = writes 3 := by decide

/-! ### The worked failure sequence of 60_exceptions.md R257, step by step on STATUS -/

theorem test_status_uninit : recordFailure 0x0000 .uninitRead = 0x0408 := by decide
theorem test_status_divide : recordFailure 0x0408 .divideByZero = 0x0109 := by decide
theorem test_status_overflow : recordFailure 0x0109 .overflow = 0x020B := by decide
theorem test_status_illegal : recordFailure 0x020B .illegalCommand = 0x030F := by decide
theorem test_status_capacity : recordFailure 0x030F .capacityExceeded = 0x051F := by decide

/-- A word that is no command raises IllegalCommand in a step. -/
theorem test_step_undecodable :
    (match step (State.reset.present 0x05) with
      | .next t => (t.status, t.out)
      | .fault _ => (0, [])
      | .refused _ => (0, [])) = (0x0304, [⟨3, 0⟩]) := by decide

/-! ### The assembler (30_encoding.md R86, R87), on the lines and words of the spec -/

theorem test_assemble_padd :
    assembleText inst "PADD v2, v0, v1, s, rnd=tz, ovf=sat, dd=8".toList = some 0x00000000000000000000000802910220 := by
  decide +kernel
/-- `LDZ vD` is `LDI vD, u, ds=1, data=0`. -/
theorem test_assemble_ldz : assembleText inst "LDZ v3".toList = some (encode (.ldi 3 false 1 0)) := by decide +kernel

/-! ### Witnesses: states and operands that meet the premises of each statement that has any -/

/-- `v0 = 7`, `v1 = 2`, the rest unwritten. -/
def s72 : State := sample [7, 2]

/-- `v0 = 7`, `v1 = 0`. -/
def s70 : State := sample [7, 0]

/-- The sample with events to come. -/
def withInput (s : State) (es : List HostEvent) : State := { s with input := es }

/-- After a failure and a P command: every control register nonzero. -/
def sBusy : State := { s72 with flags := 4, status := 0x0408, rtype := rtypeOf true (-3) 16 }

theorem witness_inv : s72.Inv ∧ s70.Inv ∧ sBusy.Inv ∧ (sample []).Inv :=
  ⟨by decide, by decide, by decide, by decide⟩

theorem witness_EncodeOfDecode : decode 0x10210 = some (.wadd 2 0 1 false) := by decide

theorem witness_DecoderMatchesTheTable :
    decode 0x04 = some (.rdc 0) ∧ ∃ row ∈ opcodeTable, (0x04 : CmdWord) &&& row.mask = row.pattern := by decide

theorem witness_StepRunsTheDecodedCommand :
    (withInput s72 [.command 0x10210, .reset]).input = .command 0x10210 :: [.reset] ∧
      decode 0x10210 = some (.wadd 2 0 1 false) := by decide

theorem witness_UndecodableWordIsIllegal :
    (withInput s72 [.command 0x05]).input = .command 0x05 :: [] ∧ decode 0x05 = none ∧
      decode 0x10000000 = none ∧ decode 0x100 = none := by decide

theorem witness_IdleStepHoldsTheState : s72.input = [] := by decide

theorem witness_ResetEventClearsTheBlock :
    (withInput sBusy [.reset, .command 0]).input = .reset :: [.command 0] ∧ sBusy.params.Valid := by decide

/-- Both ends of every parameter's range. -/
theorem witness_ResetSatisfiesInv :
    (⟨1, 1, 1⟩ : Params).Valid ∧ (⟨64, 1, 16⟩ : Params).Valid ∧ (⟨1, 65535, 16⟩ : Params).Valid ∧
      ¬ (⟨65, 1, 1⟩ : Params).Valid ∧ ¬ (⟨2, 32768, 1⟩ : Params).Valid := by decide

/-- The invariant holds where a reset, a command, and a word that is no command come next, and after them. -/
theorem witness_StepKeepsInv :
    (withInput sBusy [.reset]).Inv ∧ (withInput sBusy [.command 0x10210]).Inv ∧
      ∃ t, step (withInput sBusy [.command 0x10210]) = .next t ∧ t.reg 2 = vreg 9 := by
  exact ⟨by decide, by decide, _, rfl, by decide⟩

theorem witness_OneResponsePerCommand : s72.input = [] ∧ [(0x10210 : CmdWord), 0x05].length = 2 := by decide

/-- One case for each arm of the priority: IllegalCommand, CapacityExceeded, and then the four left. -/
theorem witness_FailurePriority :
    (Instr.rdc 4).legal s72.params = false ∧
      ((Instr.padd 2 0 1 ⟨true, 0, .chk, 0⟩ true 16 16).legal s72.params = true ∧
        (Instr.padd 2 0 1 ⟨true, 0, .chk, 0⟩ true 16 16).withinCapacity s72.params = false) ∧
      ((Instr.wadd 2 0 3 false).wellFormed s72.params = true ∧ ¬ s72.Sourced (.wadd 2 0 3 false)) ∧
      ((Instr.wdiv 2 0 1 true).wellFormed s70.params = true ∧ s70.Sourced (.wdiv 2 0 1 true) ∧
        s70.DividesByZero (.wdiv 2 0 1 true)) ∧
      ((Instr.wdiv 2 0 1 true).wellFormed s72.params = true ∧ s72.Sourced (.wdiv 2 0 1 true) ∧
        ¬ s72.DividesByZero (.wdiv 2 0 1 true)) ∧
      (Instr.pshl 2 0 ⟨true, 0, .chk, 8⟩ false 0 5).wellFormed s72.params = true ∧
        result (.pshl 2 0 ⟨true, 0, .chk, 8⟩ false 0 5) [7, 2] = fails 2 := by
  refine ⟨by decide, by decide, ⟨by decide, ?_⟩, ⟨by decide, ?_, 1, true, rfl, by decide⟩, ⟨by decide, ?_, ?_⟩,
    by decide, by decide⟩
  · rw [sourced_iff]; decide
  · rw [sourced_iff]; decide
  · rw [sourced_iff]; decide
  · rintro ⟨r, sg, h, h0⟩
    simp only [divisorOf, Option.some.injEq, Prod.mk.injEq] at h
    obtain ⟨rfl, rfl⟩ := h
    revert h0
    decide

/-- The first register number that is out of range, in each of the three fields. -/
theorem witness_RegisterFieldRange :
    (8 : RegField) ∈ usedRegs (.wadd 8 0 1 false) ∧ (8 : RegField) ∈ usedRegs (.wadd 0 8 1 false) ∧
      (8 : RegField) ∈ usedRegs (.wadd 0 1 8 false) ∧ (8 : RegField) ∈ usedRegs (.rdw 8 0) ∧
      s72.params.nreg ≤ (8 : RegField).toNat := by decide

theorem witness_OnlyCompareWritesFlags :
    (∀ ra rb sg, Instr.wadd 2 0 1 false ≠ .wcmp ra rb sg) ∧ ∃ t, exec (.wadd 2 0 1 false) sBusy = .next t ∧ t.flags = 4 :=
  ⟨by intros; exact Instr.noConfusion, _, rfl, by decide⟩

/-- A W command; a failing P command; a P and an F command that succeed. -/
theorem witness_RtypeIsWrittenByTypedCommands :
    (formatOf (.wadd 2 0 1 false) = .w ∧ ∃ t, exec (.wadd 2 0 1 false) sBusy = .next t ∧ t.rtype = sBusy.rtype) ∧
      (∃ t, exec (.pdiv 2 0 1 ⟨true, 0, .chk, 16⟩ false 0 0) s70 = .next t ∧
        t.out = s70.out ++ [⟨1, 0⟩] ∧ (1 : BitVec 8) ≠ 0) ∧
      (formatOf (.padd 2 0 1 ⟨true, 0, .chk, 16⟩ false 0 0) = .p ∧
        ∃ t, exec (.padd 2 0 1 ⟨true, 0, .chk, 16⟩ false 0 0) s72 = .next t ∧ Succeeds s72 t 0 ∧ rtypeDigits t.rtype = 16) ∧
      (formatOf (.fmul 2 0 1 ⟨false, 0, .chk, 1⟩ false 0 0 0x8000 0x8000) = .f ∧
        ∃ t, exec (.fmul 2 0 1 ⟨false, 0, .wrap, 1⟩ false 0 0 0x8000 0x8000) s72 = .next t ∧ Succeeds s72 t 0 ∧
          rtypeExp t.rtype = -65536) :=
  ⟨⟨rfl, _, rfl, by decide⟩, ⟨_, rfl, by decide, by decide⟩,
    ⟨rfl, _, rfl, ⟨by decide, by decide, by decide, by decide⟩, by decide⟩,
    ⟨rfl, _, rfl, ⟨by decide, by decide, by decide, by decide⟩, by decide⟩⟩

theorem witness_StickyBitsStay :
    ∃ t, step (withInput sBusy [.command 0x05]) = .next t ∧ (∀ rest, (withInput sBusy [.command 0x05]).input ≠ .reset :: rest) ∧
      sBusy.status.getLsbD 3 = true ∧ t.status = 0x030C :=
  ⟨_, rfl, by intro rest h; simp [withInput] at h, by decide, by decide⟩

theorem witness_CommandsKeepValidBits :
    s72.Inv ∧ (s72.reg 0)[1]? = some ⟨0, true⟩ ∧ ∃ t, exec (.ldw 0 0 5) s72 = .next t ∧ (t.reg 0)[1]? = some ⟨0, true⟩ :=
  ⟨by decide, by decide, _, rfl, by decide⟩

theorem witness_OnlyTheDestinationChanges :
    destOf (.wadd 2 0 1 false) ≠ some 1 ∧ ∃ t, exec (.wadd 2 0 1 false) s72 = .next t ∧ t.reg 1 = vreg 2 :=
  ⟨by decide, _, rfl, by decide⟩

/-- Values at both ends of the signed range and beyond the unsigned one. -/
theorem witness_ValueOfAWrittenRegister :
    s72.params.Valid ∧ (s72.setReg 2 (-32768)).Holds 2 (-32768) ∧ (s72.setReg 2 32767).Holds 2 32767 ∧
      (s72.setReg 2 65536).Holds 2 65536 :=
  ⟨by decide, setReg_holds _ (by decide), setReg_holds _ (by decide), setReg_holds _ (by decide)⟩

theorem witness_RangeFunctions : 1 ≤ 1 ∧ fits (-1) 1 true = true ∧ fits 0 1 true = true ∧ fits 1 1 true = false := by decide

/-- A tie, on either side of zero, and a tag other than NAT. -/
theorem witness_RoundingTags :
    (2 : Int) ≠ 0 ∧ (-2 : Int) ≠ 0 ∧ |((5 : Int) / (2 : Int) : ℚ) - roundRatio 5 2 .te| = 1 / 2 ∧
      |((5 : Int) / (2 : Int) : ℚ) - roundRatio 5 2 .ta| = 1 / 2 ∧ Rnd.tn ≠ .nat := by
  refine ⟨by decide, by decide, ?_, ?_, by decide⟩
  · rw [show roundRatio 5 2 .te = 2 by decide]; norm_num
  · rw [show roundRatio 5 2 .ta = 3 by decide]; norm_num

theorem witness_TruncatingDivision : (-2 : Int) ≠ 0 ∧ (2 : Int) ≠ 0 := by decide

/-- The bounds of `DS`. -/
theorem witness_LdiCompletes :
    s72.Inv ∧ (7 : RegField).toNat < s72.params.nreg ∧ 1 ≤ (1 : Field16).toNat ∧ (64 : Field16).toNat ≤ 64 := by decide

theorem witness_LdwCompletes :
    s72.Inv ∧ (7 : RegField).toNat < s72.params.nreg ∧ (1 : Field16).toNat < s72.params.n ∧
      (255 : Data64).toNat < 2 ^ s72.params.w := by decide

theorem witness_RdwCompletes :
    s72.Inv ∧ (0 : RegField).toNat < s72.params.nreg ∧ (1 : Field16).toNat < s72.params.n ∧
      (s72.reg 0)[(1 : Field16).toNat]? = some ⟨0, true⟩ := by decide

/-- One number for each clause, the first illegal one among them. -/
theorem witness_RdcCompletes :
    sBusy.Inv ∧ (0 : Field16).toNat = 0 ∧ (1 : Field16).toNat = 1 ∧ (2 : Field16).toNat = 2 ∧ (3 : Field16).toNat = 3 ∧
      3 < (4 : Field16).toNat := by decide

/-- The premises of every W statement on two sources; the destination is a source as well. -/
theorem witness_WideSumsComplete :
    s72.Inv ∧ (0 : RegField).toNat < s72.params.nreg ∧ (1 : RegField).toNat < s72.params.nreg ∧
      s72.readable 0 = true ∧ s72.readable 1 = true := by decide

theorem witness_WideSumsIgnoreSignedness :
    (sample [0xFFFF, 0x8000]).Inv ∧ (∀ r ∈ [(0 : RegField), 1, 2], r.toNat < (sample [0xFFFF, 0x8000]).params.nreg) ∧
      (sample [0xFFFF, 0x8000]).readable 0 = true ∧
      (sample [0xFFFF, 0x8000]).readable 1 = true ∧
      ∃ t, exec (.wmul 2 0 1 true) (sample [0xFFFF, 0x8000]) = .next t ∧ t.reg 2 = vreg 0x8000 :=
  ⟨by decide, by decide, by decide, by decide, _, rfl, by decide⟩

/-- A nonzero and a zero divisor. -/
theorem witness_WideDivisionCompletes :
    s72.Inv ∧ s70.Inv ∧ (∀ r ∈ [(0 : RegField), 1, 2], r.toNat < s72.params.nreg) ∧
      s72.readable 0 = true ∧ s72.readable 1 = true ∧ s72.valOf 1 true ≠ 0 ∧ s70.readable 0 = true ∧ s70.readable 1 = true ∧ s70.valOf 1 true = 0 :=
  ⟨by decide, by decide, by decide⟩

/-- The shift amounts at and below the total width. -/
theorem witness_WideShiftsComplete :
    s72.Inv ∧ (∀ r ∈ [(0 : RegField), 1, 2], r.toNat < s72.params.nreg) ∧
      s72.readable 0 = true ∧ s72.params.nw ≤ (16 : Field16).toNat ∧ ¬ s72.params.nw ≤ (15 : Field16).toNat := by
  decide

/-- Less, equal and greater. -/
theorem witness_CompareCompletes :
    s72.Inv ∧ (∀ r ∈ [(0 : RegField), 1, 2], r.toNat < s72.params.nreg) ∧
      s72.readable 0 = true ∧ s72.readable 1 = true ∧ s72.valOf 1 true < s72.valOf 0 true ∧
      s72.valOf 0 true = s72.valOf 0 true ∧ (sample [0x8000, 1]).valOf 0 true < (sample [0x8000, 1]).valOf 1 true := by
  decide

/-- Both ends of the digit count. -/
theorem witness_ExtendCompletes :
    s72.Inv ∧ (∀ r ∈ [(0 : RegField), 1, 2], r.toNat < s72.params.nreg) ∧
      s72.readable 0 = true ∧ 1 ≤ (1 : Field16).toNat ∧ (1 : Field16).toNat ≤ s72.params.nw ∧
       (16 : Field16).toNat = s72.params.nw := by decide

/-- One KIND for each clause. -/
theorem witness_LimitsComplete :
    s72.Inv ∧ (∀ r ∈ [(0 : RegField), 1, 2], r.toNat < s72.params.nreg) ∧
      1 ≤ (16 : Field16).toNat ∧ (16 : Field16).toNat ≤ s72.params.nw ∧ (0 : Field16).toNat = 0 ∧
      (1 : Field16).toNat = 1 ∧ (2 : Field16).toNat = 2 ∧ 2 < (3 : Field16).toNat := by decide

theorem witness_AddThenSubtract :
    s72.Inv ∧ (∀ r ∈ [(0 : RegField), 1, 2], r.toNat < s72.params.nreg) ∧
      s72.readable 0 = true ∧ s72.readable 1 = true ∧ (0 : RegField) ≠ 1 := by decide

theorem witness_MultiplyThenDivide :
    s72.Inv ∧ (∀ r ∈ [(0 : RegField), 1, 2], r.toNat < s72.params.nreg) ∧
      s72.readable 0 = true ∧ s72.readable 1 = true ∧ (2 : RegField) ≠ 1 ∧ s72.valOf 1 true ≠ 0 ∧
      fits (s72.valOf 0 true * s72.valOf 1 true) s72.params.nw true = true := by decide

theorem witness_CarryAndBorrowChains :
    [0xFF, 0x00].length = inst.n ∧ (∀ v ∈ [0xFF, 0x00], v < 2 ^ inst.w) ∧ (∀ v ∈ [0x01, 0xFF], v < 2 ^ inst.w) := by decide

theorem witness_SchoolbookMultiply :
    [0xFF, 0xFF].length = inst.n ∧ (∀ v ∈ [0xFF, 0xFF], v < 2 ^ inst.w) := by decide

/-- The least signed value of 16 bits needs a 16-bit magnitude. -/
theorem witness_LongDivision : (-1 : Int) ≠ 0 ∧ |(-32768 : Int)| < 2 ^ 16 := by decide

theorem witness_WordShifts : inst.Valid ∧ [0x00, 0x80].length = inst.n ∧ ∀ v ∈ [0x00, 0x80], v < 2 ^ inst.w := by decide

theorem witness_WordComparator :
    inst.Valid ∧ [0x00, 0x80].length = inst.n ∧ (∀ v ∈ [0x00, 0x80], v < 2 ^ inst.w) ∧ ∀ v ∈ [0x01, 0x00], v < 2 ^ inst.w := by
  decide

/-- Fixed and elastic forms; a sum that fits under CHK, and results that do not. -/
theorem witness_PolicySumsComplete :
    s72.Inv ∧ s72.readable 0 = true ∧ s72.readable 1 = true ∧ s72.valOf 0 true = 7 ∧ s72.valOf 1 true = 2 ∧
      (Instr.padd 2 0 1 ⟨true, 0, .chk, 4⟩ false 0 0).wellFormed s72.params = true ∧
      (Instr.psub 2 0 1 ⟨true, 0, .chk, 4⟩ false 0 0).wellFormed s72.params = true ∧
      (Instr.pmul 2 0 1 ⟨true, 0, .chk, 0⟩ true 8 8).wellFormed s72.params = true ∧
      (Instr.pmul 2 0 1 ⟨true, 0, .chk, 4⟩ false 0 0).wellFormed s72.params = true ∧
      fits (7 - 2) 4 true = true ∧ fits (7 * 2) 16 true = true ∧ fits (7 + 2) 4 true = false ∧ fits (7 * 2) 4 true = false ∧
      (Instr.psub 2 1 0 ⟨false, 0, .chk, 16⟩ false 0 0).wellFormed s72.params = true ∧ fits (2 - 7) 16 false = false ∧
      (Instr.padd 2 0 1 ⟨true, 0, .chk, 5⟩ false 0 0).wellFormed s72.params = true ∧ fits (7 + 2) 5 true = true := by
  decide

/-- A quotient that fits, one that does not, and a zero divisor. -/
theorem witness_PolicyDivisionCompletes :
    s72.Inv ∧ s70.Inv ∧ (Instr.pdiv 2 0 1 ⟨true, 0, .chk, 4⟩ false 0 0).wellFormed s72.params = true ∧
      (Instr.pdiv 2 0 1 ⟨true, 0, .chk, 3⟩ false 0 0).wellFormed s72.params = true ∧
      roundingTag 0 = some .te ∧ roundRatio (s72.valOf 0 true) (s72.valOf 1 true) .te = 4 ∧ s72.valOf 1 true ≠ 0 ∧
      fits 4 4 true = true ∧ fits 4 3 true = false ∧ s70.valOf 1 true = 0 ∧ s70.readable 0 = true ∧ s70.readable 1 = true ∧
      s72.readable 0 = true ∧ s72.readable 1 = true ∧
      (Instr.pdiv 2 0 1 ⟨true, 0, .chk, 4⟩ false 0 0).wellFormed s70.params = true :=
  ⟨by decide, by decide, by decide⟩

/-- Shifts whose results fit and do not, in both directions. -/
theorem witness_PolicyShiftsComplete :
    s72.Inv ∧ s72.readable 0 = true ∧ s72.valOf 0 false = 7 ∧ roundingTag 1 = some .ta ∧
      (Instr.pshl 2 0 ⟨false, 1, .chk, 4⟩ false 0 1).wellFormed s72.params = true ∧ fits (7 * 2 ^ 1) 4 false = true ∧
      (Instr.pshl 2 0 ⟨false, 1, .chk, 4⟩ false 0 2).wellFormed s72.params = true ∧ fits (7 * 2 ^ 2) 4 false = false ∧
      (Instr.pshr 2 0 ⟨false, 1, .chk, 3⟩ false 0 1).wellFormed s72.params = true ∧ fits (roundShift 7 1 .ta) 3 false = true ∧
      (Instr.pshr 2 0 ⟨false, 1, .chk, 2⟩ false 0 1).wellFormed s72.params = true ∧ fits (roundShift 7 1 .ta) 2 false = false := by
  decide

/-- The operands at the ends of their declared ranges: -8 in 4 digits and -128 in 8. -/
theorem witness_ElasticResultsFit :
    (sample [0xFFF8, 0xFF80]).Inv ∧ (sample [0xFFF8, 0xFF80]).readable 0 = true ∧ (sample [0xFFF8, 0xFF80]).readable 1 = true ∧
      (sample [0xFFF8, 0xFF80]).valOf 0 true = -8 ∧ (sample [0xFFF8, 0xFF80]).valOf 1 true = -128 ∧
      roundingTag 4 = some .nat ∧ fits (-8) 4 true = true ∧ fits (-128) 8 true = true ∧
      (Instr.padd 2 0 1 ⟨true, 4, .chk, 0⟩ true 4 8).wellFormed inst = true ∧
      (Instr.psub 2 0 1 ⟨true, 4, .chk, 0⟩ true 4 8).wellFormed inst = true ∧
      (Instr.pmul 2 0 1 ⟨true, 4, .chk, 0⟩ true 4 8).wellFormed inst = true ∧
      (Instr.pshl 2 0 ⟨true, 4, .chk, 0⟩ true 4 12).wellFormed inst = true ∧
      (Instr.pshr 2 0 ⟨true, 4, .chk, 0⟩ true 4 1).wellFormed inst = true ∧
      (-64 : Int) = -8 * 2 ^ ((0 : Field16).toInt - (0xFFFD : Field16).toInt).toNat ∧
      (-128 : Int) = -128 * 2 ^ ((0xFFFD : Field16).toInt - (0 : Field16).toInt).toNat ∧
      (Instr.fadd 2 0 1 ⟨true, 4, .chk, 0⟩ true 4 8 0 0xFFFD).wellFormed inst = true ∧
      (Instr.fsub 2 0 1 ⟨true, 4, .chk, 0⟩ true 4 8 0 0xFFFD).wellFormed inst = true ∧
      (Instr.fmul 2 0 1 ⟨true, 4, .chk, 0⟩ true 4 8 0x8000 0x7FFF).wellFormed inst = true := by decide

/-- Unsigned differences below zero (R176: 3 - 5) and at zero, at one exponent and at two. -/
theorem witness_ElasticExceptions_differences :
    (sample [3, 5]).Inv ∧ (sample [3, 5]).readable 0 = true ∧ (sample [3, 5]).readable 1 = true ∧
      (sample [3, 5]).valOf 0 false = 3 ∧ (sample [3, 5]).valOf 1 false = 5 ∧ (sample [5, 5]).valOf 0 false = 5 ∧
      roundingTag 0 = some .te ∧ fits 3 8 false = true ∧ fits 5 8 false = true ∧
      (Instr.psub 2 0 1 ⟨false, 0, .sat, 0⟩ true 8 8).wellFormed inst = true ∧ max 8 8 + 1 = 9 ∧
      (Instr.fsub 2 0 1 ⟨false, 0, .sat, 0⟩ true 8 8 0xFFFD 0).wellFormed inst = true ∧
      WellFormed.scaledSumDigits 8 8 0xFFFD 0 = 12 ∧
      3 * 2 ^ ((0xFFFD : Field16).toInt - (0 : Field16).toInt).toNat = (3 : Int) ∧
      5 * 2 ^ ((0 : Field16).toInt - (0xFFFD : Field16).toInt).toNat = (40 : Int) := by decide

/-- Quotients that do not fit: -128 / -1 (R180), the same with `k = 1`, and -1 / -2 = 0.5 rounded up in one digit
(`k = -1`); and one that fits. -/
theorem witness_ElasticExceptions_quotients :
    (sample [0xFF80, 0xFFFF]).Inv ∧ (sample [0xFF80, 0xFFFF]).readable 0 = true ∧
      (sample [0xFF80, 0xFFFF]).readable 1 = true ∧ (sample [0xFF80, 0xFFFF]).valOf 0 true = -2 ^ (8 - 1) ∧
      (sample [0xFF80, 0xFFFF]).valOf 1 true = -1 ∧ roundingTag 1 = some .ta ∧
      fits (-128) 8 true = true ∧ fits (-1) 8 true = true ∧
      (Instr.pdiv 2 0 1 ⟨true, 1, .sat, 0⟩ true 8 8).wellFormed inst = true ∧
      roundRatio (-128) (-1) .ta = 2 ^ (8 - 1) ∧
      (Instr.fdiv 2 0 1 ⟨true, 1, .sat, 0⟩ true 8 8 1 0 0).wellFormed inst = true ∧
      (1 : Field16).toInt - (0 : Field16).toInt - (0 : Field16).toInt = 1 ∧
      roundRatio (-128 * 2 ^ (1 : Int).toNat) (-1 * 2 ^ (-1 : Int).toNat) .ta = 2 ^ (9 - 1) ∧
      (Instr.fdiv 2 1 1 ⟨true, 1, .sat, 0⟩ true 1 8 0 1 0).wellFormed inst = true ∧ fits (-1) 1 true = true ∧
      (0 : Field16).toInt - (1 : Field16).toInt - (0 : Field16).toInt = -1 ∧
      roundRatio (-1 * 2 ^ (-1 : Int).toNat) (-1 * 2 ^ (1 : Int).toNat) .ta = 2 ^ (1 - 1) ∧
      (sample [7, 2]).valOf 0 true = 7 ∧ (sample [7, 2]).valOf 1 true = 2 ∧ fits 7 8 true = true ∧
      roundRatio 7 2 .ta = 4 := by decide

/-- A P command that saturates, one under UND whose result fits, WEXT, WLIM, and LDI of more bits than the register
has. -/
theorem witness_DestinationsAreCanonical :
    (∃ t, exec (.pmul 2 0 1 ⟨true, 0, .sat, 4⟩ false 0 0) s72 = .next t ∧ Succeeds s72 t 0 ∧ t.reg 2 = vreg 7) ∧
      (∃ t, exec (.padd 2 0 1 ⟨true, 0, .und, 16⟩ false 0 0) s72 = .next t ∧ Succeeds s72 t 0 ∧ t.draws = s72.draws ∧
        t.reg 2 = vreg 9) ∧
      (∃ t, exec (.wext 2 0 true 3) s72 = .next t ∧ Succeeds s72 t 0 ∧ t.reg 2 = vreg 0xFFFF) ∧
      (∃ t, exec (.wlim 2 true 16 0) s72 = .next t ∧ Succeeds s72 t 0 ∧ t.reg 2 = vreg 0x8000) ∧
      ∃ t, exec (.ldi 2 true 64 0x12348000) s72 = .next t ∧ Succeeds s72 t 0 ∧ t.reg 2 = vreg 0x8000 :=
  ⟨⟨_, rfl, ⟨by decide, by decide, by decide, by decide⟩, by decide⟩,
    ⟨_, rfl, ⟨by decide, by decide, by decide, by decide⟩, by decide, by decide⟩,
    ⟨_, rfl, ⟨by decide, by decide, by decide, by decide⟩, by decide⟩,
    ⟨_, rfl, ⟨by decide, by decide, by decide, by decide⟩, by decide⟩,
    ⟨_, rfl, ⟨by decide, by decide, by decide, by decide⟩, by decide⟩⟩

theorem witness_PolicyCommandsAtFullWidth :
    s72.Inv ∧ (∀ r ∈ [(0 : RegField), 1, 2], r.toNat < s72.params.nreg) ∧
      (16 : Field16).toNat = s72.params.nw ∧ (4 : BitVec 3).toNat ≤ 4 ∧ s72.readable 0 = true ∧
      s72.readable 1 = true := by decide

/-- Exponents with either one larger; sums that fit and do not. -/
theorem witness_ScaledSumsComplete :
    s72.Inv ∧ s72.readable 0 = true ∧ s72.readable 1 = true ∧
      (Instr.fadd 2 0 1 ⟨true, 0, .chk, 16⟩ false 0 0 0 0xFFFD).wellFormed s72.params = true ∧
      s72.valOf 0 true * 2 ^ ((0 : Field16).toInt - (0xFFFD : Field16).toInt).toNat = 56 ∧
      s72.valOf 1 true * 2 ^ ((0xFFFD : Field16).toInt - (0 : Field16).toInt).toNat = 2 ∧
      fits (56 + 2) 16 true = true ∧ fits (56 + 2) 6 true = false ∧
      (Instr.fadd 2 0 1 ⟨true, 0, .chk, 6⟩ false 0 0 0 0xFFFD).wellFormed s72.params = true ∧
      (Instr.fsub 2 0 1 ⟨true, 0, .chk, 0⟩ true 4 4 0 0xFFFD).wellFormed s72.params = true ∧ fits (56 - 2) 8 true = true ∧
      (Instr.fsub 2 0 1 ⟨true, 0, .chk, 6⟩ false 0 0 0 0xFFFD).wellFormed s72.params = true ∧
      fits (56 - 2) 6 true = false := by decide

theorem witness_ScaledProductCompletes :
    s72.Inv ∧ s72.readable 0 = true ∧ s72.readable 1 = true ∧ s72.valOf 0 true * s72.valOf 1 true = 14 ∧
      (Instr.fmul 2 0 1 ⟨true, 0, .chk, 5⟩ false 0 0 0x8000 0x8000).wellFormed s72.params = true ∧ fits 14 5 true = true ∧
      (Instr.fmul 2 0 1 ⟨true, 0, .chk, 4⟩ false 0 0 0x7FFF 0x7FFF).wellFormed s72.params = true ∧ fits 14 4 true = false := by
  decide

/-- `k = 1` (elastic, at the capacity), `k = -2`, and a zero divisor. -/
theorem witness_ScaledDivisionCompletes :
    s72.Inv ∧ s70.Inv ∧ s70.valOf 1 true = 0 ∧ s70.readable 0 = true ∧ s70.readable 1 = true ∧ s72.readable 0 = true ∧
      s72.readable 1 = true ∧ roundingTag 3 = some .tn ∧ s72.valOf 1 true ≠ 0 ∧
      (Instr.fdiv 2 0 1 ⟨true, 3, .chk, 0⟩ true 15 8 0 0 0xFFFF).wellFormed s72.params = true ∧
      (0 : Field16).toInt - (0 : Field16).toInt - (0xFFFF : Field16).toInt = 1 ∧
      roundRatio (7 * 2 ^ (1 : Int).toNat) (2 * 2 ^ (-1 : Int).toNat) .tn = 7 ∧ fits 7 16 true = true ∧
      (Instr.fdiv 2 0 1 ⟨true, 3, .chk, 3⟩ false 0 0 0 0 0xFFFF).wellFormed s72.params = true ∧ fits 7 3 true = false ∧
      (0 : Field16).toInt - (0 : Field16).toInt - (2 : Field16).toInt = -2 ∧
      roundRatio (7 * 2 ^ (-2 : Int).toNat) (2 * 2 ^ (2 : Int).toNat) .tn = 0 :=
  ⟨by decide, by decide, by decide⟩

/-- To a finer, to an equal and to a coarser exponent; a result that does not fit. -/
theorem witness_ConversionCompletes :
    s72.Inv ∧ s72.readable 0 = true ∧ roundingTag 1 = some .ta ∧
      (Instr.fcvt 2 0 ⟨true, 1, .chk, 16⟩ false 0 0xFFFD).wellFormed s72.params = true ∧
      (0xFFFD : Field16).toInt ≤ (0 : Field16).toInt ∧ fits (7 * 2 ^ 3) 16 true = true ∧ fits (7 * 2 ^ 3) 6 true = false ∧
      (Instr.fcvt 2 0 ⟨true, 1, .chk, 6⟩ false 0 0xFFFD).wellFormed s72.params = true ∧
      ¬ (1 : Field16).toInt ≤ (0 : Field16).toInt ∧ roundShift (s72.valOf 0 false) 1 .ta = 4 ∧ fits 4 16 true = true := by
  decide

/-- A negative and a positive exponent, and a zero denominator. -/
theorem witness_QuantizationCompletes :
    s72.Inv ∧ s70.Inv ∧ s70.valOf 1 true = 0 ∧ s72.valOf 1 true ≠ 0 ∧ s70.readable 0 = true ∧ s70.readable 1 = true ∧
      s72.readable 0 = true ∧ s72.readable 1 = true ∧ roundingTag 0 = some .te ∧
      (Instr.fqnt 2 0 1 ⟨true, 0, .chk, 8⟩ 0xFFFF).wellFormed s72.params = true ∧
      roundRatio (7 * 2 ^ (-(0xFFFF : Field16).toInt).toNat) (2 * 2 ^ (0xFFFF : Field16).toInt.toNat) .te = 7 ∧
      fits 7 8 true = true ∧ fits 7 3 true = false ∧
      (Instr.fqnt 2 0 1 ⟨true, 0, .chk, 3⟩ 0xFFFF).wellFormed s72.params = true ∧
      roundRatio (7 * 2 ^ (-(1 : Field16).toInt).toNat) (2 * 2 ^ (1 : Field16).toInt.toNat) .te = 2 :=
  ⟨by decide, by decide, by decide⟩

/-- One pair of commands for each clause, none of which draws an unspecified pattern. -/
theorem witness_ScaledCommandsBesidePolicyCommands :
    (∃ t u, exec (.fmul 2 0 1 ⟨true, 0, .und, 16⟩ false 0 0 1 2) s72 = .next t ∧
        exec (.pmul 2 0 1 ⟨true, 0, .und, 16⟩ false 0 0) s72 = .next u ∧ t.draws = s72.draws ∧ t.reg 2 = vreg 14) ∧
      (∃ t u, exec (.fadd 2 0 1 ⟨true, 0, .und, 16⟩ false 0 0 5 5) s72 = .next t ∧
        exec (.padd 2 0 1 ⟨true, 0, .und, 16⟩ false 0 0) s72 = .next u ∧ t.draws = s72.draws ∧ t.reg 2 = vreg 9) ∧
      (∃ t u, exec (.fdiv 2 0 1 ⟨true, 0, .chk, 16⟩ false 0 0 0 0 0) s72 = .next t ∧
        exec (.pdiv 2 0 1 ⟨true, 0, .chk, 16⟩ false 0 0) s72 = .next u ∧ t.draws = s72.draws ∧ t.reg 2 = vreg 4) ∧
      ∃ t u, exec (.fqnt 2 0 1 ⟨true, 0, .chk, 16⟩ 0xFFFF) s72 = .next t ∧
        exec (.fdiv 2 0 1 ⟨true, 0, .chk, 16⟩ false 0 0 0 0 0xFFFF) s72 = .next u ∧ t.draws = s72.draws ∧ t.reg 2 = vreg 7 :=
  ⟨⟨_, _, rfl, rfl, by decide, by decide⟩, ⟨_, _, rfl, rfl, by decide, by decide⟩,
    ⟨_, _, rfl, rfl, by decide, by decide⟩, ⟨_, _, rfl, rfl, by decide, by decide⟩⟩

theorem witness_ConversionCopies :
    s72.Inv ∧ (∀ r ∈ [(0 : RegField), 1, 2], r.toNat < s72.params.nreg) ∧
      (16 : Field16).toNat = s72.params.nw ∧ (4 : BitVec 3).toNat ≤ 4 ∧ s72.readable 0 = true := by decide

theorem witness_ScaledSumIsExact :
    s72.Inv ∧ (Instr.fadd 2 0 1 ⟨true, 0, .chk, 16⟩ false 0 0 0 0xFFFD).wellFormed s72.params = true ∧
      s72.readable 0 = true ∧ s72.readable 1 = true ∧
      fits (s72.valOf 0 true * 2 ^ ((0 : Field16).toInt - (0xFFFD : Field16).toInt).toNat +
        s72.valOf 1 true * 2 ^ ((0xFFFD : Field16).toInt - (0 : Field16).toInt).toNat)
        (typeDigits ⟨true, 0, .chk, 16⟩ false (WellFormed.scaledSumDigits 0 0 0 0xFFFD)) true = true ∧
      ∃ t, exec (.fadd 2 0 1 ⟨true, 0, .chk, 16⟩ false 0 0 0 0xFFFD) s72 = .next t ∧ t.reg 2 = vreg 58 :=
  ⟨by decide, by decide, by decide, by decide, by decide, _, rfl, by decide⟩

end Sys2Proof.Tests
end

/-! RTYPE across a command (10_state.md R29, R30): who writes it, and what is in the destination register in the same
step. A command is a failure step or an `Effect` followed by a response (`exec_cases`), so everything here is a
fact about `Effect`. -/

namespace Sys2Proof.Machine

/-- No effect produces a response of its own. -/
theorem Effect.out_eq {s t : State} {i : Instr} (h : Effect s i t) : t.out = s.out := by
  cases h <;> subst t <;> rfl

/-- Only the two typed effects write RTYPE, and they belong to formats P and F. -/
theorem Effect.rtype_eq_of_untyped {s t : State} {i : Instr} (h : Effect s i t)
    (hi : formatOf i = .t ∨ formatOf i = .w) : t.rtype = s.rtype := by
  cases h with
  | nothing _ _ h => rw [h]
  | register rd x _ _ h => rw [h, setReg_rtype]
  | word rd k v _ _ _ h => rw [h, setWord_rtype]
  | compare ra rb sg f _ _ h => rw [h, setFlags_rtype]
  | typed _ _ _ _ _ _ hf => rcases hi with hi | hi <;> simp [hi] at hf
  | unspecified _ _ _ _ _ hf => rcases hi with hi | hi <;> simp [hi] at hf

/-- The effect of a P or F command writes a value to its destination and its result type to RTYPE. Under UND the value
is the unspecified pattern, which `setAny` writes as any other. -/
theorem Effect.writes_dest_and_rtype {s t : State} {i : Instr} (h : Effect s i t)
    (hi : formatOf i = .p ∨ formatOf i = .f) :
    ∃ rd x sg er d, destOf i = some rd ∧ resultTypeOf i = some (sg, er, d) ∧
      t.reg rd = (s.setReg rd x).reg rd ∧ t.rtype = rtypeOf sg er d := by
  cases h with
  | nothing _ hf => simp [hf] at hi
  | register _ _ _ hf => rcases hf with hf | hf <;> simp [hf] at hi
  | word _ _ _ _ hf => simp [hf] at hi
  | compare _ _ _ _ hw => simp [hw, formatOf] at hi
  | typed rd sg er d x hd _ ht _ h =>
    exact ⟨rd, x, sg, er, d, hd, ht, by rw [h, setRtype_reg], by rw [h, setRtype_rtype]⟩
  | unspecified rd sg er d hd _ ht _ h =>
    exact ⟨rd, _, sg, er, d, hd, ht, by rw [h, setRtype_reg, setAny_reg], by rw [h, setRtype_rtype]⟩

/-- A register just written has `N` words, all valid. -/
theorem setReg_reg_valid {s : State} {r : RegField} (x : Int) (h : r.toNat < s.regs.length) :
    ((s.setReg r x).reg r).length = s.params.n ∧ ∀ c ∈ (s.setReg r x).reg r, c.ok = true := by
  rw [setReg_reg_same x h]
  simp

/-- The status of a failure's response is never that of a success (30_encoding.md R84). -/
theorem failureCode_ne_zero (f : Failure) : BitVec.ofNat 8 (failureCode f) ≠ 0 := by
  cases f <;> decide

/-- T and W commands never write RTYPE. -/
theorem exec_rtype_of_untyped {i : Instr} {s t : State} (h : exec i s = .next t)
    (hi : formatOf i = .t ∨ formatOf i = .w) : t.rtype = s.rtype := by
  rcases exec_cases h with ⟨f, rfl⟩ | ⟨u, data, _, _, _, _, effect, rfl⟩
  · exact raise_rtype s f
  · rw [respond_rtype, effect.rtype_eq_of_untyped hi]

/-- A command whose response has a nonzero status ended in the failure step. -/
theorem exec_rtype_of_failure {i : Instr} {s t : State} {r : Response} (h : exec i s = .next t)
    (hout : t.out = s.out ++ [r]) (hr : r.status ≠ 0) : t.rtype = s.rtype := by
  rcases exec_cases h with ⟨f, rfl⟩ | ⟨u, data, _, _, _, _, effect, rfl⟩
  · exact raise_rtype s f
  · rw [respond_out, effect.out_eq, List.append_cancel_left_eq, List.singleton_inj] at hout
    subst hout
    exact absurd rfl hr

/-- The failure step is not a success: its response says so. -/
theorem not_succeeds_raise (s : State) (f : Failure) (data : Data64) : ¬ Succeeds s (s.raise f) data := fun h => by
  have hout := h.out
  rw [raise_out, List.append_cancel_left_eq, List.singleton_inj] at hout
  exact failureCode_ne_zero f (congrArg Response.status hout)

/-- A P or F command that succeeds leaves its result type in RTYPE, with `DIGITS` at least 1 (10_state.md R30), and
its destination register wholly valid, in the same state. -/
theorem exec_rtype_of_typed {i : Instr} {s t : State} {data : Data64} (hs : s.Inv) (h : exec i s = .next t)
    (hok : Succeeds s t data) (hi : formatOf i = .p ∨ formatOf i = .f) :
    ∃ sg er d rd, resultTypeOf i = some (sg, er, d) ∧ HasType t sg er d ∧ 1 ≤ d ∧
      destOf i = some rd ∧ (t.reg rd).length = s.params.n ∧ ∀ c ∈ t.reg rd, c.ok = true := by
  obtain ⟨⟨_, _, _, hnw, _⟩, hshape, _⟩ := hs
  rcases exec_cases h with ⟨f, rfl⟩ | ⟨u, data', hlegal, hcap, _, _, effect, rfl⟩
  · exact absurd hok (not_succeeds_raise s f data)
  · obtain ⟨rd, x, sg, er, d, hdest, htype, hreg, hrtype⟩ := effect.writes_dest_and_rtype hi
    obtain ⟨hd, hdnw, her, her'⟩ := resultType_bounds hlegal hcap htype
    have hd16 : d < 2 ^ 16 := by
      have : s.params.nw ≤ 65535 := hnw
      omega
    have hvalid := setReg_reg_valid x (dest_lt hshape hlegal hdest)
    rw [← hreg] at hvalid
    exact ⟨sg, er, d, rd, htype, hasType_rtypeOf hrtype hd16 her her', hd, hdest, hvalid⟩

/-- Settles O19: three facts about `exec`, from what an `Effect` can do to RTYPE, and the reset value. -/
theorem rtypeIsWrittenByTypedCommands : Obligations.RtypeIsWrittenByTypedCommands :=
  ⟨fun _ _ _ => exec_rtype_of_untyped, fun _ _ _ _ => exec_rtype_of_failure,
    fun _ _ _ _ => exec_rtype_of_typed, fun _ => rfl⟩

end Sys2Proof.Machine

/-! The register check (30_encoding.md R82): legality covers every register field a command uses, and an illegal command
ends in the failure step before any other check. -/

namespace Sys2Proof.Machine

/-- `Instr.legal` lists its causes and `usedRegs` collects its fields independently of each other; command by command,
the register causes of the one (60_exceptions.md R233) cover the other. -/
theorem usedRegs_all_reg_of_legal {p : Params} {i : Instr} (hl : i.legal p = true) :
    (usedRegs i).all (WellFormed.reg p) = true := by
  cases i <;> simp only [Instr.legal, Bool.and_eq_true] at hl <;>
    simp [usedRegs, destOf, sourcesOf, wordSourceOf, hl]

/-- A command that uses a register at or above `NREG` is not legal. -/
theorem legal_eq_false_of_usedReg {p : Params} {i : Instr} {r : RegField} (hr : r ∈ usedRegs i)
    (hge : p.nreg ≤ r.toNat) : i.legal p = false := by
  rw [Bool.eq_false_iff]
  intro hl
  have hlt : r.toNat < p.nreg := of_decide_eq_true (List.all_eq_true.mp (usedRegs_all_reg_of_legal hl) r hr)
  omega

/-- Legality is the first check (60_exceptions.md R235): where it fails, the later ones and the effect do not matter. -/
theorem exec_of_not_legal {i : Instr} {s : State} (hl : i.legal s.params = false) :
    exec i s = .next (s.raise .illegalCommand) := by
  rw [exec_eq, checkedEffect, hl]
  rfl

/-- Settles O17: such a command is not legal, and an illegal command is the failure step of IllegalCommand. -/
theorem registerFieldRange : Obligations.RegisterFieldRange := fun _ s _ hr hge =>
  ⟨_, exec_of_not_legal (legal_eq_false_of_usedReg hr hge), raise_failsWith s .illegalCommand⟩

end Sys2Proof.Machine

/-! Truncating division (41_wide_engine.md R131): the model's `tdiv` and `trem` are the library's division with the
quotient truncated toward zero, so its laws are theirs. -/

namespace Sys2Proof.Machine

/-- The quotient by signs and magnitudes is the library's truncating one: where the magnitude of the dividend is the
smaller, both are 0. -/
theorem tdiv_eq_int_tdiv (a b : Int) : tdiv a b = a.tdiv b := by
  rw [← Int.sign_mul_natAbs (a.tdiv b), Int.sign_tdiv, Int.natAbs_tdiv, tdiv]
  split
  · next h => rw [Nat.div_eq_of_lt h, Nat.cast_zero, mul_zero, zero_mul]
  · rfl

theorem trem_eq_int_tmod (a b : Int) : trem a b = a.tmod b := by
  rw [trem, tdiv_eq_int_tdiv, Int.tmod_def]

/-- R131's formula, with the magnitudes written as absolute values. -/
theorem tdiv_eq_sign_mul_abs_div (a b : Int) : tdiv a b = a.sign * b.sign * (|a| / |b|) := by
  rw [tdiv, Int.natCast_div, Int.natCast_natAbs, Int.natCast_natAbs]

theorem abs_trem_lt (a : Int) {b : Int} (hb : b ≠ 0) : |trem a b| < |b| := by
  rw [trem_eq_int_tmod, Int.abs_eq_natAbs, Int.abs_eq_natAbs, Int.natAbs_tmod]
  exact_mod_cast Nat.mod_lt _ (Int.natAbs_pos.mpr hb)

theorem trem_eq_zero_or_sign_eq (a b : Int) : trem a b = 0 ∨ (trem a b).sign = a.sign := by
  rw [trem_eq_int_tmod, Int.sign_tmod]
  split
  · next h => exact .inl (Int.tmod_eq_zero_of_dvd h)
  · exact .inr rfl

/-- The quotient of an exact product, the arithmetic of R136. -/
theorem tdiv_mul_cancel_right (a : Int) {b : Int} (hb : b ≠ 0) : tdiv (a * b) b = a := by
  rw [tdiv_eq_int_tdiv, Int.mul_tdiv_cancel a hb]

/-- Settles O26: R131's formula, and its consequences from the laws of truncating division. -/
theorem truncatingDivision : Obligations.TruncatingDivision := fun a b hb =>
  ⟨tdiv_eq_sign_mul_abs_div a b, rfl, (add_sub_cancel (b * tdiv a b) a).symm, abs_trem_lt a hb,
    trem_eq_zero_or_sign_eq a b, by simp [tdiv], by simp [trem, tdiv]⟩

end Sys2Proof.Machine

/-! What a written register reads as, and the W commands with two sources as equations. The value of a register is known
modulo `2^NW` whatever the signedness, and that is all a write depends on (00_scope.md R11). -/

namespace Sys2Proof.Machine

/-- The signed and the unsigned value of words agree modulo `2^NW`. -/
theorem val_emod (p : Params) (sg : Bool) (ws : List Word) :
    val p sg ws % pow2 p.nw = (uval p.w ws : Int) % pow2 p.nw := by
  cases sg
  · rfl
  · simp only [val, sval, if_true]
    split
    · rfl
    · rw [Int.sub_emod_right]

/-- Words whose unsigned value is `x mod 2^NW` have the value `x`, where `x` lies in the range. -/
theorem val_eq_of_fits {p : Params} {sg : Bool} {ws : List Word} {x : Int} (hnw : 1 ≤ p.nw)
    (hu : (uval p.w ws : Int) = x % pow2 p.nw) (hf : fits x p.nw sg = true) : val p sg ws = x := by
  have hpos := pow2_pos p.nw
  have hhalf := pow2_succ_pred hnw
  rw [fits_iff] at hf
  cases sg
  · simp only [lo, hi, Bool.false_eq_true, if_false] at hf
    simp only [val, Bool.false_eq_true, if_false]
    rw [hu, Int.emod_eq_of_lt hf.1 (by omega)]
  · simp only [lo, hi, if_true] at hf
    simp only [val, sval, if_true, hu]
    rcases lt_or_ge x 0 with hneg | hnonneg
    · rw [Int.emod_eq_add_self_emod, Int.emod_eq_of_lt (by omega) (by omega), if_neg (by omega)]
      omega
    · rw [Int.emod_eq_of_lt hnonneg (by omega), if_pos (by omega)]

theorem uval_words_eq_emod (p : Params) (x : Int) : (uval p.w (words p x) : Int) = x % pow2 p.nw := by
  rw [uval_words, Int.toNat_of_nonneg (Int.emod_nonneg x (pow2_pos p.nw).ne')]

section
variable {s : State} {r q : RegField} {x y : Int} {sg : Bool}

/-! ### Reading a register after a write -/

@[simp] theorem respond_valOf (d : Data64) : (s.respond d).valOf r sg = s.valOf r sg := rfl

@[simp] theorem respond_readable (d : Data64) : (s.respond d).readable r = s.readable r := rfl

theorem setReg_words_same (h : r.toNat < s.regs.length) : ((s.setReg r x).reg r).words = words s.params x := by
  rw [setReg_reg_same x h, VReg.words, List.map_map]
  exact List.map_id _

/-- The value read after a write is the value written, modulo `2^NW`. -/
theorem setReg_valOf_same_emod (h : r.toNat < s.regs.length) :
    (s.setReg r x).valOf r sg % pow2 s.params.nw = x % pow2 s.params.nw := by
  rw [State.valOf, setReg_words_same h, setReg_params, val_emod, uval_words_eq_emod, Int.emod_emod]

/-- The value read after a write is the value written, where it lies in the range. -/
theorem setReg_valOf_same_of_fits (h : r.toNat < s.regs.length) (hnw : 1 ≤ s.params.nw)
    (hf : fits x s.params.nw sg = true) : (s.setReg r x).valOf r sg = x := by
  rw [State.valOf, setReg_words_same h]
  exact val_eq_of_fits hnw (uval_words_eq_emod s.params x) hf

theorem setReg_valOf_other (h : q ≠ r) : (s.setReg r x).valOf q sg = s.valOf q sg := by
  rw [State.valOf, setReg_reg_other x h, setReg_params, State.valOf]

theorem setReg_readable_same (h : r.toNat < s.regs.length) : (s.setReg r x).readable r = true :=
  (readable_iff _ r).mpr (setReg_reg_valid x h)

theorem setReg_readable_other (h : q ≠ r) : (s.setReg r x).readable q = s.readable q := by
  rw [State.readable, setReg_reg_other x h, setReg_params, State.readable]

/-! ### What a write depends on -/

/-- A write depends on its value modulo `2^NW` only. -/
theorem setReg_congr (h : x % pow2 s.params.nw = y % pow2 s.params.nw) : s.setReg r x = s.setReg r y := by
  simp only [State.setReg, words_congr h]

theorem valOf_emod (s : State) (r : RegField) (sg sg' : Bool) :
    s.valOf r sg % pow2 s.params.nw = s.valOf r sg' % pow2 s.params.nw := by
  rw [State.valOf, State.valOf, val_emod, val_emod]

/-- The words of a register's value, under either signedness, are the register: nothing of a valid register is lost in
reading it. -/
theorem words_valOf (hs : s.RegsShaped) (hr : r.toNat < s.params.nreg) (hv : s.readable r = true) :
    (words s.params (s.valOf r sg)).map (fun v => (⟨v, true⟩ : VWord)) = s.reg r := by
  obtain ⟨hlen, hlt⟩ := hs.reg hr
  have hwords : words s.params (s.valOf r sg) = (s.reg r).words := by
    rw [words_congr (valOf_emod s r sg false)]
    refine words_uval s.params _ (by rw [VReg.words, List.length_map, hlen]) fun v hmem => ?_
    obtain ⟨c, hc, rfl⟩ := List.mem_map.mp hmem
    exact hlt c hc
  rw [hwords, VReg.words, List.map_map]
  refine (List.map_congr_left fun c hc => ?_).trans (List.map_id _)
  have hok := ((readable_iff s r).mp hv).2 c hc
  cases c
  cases hok
  rfl

end

/-! ### The W commands with two sources -/

section
variable {s : State} {rd ra rb : RegField} (sg : Bool)

/-- A W command with two readable sources comes to its effect: the register checks pass, and it has no elastic form. -/
theorem exec_wideBinary {i : Instr}
    (hl : i.legal s.params = (WellFormed.reg s.params rd && WellFormed.reg s.params ra && WellFormed.reg s.params rb))
    (hc : i.elasticDigits = none) (hs : sourcesOf i = [ra, rb]) (hw : wordSourceOf i = none)
    (hd : rd.toNat < s.params.nreg) (ha : ra.toNat < s.params.nreg) (hb : rb.toNat < s.params.nreg)
    (hra : s.readable ra = true) (hrb : s.readable rb = true) : exec i s = s.run (effectOf s i) := by
  apply exec_of_checks
  · simp [Instr.wellFormed, hl, Instr.withinCapacity, hc, WellFormed.reg, hd, ha, hb]
  · rw [readable_two s i ra rb hs hw, hra, hrb]
    rfl

variable (hd : rd.toNat < s.params.nreg) (ha : ra.toNat < s.params.nreg) (hb : rb.toNat < s.params.nreg)
  (hra : s.readable ra = true) (hrb : s.readable rb = true)
include hd ha hb hra hrb

theorem exec_wadd : exec (.wadd rd ra rb sg) s =
    .next ((s.setReg rd (s.valOf ra false + s.valOf rb false)).respond 0) :=
  exec_wideBinary rfl rfl rfl rfl hd ha hb hra hrb

theorem exec_wsub : exec (.wsub rd ra rb sg) s =
    .next ((s.setReg rd (s.valOf ra false - s.valOf rb false)).respond 0) :=
  exec_wideBinary rfl rfl rfl rfl hd ha hb hra hrb

theorem exec_wmul : exec (.wmul rd ra rb sg) s =
    .next ((s.setReg rd (s.valOf ra false * s.valOf rb false)).respond 0) :=
  exec_wideBinary rfl rfl rfl rfl hd ha hb hra hrb

theorem exec_wdiv (h0 : s.valOf rb sg ≠ 0) : exec (.wdiv rd ra rb sg) s =
    .next ((s.setReg rd (tdiv (s.valOf ra sg) (s.valOf rb sg))).respond 0) := by
  rw [exec_wideBinary rfl rfl rfl rfl hd ha hb hra hrb, effectOf, if_neg h0, run_ok]

/-- WMUL ignores `S` (41_wide_engine.md R128): it writes the product of the values under either signedness. -/
theorem exec_wmul_of_signedness (sg' : Bool) : exec (.wmul rd ra rb sg) s =
    .next ((s.setReg rd (s.valOf ra sg' * s.valOf rb sg')).respond 0) := by
  rw [exec_wmul sg hd ha hb hra hrb,
    setReg_congr (Int.ModEq.mul (valOf_emod s ra false sg') (valOf_emod s rb false sg'))]

end

end Sys2Proof.Machine

/-! The two laws of the engine over two commands (41_wide_engine.md R127, R136): the second command undoes the first,
which leaves the register of the other operand as it was. -/

namespace Sys2Proof.Machine

/-- After one write, a second write whose value is congruent to that of a readable register before both makes its
destination a copy of that register. -/
theorem second_write_reg_eq_of_emod {s : State} {ra rx ry : RegField} {x y : Int} {sg : Bool} (d : Data64)
    (hs : s.RegsShaped) (ha : ra.toNat < s.params.nreg) (hy : ry.toNat < s.params.nreg) (hra : s.readable ra = true)
    (h : y % pow2 s.params.nw = s.valOf ra sg % pow2 s.params.nw) :
    (((s.setReg rx x).respond d).setReg ry y).reg ry = s.reg ra := by
  have hlen : ry.toNat < ((s.setReg rx x).respond d).regs.length := by
    rw [respond_regs, (setReg_shaped hs).1]
    exact hy
  rw [setReg_reg_same y hlen, respond_params, setReg_params, words_congr h, words_valOf hs ha hra]

/-- Settles O39: the sum read back is `a + b` modulo `2^NW`, so the difference is `a` modulo `2^NW`, and a write depends
on no more. -/
theorem addThenSubtract : Obligations.AddThenSubtract := by
  intro s ra rb rx ry sg sg' ⟨_, hs, _⟩ ha hb hx hy hra hrb hne
  have hx' : rx.toNat < s.regs.length := by rw [hs.1]; exact hx
  refine ⟨_, _, exec_wadd sg hx ha hb hra hrb,
    exec_wsub sg' hy hx hb (setReg_readable_same hx') ((setReg_readable_other hne.symm).trans hrb), ?_⟩
  refine second_write_reg_eq_of_emod (sg := false) 0 hs ha hy hra ?_
  rw [respond_valOf, respond_valOf, setReg_valOf_other hne.symm]
  calc _ = (s.valOf ra false + s.valOf rb false - s.valOf rb false) % pow2 s.params.nw :=
        Int.ModEq.sub_right _ (setReg_valOf_same_emod hx')
    _ = _ := by rw [add_sub_cancel_right]

/-- Settles O40: WMUL writes the product under the divider's signedness, which fits and so reads back exactly, and the
quotient of the product is `a`. -/
theorem multiplyThenDivide : Obligations.MultiplyThenDivide := by
  intro s ra rb rx ry sg sg' ⟨⟨hw, _, hn, _⟩, hs, _⟩ ha hb hx hy hra hrb hne hb0 hfit
  have hx' : rx.toNat < s.regs.length := by rw [hs.1]; exact hx
  have hprod : (s.setReg rx (s.valOf ra sg * s.valOf rb sg)).valOf rx sg = s.valOf ra sg * s.valOf rb sg :=
    setReg_valOf_same_of_fits hx' (Nat.mul_pos hn hw) hfit
  have hkeep : (s.setReg rx (s.valOf ra sg * s.valOf rb sg)).valOf rb sg = s.valOf rb sg :=
    setReg_valOf_other hne.symm
  refine ⟨_, _, exec_wmul_of_signedness sg' hx ha hb hra hrb sg,
    exec_wdiv sg hy hx hb (setReg_readable_same hx') ((setReg_readable_other hne.symm).trans hrb)
      (by rwa [respond_valOf, hkeep]), ?_⟩
  refine second_write_reg_eq_of_emod (sg := sg) 0 hs ha hy hra ?_
  rw [respond_valOf, respond_valOf, hprod, hkeep, tdiv_mul_cancel_right _ hb0]

end Sys2Proof.Machine

/-! One step of the machine (60_exceptions.md R238), an equation per head of the host's list of events. -/

namespace Sys2Proof.Machine

section
variable {s : State} {rest : List HostEvent} {c : CmdWord}

/-- With nothing pending the block holds its state (60_exceptions.md R255). -/
theorem step_of_idle (h : s.input = []) : step s = .next s := by
  simp only [step, State.takeEvent, h]

/-- A reset is taken between commands (70_reset_and_hazards.md R260). -/
theorem step_of_reset (h : s.input = .reset :: rest) : step s = .next ({ s with input := rest }).resetBlock := by
  simp only [step, State.takeEvent, h]

/-- A command word that decodes is executed on the state with its event taken. -/
theorem step_of_command {i : Instr} (h : s.input = .command c :: rest) (hi : decode c = some i) :
    step s = exec i { s with input := rest } := by
  simp only [step, State.takeEvent, h, hi]

/-- A command word that is no command is the failure step of IllegalCommand (30_encoding.md R80, R81). -/
theorem step_of_undecodable (h : s.input = .command c :: rest) (hc : decode c = none) :
    step s = .next (({ s with input := rest } : State).raise .illegalCommand) := by
  simp only [step, State.takeEvent, h, hc]

end

/-- No state is stuck: with no event, a reset or an undecodable word the next state is written out above, and a command
answers one by `exec_next`. -/
theorem step_next (s : State) : ∃ t, step s = .next t := by
  cases hin : s.input with
  | nil => exact ⟨_, step_of_idle hin⟩
  | cons e rest =>
    cases e with
    | reset => exact ⟨_, step_of_reset hin⟩
    | command c =>
      cases hc : decode c with
      | none => exact ⟨_, step_of_undecodable hin hc⟩
      | some i =>
        rw [step_of_command hin hc]
        exact exec_next i _

/-- Settles O13: `step_next`, for the state itself and for the one after it with any word presented. -/
theorem everyStepAnswersNext : Obligations.EveryStepAnswersNext := fun s =>
  let ⟨t, ht⟩ := step_next s
  ⟨t, ht, fun c => step_next (t.present c)⟩

end Sys2Proof.Machine


/-! The encoding (30_encoding.md): a command word is its sixteen fields, a command is the fields its opcode uses, and
the opcode table is the decoder's must-be-zero rule written as masks. -/

namespace Sys2Proof

/-! ### The word of fields, and the fields of a word -/

theorem toNat_append_eq_add {m n : Nat} (x : BitVec m) (y : BitVec n) :
    (x ++ y).toNat = x.toNat * 2 ^ n + y.toNat := by
  rw [BitVec.toNat_append, ← Nat.shiftLeft_add_eq_or_of_lt y.isLt, Nat.shiftLeft_eq]

/-- A one-bit field as a number. -/
theorem getLsbD_toNat (c : CmdWord) (k : Nat) : (c.getLsbD k).toNat = c.toNat / 2 ^ k % 2 ^ 1 := by
  rw [BitVec.getLsbD, Nat.toNat_testBit, pow_one]

theorem extractLsb'_toNat_eq_div (c : CmdWord) (k len : Nat) :
    (c.extractLsb' k len).toNat = c.toNat / 2 ^ k % 2 ^ len := by
  rw [BitVec.extractLsb'_toNat, Nat.shiftRight_eq_div_pow]

/-- The command word as a number, field by field from the most significant one (30_encoding.md R72). -/
theorem Fields.toNat_toWord (f : Fields) :
    f.toWord.toNat =
      ((((((((((((((f.eb.toNat * 2 ^ 16 + f.ea.toNat) * 2 ^ 16 + f.db.toNat) * 2 ^ 16 + f.da.toNat) * 2 ^ 16 +
        f.imm.toNat) * 2 ^ 16 + f.dd.toNat) * 2 ^ 4 + f.rsv.toNat) * 2 ^ 1 + f.ss.toNat) * 2 ^ 2 +
        f.ovf.toNat) * 2 ^ 3 + f.rnd.toNat) * 2 ^ 1 + f.el.toNat) * 2 ^ 1 + f.s.toNat) * 2 ^ 4 +
        f.rb.toNat) * 2 ^ 4 + f.ra.toNat) * 2 ^ 4 + f.rd.toNat) * 2 ^ 8 + f.op.toNat := by
  simp only [Fields.toWord, toNat_append_eq_add, BitVec.toNat_ofBool]

theorem bool_toNat_inj {a b : Bool} : a.toNat = b.toNat ↔ a = b := by
  cases a <;> cases b <;> decide

/-- The fields of the word of fields: each is read at the bits it was put at. -/
theorem Fields.ofWord_toWord (f : Fields) : Fields.ofWord f.toWord = f := by
  have hword := f.toNat_toWord
  generalize f.toWord = c at hword
  obtain ⟨op, rd, ra, rb, sg, el, rnd, ovf, ss, rsv, dd, imm, da, db, ea, eb⟩ := f
  have hsg := sg.toNat_lt
  have hel := el.toNat_lt
  have hss := ss.toNat_lt
  simp only [Fields.ofWord, Fields.mk.injEq, ← bool_toNat_inj, ← BitVec.toNat_inj, getLsbD_toNat,
    extractLsb'_toNat_eq_div]
  dsimp only at hword
  refine ⟨?_, ?_, ?_, ?_, ?_, ?_, ?_, ?_, ?_, ?_, ?_, ?_, ?_, ?_, ?_, ?_⟩
  all_goals omega

/-- Two adjacent digits of a number put together. -/
theorem div_mul_add_div_mod (n k j : Nat) : n / 2 ^ (k + j) * 2 ^ j + n / 2 ^ k % 2 ^ j = n / 2 ^ k := by
  rw [pow_add, ← Nat.div_div_eq_div_mul, Nat.div_add_mod']

/-- No bit of a word lies outside its fields. -/
theorem Fields.toWord_ofWord (c : CmdWord) : (Fields.ofWord c).toWord = c := by
  apply BitVec.eq_of_toNat_eq
  simp only [Fields.toNat_toWord, Fields.ofWord, getLsbD_toNat, extractLsb'_toNat_eq_div]
  generalize hn : c.toNat = n
  have hlt : n < 2 ^ 128 := hn ▸ c.isLt
  rw [Nat.mod_eq_of_lt (a := n / 2 ^ 112) (Nat.div_lt_of_lt_mul hlt), div_mul_add_div_mod n 96 16,
    div_mul_add_div_mod n 80 16, div_mul_add_div_mod n 64 16, div_mul_add_div_mod n 48 16,
    div_mul_add_div_mod n 32 16, div_mul_add_div_mod n 28 4,
    div_mul_add_div_mod n 27 1, div_mul_add_div_mod n 25 2, div_mul_add_div_mod n 22 3, div_mul_add_div_mod n 21 1,
    div_mul_add_div_mod n 20 1, div_mul_add_div_mod n 16 4, div_mul_add_div_mod n 12 4, div_mul_add_div_mod n 8 4,
    div_mul_add_div_mod n 0 8, pow_zero, Nat.div_one]

theorem toField_ovf_ofField (c : BitVec 2) : (Ovf.ofField c).toField = c := by
  revert c; decide

/-! ### The instruction of fields, and the fields of an instruction -/

open Laws in
/-- Every instruction is read back from its own fields. -/
theorem toInstr_toFields (i : Instr) : i.toFields.toInstr = some i := by
  cases i with
  | nop => exact FieldRoundTrip.nop
  | ldi => exact FieldRoundTrip.ldi ..
  | ldw => exact FieldRoundTrip.ldw ..
  | rdw => exact FieldRoundTrip.rdw ..
  | rdc => exact FieldRoundTrip.rdc ..
  | wadd => exact FieldRoundTrip.wadd ..
  | wsub => exact FieldRoundTrip.wsub ..
  | wmul => exact FieldRoundTrip.wmul ..
  | wdiv => exact FieldRoundTrip.wdiv ..
  | wmod => exact FieldRoundTrip.wmod ..
  | wshl => exact FieldRoundTrip.wshl ..
  | wshr => exact FieldRoundTrip.wshr ..
  | wcmp => exact FieldRoundTrip.wcmp ..
  | wext => exact FieldRoundTrip.wext ..
  | wlim => exact FieldRoundTrip.wlim ..
  | padd => exact FieldRoundTrip.padd ..
  | psub => exact FieldRoundTrip.psub ..
  | pmul => exact FieldRoundTrip.pmul ..
  | pdiv => exact FieldRoundTrip.pdiv ..
  | pshl => exact FieldRoundTrip.pshl ..
  | pshr => exact FieldRoundTrip.pshr ..
  | fadd => exact FieldRoundTrip.fadd ..
  | fsub => exact FieldRoundTrip.fsub ..
  | fmul => exact FieldRoundTrip.fmul ..
  | fdiv => exact FieldRoundTrip.fdiv ..
  | fcvt => exact FieldRoundTrip.fcvt ..
  | fqnt => exact FieldRoundTrip.fqnt ..

theorem accept_eq_some {b : Bool} {i j : Instr} : accept b i = some j ↔ b = true ∧ i = j := by
  cases b <;> simp [accept]

theorem eq_ofNat_of_toNat_eq {w n : Nat} {x : BitVec w} (h : x.toNat = n) : x = BitVec.ofNat w n := by
  rw [← h, BitVec.ofNat_toNat, BitVec.setWidth_eq]

/-- `DATA` taken apart again: setting it sets the four fields it overlays (30_encoding.md R72). -/
theorem Fields.withData_of_data (f g : Fields) :
    g.withData f.data = { g with da := f.da, db := f.db, ea := f.ea, eb := f.eb } := by
  simp only [Fields.withData, Fields.mk.injEq, true_and, ← BitVec.toNat_inj, BitVec.extractLsb'_toNat, Fields.data,
    toNat_append_eq_add, Nat.shiftRight_eq_div_pow]
  refine ⟨?_, ?_, ?_, ?_⟩
  all_goals omega

/-- The other direction of `toInstr_toFields`: the fields an opcode does not use are 0 (R80), and 0 is what the
instruction's own fields have there. -/
theorem Fields.toFields_of_toInstr {f : Fields} {i : Instr} (h : f.toInstr = some i) : i.toFields = f := by
  obtain ⟨op, rd, ra, rb, sg, el, rnd, ovf, ss, rsv, dd, imm, da, db, ea, eb⟩ := f
  unfold Fields.toInstr at h
  split at h
  · contradiction
  next hrsv =>
    obtain rfl := not_not.mp hrsv
    dsimp only at h
    split at h
    case h_28 => contradiction
    all_goals
      next hop =>
        obtain rfl := eq_ofNat_of_toNat_eq hop
        obtain ⟨hzero, rfl⟩ := accept_eq_some.mp h
        simp only [Fields.noTags, Fields.noDigits, Fields.noData, Fields.noExps, Bool.and_eq_true, Bool.not_eq_true',
          beq_iff_eq] at hzero
        simp [Instr.toFields, Fields.policy, Fields.wide, Fields.ofOp, Fields.ty, Fields.withData_of_data,
          toField_ovf_ofField, hzero]

/-- A word decodes to a command exactly when it is the command's word. -/
theorem decode_eq_some_iff {c : CmdWord} {i : Instr} : decode c = some i ↔ encode i = c := by
  constructor
  · intro h
    rw [encode, Fields.toFields_of_toInstr h, Fields.toWord_ofWord]
  · rintro rfl
    rw [decode, encode, Fields.ofWord_toWord, toInstr_toFields]

/-- Settles O1: a word and its fields, and fields and their instruction, determine each other. -/
theorem decodeOfEncode : Obligations.DecodeOfEncode := fun _ => decode_eq_some_iff.mpr rfl

/-- Settles O2, the other direction of the same equivalence. -/
theorem encodeOfDecode : Obligations.EncodeOfDecode := fun _ _ => decode_eq_some_iff.mp

/-! ### The opcode table -/

/-- The bitwise AND of two command words, field by field. -/
def Fields.and (f g : Fields) : Fields where
  op := f.op &&& g.op
  rd := f.rd &&& g.rd
  ra := f.ra &&& g.ra
  rb := f.rb &&& g.rb
  s := f.s && g.s
  el := f.el && g.el
  rnd := f.rnd &&& g.rnd
  ovf := f.ovf &&& g.ovf
  ss := f.ss && g.ss
  rsv := f.rsv &&& g.rsv
  dd := f.dd &&& g.dd
  imm := f.imm &&& g.imm
  da := f.da &&& g.da
  db := f.db &&& g.db
  ea := f.ea &&& g.ea
  eb := f.eb &&& g.eb

theorem Fields.ofWord_and (c d : CmdWord) : Fields.ofWord (c &&& d) = (Fields.ofWord c).and (Fields.ofWord d) := by
  simp only [Fields.ofWord, Fields.and, BitVec.extractLsb'_and, BitVec.getLsbD_and]

theorem Fields.ofWord_inj {c d : CmdWord} : Fields.ofWord c = Fields.ofWord d ↔ c = d :=
  ⟨fun h => by rw [← Fields.toWord_ofWord c, h, Fields.toWord_ofWord], fun h => by rw [h]⟩

/-- A row's test, on the fields of the word. -/
theorem and_mask_eq_iff {c : CmdWord} {row : TableRow} :
    c &&& row.mask = row.pattern ↔ (Fields.ofWord c).and (Fields.ofWord row.mask) = Fields.ofWord row.pattern := by
  rw [← Fields.ofWord_inj, Fields.ofWord_and]

/-- A field the mask covers whole. -/
theorem and_eq_self_of_ones {w : Nat} (x : BitVec w) {m : BitVec w} (h : m = BitVec.allOnes w) : x &&& m = x := by
  rw [h, BitVec.and_allOnes]

/-- The word of a command passes its row's test: the mask covers the opcode and the fields the command leaves 0. -/
theorem encode_and_mask (i : Instr) :
    ∃ row ∈ opcodeTable, row.mnemonic = i.mnemonic ∧ encode i &&& row.mask = row.pattern := by
  simp only [and_mask_eq_iff, encode, Fields.ofWord_toWord]
  cases i <;> simp [opcodeTable, Instr.mnemonic] <;>
    simp [Fields.and, Instr.toFields, Fields.ofWord, Fields.withData, Fields.wide, Fields.policy, Fields.ofOp]

/-- A word that passes a row's test decodes to a command of the row: the opcode is the row's, and every field the opcode
does not use is 0. -/
theorem decode_of_and_mask {c : CmdWord} {row : TableRow} (hr : row ∈ opcodeTable)
    (h : c &&& row.mask = row.pattern) : ∃ i, decode c = some i ∧ i.mnemonic = row.mnemonic := by
  rw [and_mask_eq_iff] at h
  unfold decode
  generalize Fields.ofWord c = f at h
  obtain ⟨op, rd, ra, rb, sg, el, rnd, ovf, ss, rsv, dd, imm, da, db, ea, eb⟩ := f
  simp only [opcodeTable, List.mem_append, List.mem_cons, List.not_mem_nil, or_false] at hr
  casesm* _ ∨ _
  all_goals
    subst row
    simp [Fields.and, Fields.ofWord] at h
    simp (disch := decide) only [and_eq_self_of_ones] at h
    simp [Fields.toInstr, accept, Fields.noTags, Fields.noDigits, Fields.noExps, Fields.noData, h, Instr.mnemonic]

/-- Settles O3: the word of a command passes its row's test, and what passes a row's test is a word of that row. -/
theorem decoderMatchesTheTable : Obligations.DecoderMatchesTheTable := fun c =>
  ⟨fun i h => by
    obtain rfl := decode_eq_some_iff.mp h
    exact encode_and_mask i, fun _ => decode_of_and_mask⟩

/-! ### Examples of the spec -/

/-- Settles O4: each command's word, computed, is the spec's; the opcode 0x05 is reserved. -/
theorem specWordsDecode : Obligations.SpecWordsDecode := by
  simp only [Obligations.SpecWordsDecode, decode_eq_some_iff]
  decide

/-- Settles O5: the eight codes of `RND` and the four of `OVF`. -/
theorem tagCodes : Obligations.TagCodes := by
  unfold Obligations.TagCodes
  decide

end Sys2Proof

/-! The machine as a whole: what every effect leaves alone, what reset leaves, and what every step keeps. -/

namespace Sys2Proof.Machine

/-! ### Reset -/

section
variable {p : Params}

theorem resetOf_regs_eq {v : VReg} (hv : v ∈ (State.resetOf p).regs) : v = List.replicate p.n ⟨0, false⟩ :=
  List.eq_of_mem_replicate hv

/-- Every register of a reset block has `N` words, none of them valid. -/
theorem resetOf_regs_unwritten {v : VReg} (hv : v ∈ (State.resetOf p).regs) :
    v.length = p.n ∧ ∀ c ∈ v, c.ok = false := by
  rw [resetOf_regs_eq hv]
  exact ⟨List.length_replicate, fun c hc => by rw [List.eq_of_mem_replicate hc]⟩

theorem resetOf_regs_length : (State.resetOf p).regs.length = p.nreg := List.length_replicate

theorem resetOf_shaped : (State.resetOf p).RegsShaped :=
  ⟨resetOf_regs_length, fun v hv => by
    rw [resetOf_regs_eq hv]
    exact ⟨List.length_replicate, fun c hc => by rw [List.eq_of_mem_replicate hc]; exact Nat.two_pow_pos _⟩⟩

theorem statusLegal_zero : StatusLegal 0 := by decide

/-- A reset block satisfies the invariant. -/
theorem resetOf_inv (hp : p.Valid) : (State.resetOf p).Inv :=
  ⟨hp, resetOf_shaped, .inl rfl, statusLegal_zero, .inl rfl⟩

end

/-- The invariant does not speak of the host's lists. -/
theorem resetBlock_inv {s : State} (hp : s.params.Valid) : s.resetBlock.Inv := resetOf_inv hp

/-- Settles O8: the equation of an idle step. -/
theorem idleStepHoldsTheState : Obligations.IdleStepHoldsTheState := fun _ => step_of_idle

/-- Settles O9: a reset event maps the block to `resetOf` of its own parameters. -/
theorem resetEventClearsTheBlock : Obligations.ResetEventClearsTheBlock := fun _ _ h =>
  ⟨_, step_of_reset h, rfl, rfl, rfl, resetOf_regs_length, fun _ => resetOf_regs_unwritten, rfl, rfl, rfl,
    resetBlock_inv⟩

/-- Settles O10: `State.resetOf` is a list of unwritten registers, and zeros. -/
theorem resetValues : Obligations.ResetValues :=
  ⟨fun _ => ⟨rfl, resetOf_regs_length, fun _ => resetOf_regs_unwritten, rfl, rfl, rfl⟩, rfl⟩

/-- Settles O11: the parameters of `State.reset` are in range. -/
theorem resetSatisfiesInv : Obligations.ResetSatisfiesInv :=
  ⟨fun _ => resetOf_inv, resetOf_inv (by decide)⟩

/-! ### One step -/

theorem present_of_withFetchWord (s : State) (c : CmdWord) : s.withFetchWord 128 c.toNat = s.present c := by
  rw [State.withFetchWord, BitVec.toNat_mod_cancel, BitVec.ofNat_toNat, BitVec.setWidth_eq]

/-- Settles O6: the second clause presents the word of `i`, which decodes to `i`. -/
theorem stepRunsTheDecodedCommand : Obligations.StepRunsTheDecodedCommand := by
  refine ⟨fun _ _ _ _ => step_of_command, fun s i => ?_⟩
  rw [present_of_withFetchWord]
  exact step_of_command rfl (decode_eq_some_iff.mpr rfl)

/-- Settles O7: the equation of a step on such a word. -/
theorem undecodableWordIsIllegal : Obligations.UndecodableWordIsIllegal := fun _ _ _ h hc =>
  ⟨_, step_of_undecodable h hc, raise_failsWith _ _⟩

/-- What a step can be: idle, a reset, a command, or the failure step of a word that is no command. -/
theorem step_cases {s t : State} (h : step s = .next t) :
    s.input = [] ∧ t = s ∨
      (∃ rest, s.input = .reset :: rest ∧ t = ({ s with input := rest } : State).resetBlock) ∨
      ∃ c rest, s.input = .command c :: rest ∧
        ((∃ i, exec i { s with input := rest } = .next t) ∨
          t = ({ s with input := rest } : State).raise .illegalCommand) := by
  cases hin : s.input with
  | nil =>
    rw [step_of_idle hin] at h
    exact .inl ⟨rfl, (Host.Outcome.next.inj h).symm⟩
  | cons e rest =>
    cases e with
    | reset =>
      rw [step_of_reset hin] at h
      exact .inr (.inl ⟨rest, rfl, (Host.Outcome.next.inj h).symm⟩)
    | command c =>
      refine .inr (.inr ⟨c, rest, rfl, ?_⟩)
      cases hc : decode c with
      | none =>
        rw [step_of_undecodable hin hc] at h
        exact .inr (Host.Outcome.next.inj h).symm
      | some i =>
        rw [step_of_command hin hc] at h
        exact .inl ⟨i, h⟩

/-! ### What every effect leaves alone -/

/-- An effect, and then the response, is the frame of a command that succeeds. -/
theorem Effect.succeeds {s t : State} {i : Instr} (h : Effect s i t) (data : Data64) :
    Succeeds s (t.respond data) data := by
  cases h <;> subst t <;> exact ⟨rfl, rfl, rfl, rfl⟩

/-- Only a comparison writes FLAGS. -/
theorem Effect.flags_eq {s t : State} {i : Instr} (h : Effect s i t) (hi : ∀ ra rb sg, i ≠ .wcmp ra rb sg) :
    t.flags = s.flags := by
  cases h with
  | nothing _ _ h => rw [h]
  | register rd x _ _ h => rw [h, setReg_flags]
  | word rd k v _ _ _ h => rw [h, setWord_flags]
  | compare ra rb sg _ hw => exact absurd hw (hi ra rb sg)
  | typed _ _ _ _ _ _ _ _ _ h => rw [h, setRtype_flags, setReg_flags]
  | unspecified _ _ _ _ _ _ _ _ h => rw [h, setRtype_flags, setAny_flags]

/-- Only the destination is written. -/
theorem Effect.reg_eq {s t : State} {i : Instr} (h : Effect s i t) {r : RegField} (hr : destOf i ≠ some r) :
    t.reg r = s.reg r := by
  have ne : ∀ {rd}, destOf i = some rd → r ≠ rd := fun hd e => hr (by rw [hd, e])
  cases h with
  | nothing _ _ h => rw [h]
  | register rd x hd _ h => rw [h, setReg_reg_other x (ne hd)]
  | word rd k v hd _ _ h => rw [h, setWord_reg_other _ _ (ne hd)]
  | compare _ _ _ f _ _ h => rw [h, setFlags_reg]
  | typed rd _ _ _ x hd _ _ _ h => rw [h, setRtype_reg, setReg_reg_other x (ne hd)]
  | unspecified rd _ _ _ hd _ _ _ h => rw [h, setRtype_reg, setAny_reg, setReg_reg_other _ (ne hd)]

/-- The next state of a command is a success or a failure step, whichever state it started from. -/
theorem exec_succeeds_or_fails {i : Instr} {s t : State} (h : exec i s = .next t) :
    (∃ data, Succeeds s t data) ∨ ∃ f, FailsWith s t f := by
  rcases exec_cases h with ⟨f, rfl⟩ | ⟨u, data, _, _, _, _, effect, rfl⟩
  · exact .inr ⟨f, raise_failsWith s f⟩
  · exact .inl ⟨data, effect.succeeds data⟩

/-- Settles O15: an effect leaves STATUS alone, and the failure step writes nothing else. -/
theorem everyCommandSucceedsOrFails : Obligations.EveryCommandSucceedsOrFails := fun i s =>
  let ⟨t, ht⟩ := exec_next i s
  ⟨t, ht, exec_succeeds_or_fails ht⟩

/-- Settles O18: of the effects only the comparison writes FLAGS, and the failure step does not. -/
theorem onlyCompareWritesFlags : Obligations.OnlyCompareWritesFlags := by
  intro i s t hi h
  rcases exec_cases h with ⟨f, rfl⟩ | ⟨u, data, _, _, _, _, effect, rfl⟩
  · exact raise_flags s f
  · exact effect.flags_eq hi

/-- A command takes no event and adds one response. -/
theorem exec_host_frame {i : Instr} {s t : State} (h : exec i s = .next t) :
    t.params = s.params ∧ t.input = s.input ∧ ∃ r, t.out = s.out ++ [r] := by
  rcases exec_succeeds_or_fails h with ⟨data, hok⟩ | ⟨f, hfail⟩
  · exact ⟨hok.params, hok.input, _, hok.out⟩
  · exact ⟨hfail.params, hfail.input, _, hfail.out⟩

/-- Settles O22: an effect writes its destination, and a failure step no register at all. -/
theorem onlyTheDestinationChanges : Obligations.OnlyTheDestinationChanges := by
  intro i s t h
  refine ⟨fun r hr => ?_, exec_host_frame h⟩
  rcases exec_cases h with ⟨f, rfl⟩ | ⟨u, data, _, _, _, _, effect, rfl⟩
  · exact raise_reg s r f
  · exact effect.reg_eq hr

/-! ### Valid bits -/

/-- A valid word of a register that is written whole is valid after it. -/
theorem setReg_keeps_valid {s : State} (hs : s.RegsShaped) {rd r : RegField} (x : Int) {k : Nat} {v : Word}
    (hrd : rd.toNat < s.regs.length) (hv : (s.reg r)[k]? = some ⟨v, true⟩) :
    ∃ v', ((s.setReg rd x).reg r)[k]? = some ⟨v', true⟩ := by
  by_cases h : r = rd
  · subst h
    obtain ⟨hlen, _⟩ := hs.reg (hs.1 ▸ hrd)
    have hk : k < s.params.n := hlen ▸ (List.getElem?_eq_some_iff.mp hv).1
    exact ⟨_, (setReg_holds x hrd).2 k hk⟩
  · exact ⟨v, by rw [setReg_reg_other x h, hv]⟩

theorem setWord_keeps_valid {s : State} {rd r : RegField} (j : Nat) (w : Word) {k : Nat} {v : Word}
    (hrd : rd.toNat < s.regs.length) (hv : (s.reg r)[k]? = some ⟨v, true⟩) :
    ∃ v', ((s.setWord rd j w).reg r)[k]? = some ⟨v', true⟩ := by
  by_cases h : r = rd
  · subst h
    rw [setWord_reg_same j w hrd]
    by_cases hj : j = k
    · subst hj
      exact ⟨w, List.getElem?_set_self (List.getElem?_eq_some_iff.mp hv).1⟩
    · exact ⟨v, by rw [List.getElem?_set_ne hj, hv]⟩
  · exact ⟨v, by rw [setWord_reg_other j w h, hv]⟩

/-- Settles O21: every write of a register or of a word sets valid bits and clears none. -/
theorem commandsKeepValidBits : Obligations.CommandsKeepValidBits := by
  intro i s t ⟨_, hs, _⟩ h r k v hv
  rcases exec_cases h with ⟨f, rfl⟩ | ⟨u, data, hl, _, _, _, effect, rfl⟩
  · exact ⟨v, hv⟩
  · rw [respond_reg]
    cases effect with
    | nothing _ _ h => exact ⟨v, by rw [h, hv]⟩
    | register rd x hd _ h => rw [h]; exact setReg_keeps_valid hs x (dest_lt hs hl hd) hv
    | word rd j w hd _ _ h => rw [h]; exact setWord_keeps_valid j w (dest_lt hs hl hd) hv
    | compare _ _ _ f _ _ h => exact ⟨v, by rw [h, setFlags_reg, hv]⟩
    | typed rd _ _ _ x hd _ _ _ h => rw [h, setRtype_reg]; exact setReg_keeps_valid hs x (dest_lt hs hl hd) hv
    | unspecified rd _ _ _ hd _ _ _ h =>
      rw [h, setRtype_reg, setAny_reg]
      exact setReg_keeps_valid hs _ (dest_lt hs hl hd) hv

/-! ### The invariant -/

theorem stickyBits_recordFailure (st : BitVec 16) (f : Failure) :
    stickyBits (recordFailure st f) = stickyBits st ||| BitVec.ofNat 8 (2 ^ (failureCode f - 1)) :=
  BitVec.extractLsb'_append_eq_right

theorem failureCode_bounds (f : Failure) : 1 ≤ failureCode f ∧ failureCode f ≤ 5 := by
  cases f <;> decide

/-- The failure step leaves STATUS consistent: it sets the sticky bit of the cause it records, one of the low five. -/
theorem statusLegal_recordFailure {st : BitVec 16} (h : StatusLegal st) (f : Failure) :
    StatusLegal (recordFailure st f) := by
  obtain ⟨hsticky, _⟩ := h
  obtain ⟨hcode, hcode'⟩ := failureCode_bounds f
  have hcause := recordFailure_lastCause st f
  have hbit : (recordFailure st f).getLsbD (failureCode f - 1) = true := by
    rw [recordFailure_sticky st f _ (by omega)]
    simp
  refine ⟨?_, by omega, ?_, fun _ => by rw [hcause, hbit]⟩
  · have hnew : 2 ^ (failureCode f - 1) < 2 ^ 5 := Nat.pow_lt_pow_right (by decide) (by omega)
    rw [stickyBits_recordFailure, BitVec.toNat_or, BitVec.toNat_ofNat, Nat.mod_eq_of_lt (by omega)]
    exact Nat.or_lt_two_pow (n := 5) hsticky hnew
  · have hne : lastCause (recordFailure st f) ≠ 0 := fun e => by rw [e] at hcause; simp at hcause; omega
    have hne' : stickyBits (recordFailure st f) ≠ 0 := fun e => by
      have hzero := congrArg (BitVec.getLsbD · (failureCode f - 1)) e
      simp only [stickyBits, BitVec.getLsbD_extractLsb', Nat.zero_add, hbit] at hzero
      simp at hzero
      omega
    exact iff_of_false hne hne'

theorem raise_inv {s : State} (h : s.Inv) (f : Failure) : (s.raise f).Inv :=
  let ⟨hp, hs, hflags, hstatus, hrtype⟩ := h
  ⟨hp, hs, hflags, statusLegal_recordFailure hstatus f, hrtype⟩

theorem rtypeLegal_rtypeOf {p : Params} (hp : p.Valid) (sg : Bool) {er : Int} {d : Nat} (h1 : 1 ≤ d) (hnw : d ≤ p.nw)
    (her : -65536 ≤ er) (her' : er ≤ 65534) : RtypeLegal p (rtypeOf sg er d) := by
  obtain ⟨_, _, _, hp', _⟩ := hp
  have hd : d < 2 ^ 16 := by
    have : p.nw ≤ 65535 := hp'
    omega
  refine .inr ?_
  rw [rtypeDigits_rtypeOf, Nat.mod_eq_of_lt hd, rtypeExp_rtypeOf, Int.bmod_eq_of_le (by omega) (by omega)]
  exact ⟨h1, hnw, her, her'⟩

/-- Every effect of a legal command that fits the storage keeps the invariant. -/
theorem Effect.inv {s t : State} {i : Instr} (effect : Effect s i t) (h : s.Inv) (hl : i.legal s.params = true)
    (hc : i.withinCapacity s.params = true) : t.Inv := by
  obtain ⟨hp, hs, hflags, hstatus, hrtype⟩ := h
  cases effect with
  | nothing _ _ h => rw [h]; exact ⟨hp, hs, hflags, hstatus, hrtype⟩
  | register rd x _ _ h => rw [h]; exact ⟨hp, setReg_shaped hs, hflags, hstatus, hrtype⟩
  | word rd k v hd _ hv h =>
    rw [h]
    exact ⟨hp, setWord_shaped hs (hs.1 ▸ dest_lt hs hl hd) hv, hflags, hstatus, hrtype⟩
  | compare _ _ _ f _ hf h => rw [h]; exact ⟨hp, hs, .inr hf, hstatus, hrtype⟩
  | typed rd sg er d x _ _ ht _ h =>
    obtain ⟨h1, hnw, her, her'⟩ := resultType_bounds hl hc ht
    rw [h]
    exact ⟨hp, setReg_shaped hs, hflags, hstatus, rtypeLegal_rtypeOf hp sg h1 hnw her her'⟩
  | unspecified rd sg er d _ _ ht _ h =>
    obtain ⟨h1, hnw, her, her'⟩ := resultType_bounds hl hc ht
    rw [h]
    exact ⟨hp, setReg_shaped (x := Config.anyWords s.draws) hs, hflags, hstatus,
      rtypeLegal_rtypeOf hp sg h1 hnw her her'⟩

theorem exec_keeps_inv {i : Instr} {s t : State} (h : s.Inv) (ht : exec i s = .next t) : t.Inv := by
  rcases exec_cases ht with ⟨f, rfl⟩ | ⟨u, data, hl, hc, _, _, effect, rfl⟩
  · exact raise_inv h f
  · exact effect.inv h hl hc

/-- Settles O12: by the kinds of step; a command keeps the invariant whatever events are left. -/
theorem stepKeepsInv : Obligations.StepKeepsInv := by
  intro s t h ht
  rcases step_cases ht with ⟨_, rfl⟩ | ⟨rest, _, rfl⟩ | ⟨c, rest, _, ⟨i, hi⟩ | rfl⟩
  · exact h
  · exact resetBlock_inv h.1
  · exact exec_keeps_inv (s := { s with input := rest }) h hi
  · exact raise_inv (s := { s with input := rest }) h _

/-! ### Sticky bits -/

theorem recordFailure_keeps_sticky {st : BitVec 16} (f : Failure) {k : Nat} (hk : k < 5) (h : st.getLsbD k = true) :
    (recordFailure st f).getLsbD k = true := by
  rw [recordFailure_sticky st f k (by omega), h, Bool.true_or]

/-- Settles O20: STATUS changes in failure steps only, which set bits. -/
theorem stickyBitsStay : Obligations.StickyBitsStay := by
  intro s t ht hreset k hk hbit
  rcases step_cases ht with ⟨_, rfl⟩ | ⟨rest, hin, _⟩ | ⟨c, rest, _, ⟨i, hi⟩ | rfl⟩
  · exact hbit
  · exact absurd hin (hreset rest)
  · rcases exec_cases hi with ⟨f, rfl⟩ | ⟨u, data, _, _, _, _, effect, rfl⟩
    · exact recordFailure_keeps_sticky f hk hbit
    · rw [(effect.succeeds data).status]
      exact hbit
  · exact recordFailure_keeps_sticky _ hk hbit

/-! ### Programs -/

/-- A command word, legal or not, is taken in one step and answered with one response. -/
theorem step_answers_command {s : State} {c : CmdWord} {rest : List HostEvent} (h : s.input = .command c :: rest) :
    ∃ t r, step s = .next t ∧ t.input = rest ∧ t.out = s.out ++ [r] := by
  cases hc : decode c with
  | none => exact ⟨_, _, step_of_undecodable h hc, rfl, rfl⟩
  | some i =>
    obtain ⟨t, ht⟩ := exec_next i { s with input := rest }
    obtain ⟨_, hin, r, hout⟩ := exec_host_frame ht
    exact ⟨t, r, (step_of_command h hc).trans ht, hin, hout⟩

theorem run_succ (M : Host.Core) {s t : M.State} (k : Nat) (h : M.step s = .next t) : M.run (k + 1) s = M.run k t := by
  rw [Host.Core.run, h]

/-- As many steps as there are command words give as many responses. -/
theorem run_program (program : List CmdWord) (s : State) (h : s.input = program.map .command) :
    ∃ t rs, Sys2Proof.core.run program.length s = .next t ∧ t.input = [] ∧ t.out = s.out ++ rs ∧
      rs.length = program.length := by
  induction program generalizing s with
  | nil => exact ⟨s, [], rfl, h, (List.append_nil _).symm, rfl⟩
  | cons c program ih =>
    obtain ⟨t, r, hstep, hin, hout⟩ := step_answers_command h
    obtain ⟨u, rs, hrun, hempty, hout', hlen⟩ := ih t hin
    refine ⟨u, r :: rs, (run_succ Sys2Proof.core _ hstep).trans hrun, hempty, ?_, congrArg (· + 1) hlen⟩
    rw [hout', hout, List.append_assoc, List.singleton_append]

/-- Settles O14: the events of an idle block with a program issued are the words of the program. -/
theorem oneResponsePerCommand : Obligations.OneResponsePerCommand := fun s program h =>
  run_program program (s.issue program) (by rw [State.issue, h, List.nil_append])

/-! ### The priority of failures -/

/-- A command whose divisor is 0 comes to DivideByZero, whatever else it computes. -/
theorem effectOf_of_dividesByZero {s : State} {i : Instr} (h : s.DividesByZero i) :
    effectOf s i = .error .divideByZero := by
  obtain ⟨r, sg, hd, hzero⟩ := h
  cases i <;> simp only [divisorOf, reduceCtorEq, Option.some.injEq, Prod.mk.injEq] at hd <;>
    obtain ⟨rfl, rfl⟩ := hd <;> simp only [effectOf, hzero, if_true]

/-- The one other failure of an effect is the Overflow of a P or F command under CHK. -/
theorem effectOf_error {s : State} {i : Instr} {f : Failure} (h : effectOf s i = .error f)
    (hd : ¬ s.DividesByZero i) : f = .overflow ∧ ∃ ty, typeOf i = some ty ∧ ty.ovf = .chk := by
  have ne : ∀ {r sg}, divisorOf i = some (r, sg) → s.valOf r sg ≠ 0 := fun hr hz => hd ⟨_, _, hr, hz⟩
  cases i
  case wdiv => rw [effectOf, if_neg (ne rfl)] at h; contradiction
  case wmod => rw [effectOf, if_neg (ne rfl)] at h; contradiction
  case pdiv | fdiv | fqnt =>
    rw [effectOf, if_neg (ne rfl)] at h
    obtain ⟨_, hchk, rfl⟩ := finish_error_iff.mp h
    exact ⟨rfl, _, rfl, hchk⟩
  case padd | psub | pmul | pshl | pshr | fadd | fsub | fmul | fcvt =>
    obtain ⟨_, hchk, rfl⟩ := finish_error_iff.mp h
    exact ⟨rfl, _, rfl, hchk⟩
  all_goals
    simp only [effectOf, reduceCtorEq] at h

/-- Settles O16: the checks stand in `checkedEffect` in the order of the rule, and the effect decides the rest. -/
theorem failurePriority : Obligations.FailurePriority := by
  intro i s
  rw [exec_eq, checkedEffect, checked, sourced_iff]
  cases hl : i.legal s.params
  · exact ⟨_, rfl, raise_failsWith s _⟩
  cases hc : i.withinCapacity s.params
  · exact ⟨_, rfl, raise_failsWith s _⟩
  cases hr : sourcesReadable s i
  · exact ⟨_, rfl, by simp [raise_failsWith]⟩
  simp only [if_true]
  cases he : effectOf s i with
  | ok r =>
    refine ⟨_, run_ok s r.1 r.2, ?_⟩
    have hd : ¬ s.DividesByZero i := fun hd => by rw [effectOf_of_dividesByZero hd] at he; contradiction
    simp only [Bool.true_eq_false, if_false, not_true_eq_false, false_implies, hd, true_and, true_implies]
    exact fun _ => .inl ⟨r.2, (effectOf_cases hl hc he).succeeds r.2⟩
  | error f =>
    refine ⟨_, run_error s f, ?_⟩
    by_cases hd : s.DividesByZero i
    · rw [effectOf_of_dividesByZero hd] at he
      obtain rfl := Except.error.inj he
      simp [hd, raise_failsWith]
    · obtain ⟨rfl, hchk⟩ := effectOf_error he hd
      simp [hd, raise_failsWith, hchk]

end Sys2Proof.Machine

/-! The range functions, the value of a written register, and the rounding unit over the rationals (00_scope.md R11,
R12; 42_policy.md section 2). -/

namespace Sys2Proof.Machine

/-! ### The range functions -/

section
variable {x y : Int} {d : Nat} {sg : Bool}

/-- The range of a type, written with its bounds. -/
theorem fits_iff_bounds :
    fits x d sg = true ↔ (if sg then -2 ^ (d - 1) else 0) ≤ x ∧ x < (if sg then 2 ^ (d - 1) else 2 ^ d) := by
  rw [fits_iff]
  cases sg <;> simp only [lo, hi, pow2_eq, Bool.false_eq_true, if_true, if_false] <;> omega

/-- The range of a type is `2^D` numbers wide. -/
theorem abs_sub_lt_of_fits (hd : 1 ≤ d) (hx : fits x d sg = true) (hy : fits y d sg = true) : |x - y| < 2 ^ d := by
  have hhalf := pow2_succ_pred hd
  rw [fits_iff] at hx hy
  rw [← pow2_eq, abs_lt]
  cases sg <;> simp only [lo, hi, Bool.false_eq_true, if_true, if_false] at hx hy <;> omega

/-- Two numbers of the range that are congruent modulo `2^D` are the same. -/
theorem eq_of_fits_of_dvd (hd : 1 ≤ d) (hx : fits x d sg = true) (hy : fits y d sg = true) (h : (2 ^ d : Int) ∣ x - y) :
    x = y :=
  sub_eq_zero.mp (Int.eq_zero_of_abs_lt_dvd h (abs_sub_lt_of_fits hd hx hy))

theorem dvd_sub_wrap (x : Int) (d : Nat) (sg : Bool) : (2 ^ d : Int) ∣ x - wrap x d sg := by
  rw [← pow2_eq]
  cases sg
  · exact Int.dvd_self_sub_emod
  · have h : x - wrap x d true = x + pow2 (d - 1) - (x + pow2 (d - 1)) % pow2 d := by
      simp only [wrap, if_true]
      ring
    rw [h]
    exact Int.dvd_self_sub_emod

theorem wrap_emod (x : Int) (d : Nat) (sg : Bool) : wrap x d sg % pow2 d = x % pow2 d :=
  Int.modEq_iff_dvd.mpr (by rw [pow2_eq]; exact dvd_sub_wrap x d sg)

/-- `wrap` is the one number of the range congruent to `x` modulo `2^D`. -/
theorem eq_wrap_iff (hd : 1 ≤ d) (hy : fits y d sg = true) : y = wrap x d sg ↔ (2 ^ d : Int) ∣ x - y := by
  refine ⟨fun h => h ▸ dvd_sub_wrap x d sg, fun h => ?_⟩
  refine eq_of_fits_of_dvd hd hy (fits_wrap x sg hd) ?_
  have hsub := dvd_sub (dvd_sub_wrap x d sg) h
  rwa [sub_sub_sub_cancel_left] at hsub

theorem wrap_eq_self (hd : 1 ≤ d) (hx : fits x d sg = true) : wrap x d sg = x :=
  ((eq_wrap_iff hd hx).mpr (by simp)).symm

/-- A wrapped value depends on its argument modulo any `2^M` with `D ≤ M` only. -/
theorem wrap_congr (hd : 1 ≤ d) {m : Nat} (hm : d ≤ m) (h : x % 2 ^ m = y % 2 ^ m) : wrap x d sg = wrap y d sg := by
  refine (eq_wrap_iff hd (fits_wrap x sg hd)).mpr ?_
  have hxy : (2 ^ d : Int) ∣ y - x := (pow_dvd_pow 2 hm).trans (Int.ModEq.dvd h)
  have hsum := dvd_add hxy (dvd_sub_wrap x d sg)
  rwa [sub_add_sub_cancel] at hsum

/-- `sat` is a number of the range nearest to `x`. -/
theorem abs_sub_sat_le (hy : fits y d sg = true) : |x - sat x d sg| ≤ |x - y| := by
  rw [fits_iff] at hy
  unfold sat
  split_ifs with h h'
  · rw [abs_of_nonneg (by omega), abs_of_nonneg (by omega)]
    omega
  · rw [abs_of_nonpos (by omega), abs_of_nonpos (by omega)]
    omega
  · rw [sub_self, abs_zero]
    exact abs_nonneg _

/-- `ext` of a number of `D` bits lies in the range. -/
theorem fits_ext {u : Int} (hd : 1 ≤ d) (h0 : 0 ≤ u) (h1 : u < 2 ^ d) : fits (ext u d sg) d sg = true := by
  have hhalf := pow2_succ_pred hd
  rw [← pow2_eq] at h1
  rw [fits_iff]
  cases sg
  · simp only [lo, hi, ext, Bool.false_and, Bool.false_eq_true, if_false]
    omega
  · simp only [lo, hi, ext, Bool.true_and, decide_eq_true_eq, if_true]
    split <;> omega

theorem dvd_sub_ext (u : Int) (d : Nat) (sg : Bool) : (2 ^ d : Int) ∣ u - ext u d sg := by
  unfold ext
  split
  · rw [sub_sub_cancel, pow2_eq]
  · rw [sub_self]
    exact dvd_zero _

/-- Extending the low `D` bits is wrapping. -/
theorem ext_emod_eq_wrap (hd : 1 ≤ d) : ext (x % 2 ^ d) d sg = wrap x d sg := by
  have hpos : (0 : Int) < 2 ^ d := by positivity
  refine (eq_wrap_iff hd (fits_ext hd (Int.emod_nonneg x hpos.ne') (Int.emod_lt_of_pos x hpos))).mpr ?_
  have hsum := dvd_add (Int.dvd_self_sub_emod (x := x) (m := 2 ^ d)) (dvd_sub_ext (x % 2 ^ d) d sg)
  rwa [sub_add_sub_cancel] at hsum

end

/-- Settles O24: `wrap`, `sat` and `ext` each give a number of the range, and the range is `2^D` wide. -/
theorem rangeFunctions : Obligations.RangeFunctions := fun x _ sg hd =>
  ⟨fits_iff_bounds, fits_wrap x sg hd, fun _ => eq_wrap_iff hd, fits_sat x sg, fun _ => abs_sub_sat_le,
    ext_emod_eq_wrap hd⟩

/-! ### The value of a written register -/

theorem one_le_nw {p : Params} (hp : p.Valid) : 1 ≤ p.nw :=
  let ⟨hw, _, hn, _⟩ := hp
  Nat.mul_pos hn hw

/-- Words that make up a number below `2^NW` have a value in the range of a register, under either signedness. -/
theorem fits_val {p : Params} {ws : List Word} (sg : Bool) (hnw : 1 ≤ p.nw) (hlt : (uval p.w ws : Int) < pow2 p.nw) :
    fits (val p sg ws) p.nw sg = true := by
  have hhalf := pow2_succ_pred hnw
  rw [fits_iff]
  cases sg
  · simp only [lo, hi, val, Bool.false_eq_true, if_false]
    omega
  · simp only [lo, hi, val, sval, if_true]
    split <;> omega

/-- The value of a register of a well-shaped state lies in the range of `NW` digits. -/
theorem fits_valOf {s : State} (hp : s.params.Valid) (hs : s.RegsShaped) {r : RegField} (hr : r.toNat < s.params.nreg)
    (sg : Bool) : fits (s.valOf r sg) s.params.nw sg = true := by
  obtain ⟨hlen, hlt⟩ := hs.reg hr
  have h := uval_lt s.params.w (s.reg r).words fun v hv => by
    obtain ⟨c, hc, rfl⟩ := List.mem_map.mp hv
    exact hlt c hc
  rw [VReg.words, List.length_map, hlen] at h
  exact fits_val sg (one_le_nw hp) (by rw [pow2_eq]; exact_mod_cast h)

section
variable {t : State} {r : RegField} {x y : Int}

/-- A register that holds `words(x)` is these words, all valid. -/
theorem holds_iff : t.Holds r x ↔ t.reg r = (words t.params x).map fun v => ⟨v, true⟩ := by
  have hword : ∀ k, (x % 2 ^ t.params.nw).toNat / 2 ^ (k * t.params.w) % 2 ^ t.params.w = wordOf t.params x k :=
    fun k => by rw [wordOf, pow2_eq]
  constructor
  · rintro ⟨hlen, hget⟩
    refine List.ext_getElem? fun k => ?_
    by_cases hk : k < t.params.n
    · rw [hget k hk, List.getElem?_map, words_getElem _ _ hk, hword]
      rfl
    · rw [List.getElem?_eq_none (by omega), List.getElem?_eq_none (by simp; omega)]
  · intro h
    rw [State.Holds, h]
    refine ⟨by simp, fun k hk => ?_⟩
    rw [List.getElem?_map, words_getElem _ _ hk, hword]
    rfl

/-- What a register holds is known modulo `2^NW` only. -/
theorem State.Holds.congr (h : t.Holds r x) (hxy : x % pow2 t.params.nw = y % pow2 t.params.nw) : t.Holds r y :=
  holds_iff.mpr (words_congr hxy ▸ holds_iff.mp h)

theorem State.Holds.words_eq (h : t.Holds r x) : (t.reg r).words = words t.params x := by
  rw [holds_iff.mp h, VReg.words, List.map_map]
  exact List.map_id _

theorem State.Holds.readable (h : t.Holds r x) : t.readable r = true := by
  rw [readable_iff, holds_iff.mp h]
  simp

theorem State.Holds.valOf_emod (h : t.Holds r x) (sg : Bool) :
    t.valOf r sg % pow2 t.params.nw = x % pow2 t.params.nw := by
  rw [State.valOf, h.words_eq, val_emod, uval_words_eq_emod, Int.emod_emod]

theorem State.Holds.fits_valOf (h : t.Holds r x) (hp : t.params.Valid) (sg : Bool) :
    fits (t.valOf r sg) t.params.nw sg = true := by
  rw [State.valOf, h.words_eq]
  refine fits_val sg (one_le_nw hp) ?_
  rw [uval_words_eq_emod]
  exact Int.emod_lt_of_pos x (pow2_pos _)

/-- The value is read back exactly where it lies in the range. -/
theorem State.Holds.valOf_eq_iff (h : t.Holds r x) (hp : t.params.Valid) (sg : Bool) :
    t.valOf r sg = x ↔ fits x t.params.nw sg = true := by
  refine ⟨fun e => e ▸ h.fits_valOf hp sg, fun hx => ?_⟩
  rw [State.valOf, h.words_eq]
  exact val_eq_of_fits (one_le_nw hp) (uval_words_eq_emod _ x) hx

end

/-- Settles O23: the unsigned value is `x mod 2^NW`, and the signed one is congruent to it and in range. -/
theorem valueOfAWrittenRegister : Obligations.ValueOfAWrittenRegister := by
  intro t r x hp h
  obtain ⟨hlow, hhigh⟩ := fits_iff_bounds.mp (h.fits_valOf hp true)
  have hunsigned : t.valOf r false = x % 2 ^ t.params.nw := by
    rw [State.valOf, h.words_eq, ← pow2_eq]
    exact uval_words_eq_emod _ x
  obtain ⟨j, hj⟩ := Int.ModEq.dvd (h.valOf_emod true)
  rw [pow2_eq] at hj
  exact ⟨h.readable, hunsigned, ⟨j, by linarith⟩, hlow, hhigh, h.valOf_eq_iff hp⟩

/-! ### The rounding unit over the rationals -/

theorem roundRatio_of_pos {p q : Int} (hq : 0 < q) (tag : Rnd) :
    roundRatio p q tag = if p % q = 0 then p / q else roundFraction (p / q) (p % q) q (decide (p < 0)) tag := by
  simp only [roundRatio, if_neg (not_lt.mpr hq.le)]

/-- A ratio is its floor and a fraction below 1. -/
theorem ratio_eq_floor_add {p q : Int} (hq : 0 < q) :
    (p / q : ℚ) = (p / q : Int) + (p % q : Int) / q ∧ (0 : ℚ) ≤ (p % q : Int) / q ∧ ((p % q : Int) / q : ℚ) < 1 := by
  have hq' : (0 : ℚ) < q := by exact_mod_cast hq
  have hsum : (q : ℚ) * (p / q : Int) + (p % q : Int) = p := by exact_mod_cast Int.mul_ediv_add_emod p q
  have hlt : ((p % q : Int) : ℚ) < q := by exact_mod_cast Int.emod_lt_of_pos p hq
  have hnonneg : (0 : ℚ) ≤ (p % q : Int) := by exact_mod_cast Int.emod_nonneg p hq.ne'
  refine ⟨?_, div_nonneg hnonneg hq'.le, (div_lt_one hq').mpr hlt⟩
  rw [div_eq_iff hq'.ne', add_mul, div_mul_cancel₀ _ hq'.ne', mul_comm, hsum]

/-- The floor of a ratio of integers is the division rounding down. -/
theorem floor_ratio {p q : Int} (hq : 0 < q) : ⌊(p / q : ℚ)⌋ = p / q := by
  obtain ⟨hv, h0, h1⟩ := ratio_eq_floor_add (p := p) hq
  exact Int.floor_eq_iff.mpr ⟨by linarith, by linarith⟩

/-- The ceiling, where the ratio is no integer. -/
theorem ceil_ratio {p q : Int} (hq : 0 < q) (hr : p % q ≠ 0) : ⌈(p / q : ℚ)⌉ = p / q + 1 := by
  obtain ⟨hv, h0, h1⟩ := ratio_eq_floor_add (p := p) hq
  have hpos : (0 : ℚ) < (p % q : Int) / q :=
    lt_of_le_of_ne h0 (Ne.symm (div_ne_zero (by exact_mod_cast hr) (by exact_mod_cast hq.ne')))
  exact Int.ceil_eq_iff.mpr ⟨by push_cast; linarith, by push_cast; linarith⟩

/-- What the rounding tags promise of the integer a ratio `v` is rounded to (42_policy.md section 2). -/
structure RoundsAs (v : ℚ) (r : Rnd → Int) : Prop where
  tn : r .tn = ⌊v⌋
  tz : r .tz = if 0 ≤ v then ⌊v⌋ else ⌈v⌉
  nat : r .nat = r .tz
  te : |v - r .te| ≤ 1 / 2
  even : |v - r .te| = 1 / 2 → r .te % 2 = 0
  ta : |v - r .ta| ≤ 1 / 2
  away : |v - r .ta| = 1 / 2 → |v| ≤ |(r .ta : ℚ)|

theorem roundsAs_of_exact (n : Int) : RoundsAs (n : ℚ) fun _ => n where
  tn := (Int.floor_intCast n).symm
  tz := by rw [Int.floor_intCast, Int.ceil_intCast, ite_self]
  nat := rfl
  te := by norm_num
  even := by norm_num
  ta := by norm_num
  away := by norm_num

/-- Away from the integers the value lies between `n` and `n + 1`, half way where `2 * rem` meets `q`. -/
theorem roundsAs_roundFraction {n rem q : Int} (h0 : 0 < rem) (h1 : rem < q) {v : ℚ} (hv : v = n + rem / q) {neg : Bool}
    (hneg : neg = true ↔ v < 0) : RoundsAs v (roundFraction n rem q neg) := by
  have hq : (0 : ℚ) < q := by exact_mod_cast h0.trans h1
  have hf0 : (0 : ℚ) < rem / q := div_pos (by exact_mod_cast h0) hq
  have hf1 : (rem / q : ℚ) < 1 := (div_lt_one hq).mpr (by exact_mod_cast h1)
  have hbelow : 2 * rem < q ↔ (rem / q : ℚ) < 1 / 2 := by
    rw [div_lt_div_iff₀ hq two_pos, mul_comm, one_mul]
    exact_mod_cast Iff.rfl
  have habove : q < 2 * rem ↔ (1 / 2 : ℚ) < rem / q := by
    rw [div_lt_div_iff₀ two_pos hq, mul_comm (rem : ℚ), one_mul]
    exact_mod_cast Iff.rfl
  generalize (rem / q : ℚ) = f at *
  subst hv
  have hfloor : ⌊(n + f : ℚ)⌋ = n := Int.floor_eq_iff.mpr ⟨by linarith, by linarith⟩
  have hceil : ⌈(n + f : ℚ)⌉ = n + 1 := Int.ceil_eq_iff.mpr ⟨by push_cast; linarith, by push_cast; linarith⟩
  have hdown : |(n + f : ℚ) - n| = f := by rw [add_sub_cancel_left, abs_of_pos hf0]
  have hup : |(n + f : ℚ) - (n + 1 : Int)| = 1 - f := by
    rw [abs_of_neg (by push_cast; linarith)]
    push_cast
    ring
  refine ⟨hfloor.symm, ?_, rfl, ?_, ?_, ?_, ?_⟩ <;> simp only [roundFraction]
  · by_cases h : (n + f : ℚ) < 0
    · rw [if_pos (hneg.mpr h), if_neg (not_le.mpr h), hceil]
    · rw [if_neg (hneg.not.mpr h), if_pos (not_lt.mp h), hfloor]
  · split_ifs with hb ha <;> simp only [hdown, hup] <;> simp only [hbelow, habove] at * <;> linarith
  · split_ifs with hb ha he <;> simp only [hdown, hup] <;> intro heq
    · simp only [hbelow] at hb; linarith
    · simp only [habove] at ha; linarith
    · exact he
    · omega
  · split_ifs with hb ha <;> simp only [hdown, hup] <;> simp only [hbelow, habove] at * <;> linarith
  · split_ifs with hb ha hn <;> simp only [hdown, hup] <;> intro heq
    · simp only [hbelow] at hb; linarith
    · simp only [habove] at ha; linarith
    · have hv := hneg.mp hn
      have hn0 : (n : ℚ) ≤ 0 := by linarith
      rw [abs_of_neg hv, abs_of_nonpos hn0]
      linarith
    · have hv : (0 : ℚ) ≤ n + f := not_lt.mp (hneg.not.mp hn)
      rw [abs_of_nonneg hv, abs_of_nonneg] <;> push_cast <;> linarith

theorem roundsAs_roundRatio {p q : Int} (hq : 0 < q) : RoundsAs (p / q : ℚ) (roundRatio p q) := by
  obtain ⟨hv, _, _⟩ := ratio_eq_floor_add (p := p) hq
  have hnonneg := Int.emod_nonneg p hq.ne'
  by_cases hr : p % q = 0
  · have : roundRatio p q = fun _ => p / q := funext fun tag => by rw [roundRatio_of_pos hq, if_pos hr]
    rw [hv, this, hr, Int.cast_zero, zero_div, add_zero]
    exact roundsAs_of_exact _
  · have : roundRatio p q = roundFraction (p / q) (p % q) q (decide (p < 0)) :=
      funext fun tag => by rw [roundRatio_of_pos hq, if_neg hr]
    rw [this]
    refine roundsAs_roundFraction (by omega) (Int.emod_lt_of_pos p hq) hv ?_
    rw [decide_eq_true_iff, div_lt_iff₀ (by exact_mod_cast hq), zero_mul, Int.cast_lt_zero]

/-- Settles O25: a ratio by a negative divisor is the ratio of the opposites. -/
theorem roundingTags : Obligations.RoundingTags := by
  refine ⟨fun p q hq => ?_, fun x k => ⟨?_, ?_⟩⟩
  · have h : RoundsAs (p / q : ℚ) (roundRatio p q) := by
      rcases lt_or_gt_of_ne hq with hneg | hpos
      · have := roundsAs_roundRatio (p := -p) (neg_pos.mpr hneg)
        rw [Int.cast_neg, Int.cast_neg, neg_div_neg_eq] at this
        rwa [show roundRatio p q = roundRatio (-p) (-q) from funext fun tag => roundRatio_neg_neg tag hneg]
      · exact roundsAs_roundRatio hpos
    exact ⟨h.tn, h.tz, h.nat, h.te, h.even, h.ta, h.away⟩
  · rw [roundShift, pow2_eq, ← floor_ratio (by positivity)]
    push_cast
    rfl
  · intro tag htag
    cases tag
    case nat => contradiction
    all_goals exact congrArg (roundRatio x · _) (pow2_eq k)

end Sys2Proof.Machine

/-! The format T and W commands that complete (40_construction_transfer.md, 41_wide_engine.md): a legal command with
valid sources comes to its effect, and each effect here is one write of the state. -/

namespace Sys2Proof.Machine

/-- A command whose effect is no failure. -/
theorem exec_of_effect {i : Instr} {s t : State} {d : Data64} (hl : i.legal s.params = true)
    (hc : i.withinCapacity s.params = true) (hr : sourcesReadable s i = true) (he : effectOf s i = .ok (t, d)) :
    exec i s = .next (t.respond d) := by
  rw [exec_of_checks (by rw [Instr.wellFormed, hl, hc]; rfl) hr, he, run_ok]

theorem reg_of_lt {p : Params} {r : RegField} (h : r.toNat < p.nreg) : WellFormed.reg p r = true := decide_eq_true h

theorem digits_of_bounds {p : Params} {d : Field16} (h1 : 1 ≤ d.toNat) (h2 : d.toNat ≤ p.nw) :
    WellFormed.digits p d = true := decide_eq_true ⟨h1, h2⟩

theorem onlyResponds (s : State) (d : Data64) : OnlyResponds s (s.respond d) d :=
  ⟨⟨rfl, rfl, rfl, rfl⟩, rfl, rfl, rfl, rfl⟩

theorem State.RegsShaped.lt_length {s : State} (hs : s.RegsShaped) {r : RegField} (hr : r.toNat < s.params.nreg) :
    r.toNat < s.regs.length := hs.index (reg_of_lt hr)

/-- Two whole registers that are valid are all a command with two sources reads. -/
theorem readable_pair {s : State} {i : Instr} {ra rb : RegField} (h : sourcesOf i = [ra, rb])
    (hw : wordSourceOf i = none) (hra : s.readable ra = true) (hrb : s.readable rb = true) :
    sourcesReadable s i = true := by
  rw [readable_two s i ra rb h hw, hra, hrb]
  rfl

theorem readable_single {s : State} {i : Instr} {ra : RegField} (h : sourcesOf i = [ra]) (hw : wordSourceOf i = none)
    (hra : s.readable ra = true) : sourcesReadable s i = true := by
  rw [readable_one s i ra h hw, hra]

/-! ### Format T -/

/-- Settles O27: NOP has no check to fail. -/
theorem nopCompletes : Obligations.NopCompletes := fun s =>
  ⟨_, exec_of_effect rfl rfl rfl rfl, onlyResponds s 0⟩

/-- Settles O28: `ext` of the low `DS` bits, written out. -/
theorem ldiCompletes : Obligations.LdiCompletes := by
  intro s rd sg ds data ⟨_, hs, _⟩ hrd h1 h64
  have hl : (Instr.ldi rd sg ds data).legal s.params = true := by
    simp only [Instr.legal, reg_of_lt hrd, h1, h64, and_self, decide_true, Bool.and_self]
  refine ⟨_, exec_of_effect hl rfl rfl rfl, ?_⟩
  have hext : ext (data.toNat % 2 ^ ds.toNat : Nat) ds.toNat sg =
      if sg = true ∧ 2 ^ (ds.toNat - 1) ≤ data.toNat % 2 ^ ds.toNat then
        ((data.toNat % 2 ^ ds.toNat : Nat) : Int) - 2 ^ ds.toNat
      else ((data.toNat % 2 ^ ds.toNat : Nat) : Int) := by
    simp only [ext, Bool.and_eq_true, decide_eq_true_eq, pow2_eq, ge_iff_le]
    norm_cast
  rw [← hext]
  exact writesReg_setReg _ (hs.lt_length hrd)

/-- Settles O29: one write of a word. -/
theorem ldwCompletes : Obligations.LdwCompletes := by
  intro s rd k data ⟨_, hs, _⟩ hrd hk hdata
  have hl : (Instr.ldw rd k data).legal s.params = true := by
    simp only [Instr.legal, reg_of_lt hrd, hk, hdata, decide_true, Bool.and_self]
  have hlen := hs.lt_length hrd
  refine ⟨_, exec_of_effect hl rfl rfl rfl, ⟨rfl, rfl, rfl, rfl⟩, ?_, fun j hj => ?_, ?_, rfl, rfl, rfl⟩
  · rw [respond_reg, setWord_reg_same _ _ hlen]
    exact List.getElem?_set_self ((hs.reg hrd).1 ▸ hk)
  · rw [respond_reg, setWord_reg_same _ _ hlen, List.getElem?_set_ne hj.symm]
  · exact fun r hr => setWord_reg_other _ _ hr

/-- Settles O30: a word of at most 64 bits is the response data unchanged. -/
theorem rdwCompletes : Obligations.RdwCompletes := by
  intro s ra k v ⟨⟨_, hw64, _⟩, hs, _⟩ hra hk hv
  have hl : (Instr.rdw ra k).legal s.params = true := by
    simp only [Instr.legal, reg_of_lt hra, hk, decide_true, Bool.and_self]
  have hr : sourcesReadable s (.rdw ra k) = true :=
    (sourced_iff s _).mp ⟨by simp [sourcesOf], fun r j h => by cases h; exact ⟨v, hv⟩⟩
  refine ⟨_, _, exec_of_effect hl rfl hr rfl, onlyResponds s _, ?_⟩
  have hlt : v < 2 ^ s.params.w := (hs.reg hra).2 _ (List.mem_of_getElem? hv)
  rw [hv]
  exact Nat.mod_eq_of_lt (hlt.trans_le (Nat.pow_le_pow_right two_pos hw64))

/-- PARAMS holds its three fields, none cut off where the parameters are in range (10_state.md R31). -/
theorem paramsWord_toNat {p : Params} (hp : p.Valid) :
    (paramsWord p).toNat = p.w + 2 ^ 8 * p.n + 2 ^ 24 * p.nreg := by
  obtain ⟨hw, hw64, hn, hnw, _, hnreg⟩ := hp
  have hn16 : p.n ≤ 65535 := (Nat.le_mul_of_pos_right p.n hw).trans hnw
  rw [paramsWord, toNat_append_eq_add, toNat_append_eq_add, BitVec.toNat_ofNat, BitVec.toNat_ofNat, BitVec.toNat_ofNat,
    Nat.mod_eq_of_lt (by omega), Nat.mod_eq_of_lt (by omega), Nat.mod_eq_of_lt (by omega)]
  ring

/-- RDC of a number that names a control register responds with it, zero-extended. -/
theorem exec_rdc {s : State} {csr : Field16} {n : Nat} {w : Nat} {c : BitVec w} (hcsr : csr.toNat = n) (hn : n ≤ 3)
    (hc : s.csr n = some (c.setWidth 64)) (hw : w ≤ 64) :
    ∃ t data, exec (.rdc csr) s = .next t ∧ OnlyResponds s t data ∧ data.toNat = c.toNat := by
  have hl : (Instr.rdc csr).legal s.params = true := decide_eq_true (hcsr ▸ hn)
  refine ⟨_, _, exec_of_effect hl rfl rfl rfl, onlyResponds s _, ?_⟩
  rw [hcsr, hc]
  exact BitVec.toNat_setWidth_of_le hw

/-- Settles O31: a number above 3 is no legal one. -/
theorem rdcCompletes : Obligations.RdcCompletes := by
  intro s csr ⟨hp, _⟩
  refine ⟨fun h => exec_rdc h (by decide) rfl (by decide), fun h => exec_rdc h (by decide) rfl (by decide),
    fun h => exec_rdc h (by decide) rfl (by decide), fun h => ?_, fun h => ?_⟩
  · rw [← paramsWord_toNat hp]
    exact exec_rdc h le_rfl rfl (by decide)
  · exact ⟨_, exec_of_not_legal (decide_eq_false (not_le.mpr h)), raise_failsWith s _⟩

/-! ### Format W -/

/-- Settles O32: one write of the unsigned result. -/
theorem wideSumsComplete : Obligations.WideSumsComplete := fun _ _ _ _ sg ⟨_, hs, _⟩ hd ha hb hra hrb =>
  have hlen := hs.lt_length hd
  ⟨⟨_, exec_wadd sg hd ha hb hra hrb, writesReg_setReg _ hlen⟩,
    ⟨_, exec_wsub sg hd ha hb hra hrb, writesReg_setReg _ hlen⟩,
    ⟨_, exec_wmul sg hd ha hb hra hrb, writesReg_setReg _ hlen⟩⟩

/-- Settles O33: the signed values are the unsigned ones modulo `2^NW`, and a register holds no more. -/
theorem wideSumsIgnoreSignedness : Obligations.WideSumsIgnoreSignedness := by
  intro s t rd ra rb sg ⟨_, hs, _⟩ hd ha hb hra hrb
  have hva := valOf_emod s ra false true
  have hvb := valOf_emod s rb false true
  have holds : ∀ {x y : Int}, x % pow2 s.params.nw = y % pow2 s.params.nw →
      Host.Outcome.next ((s.setReg rd x).respond 0) = (.next t : Outcome) → t.Holds rd y := fun hxy ht =>
    Host.Outcome.next.inj ht ▸ (setReg_holds _ (hs.lt_length hd)).congr hxy
  rw [exec_wadd sg hd ha hb hra hrb, exec_wsub sg hd ha hb hra hrb, exec_wmul sg hd ha hb hra hrb]
  exact ⟨holds (Int.ModEq.add hva hvb), holds (Int.ModEq.sub hva hvb), holds (Int.ModEq.mul hva hvb)⟩

section
variable {s : State} {rd ra rb : RegField} (sg : Bool)
  (hd : rd.toNat < s.params.nreg) (ha : ra.toNat < s.params.nreg) (hb : rb.toNat < s.params.nreg)
  (hra : s.readable ra = true) (hrb : s.readable rb = true)
include hd ha hb hra hrb

theorem exec_wmod (h0 : s.valOf rb sg ≠ 0) : exec (.wmod rd ra rb sg) s =
    .next ((s.setReg rd (trem (s.valOf ra sg) (s.valOf rb sg))).respond 0) := by
  rw [exec_wideBinary rfl rfl rfl rfl hd ha hb hra hrb, effectOf, if_neg h0, run_ok]

theorem exec_wdiv_by_zero (h0 : s.valOf rb sg = 0) : exec (.wdiv rd ra rb sg) s = .next (s.raise .divideByZero) := by
  rw [exec_wideBinary rfl rfl rfl rfl hd ha hb hra hrb, effectOf, if_pos h0, run_error]

theorem exec_wmod_by_zero (h0 : s.valOf rb sg = 0) : exec (.wmod rd ra rb sg) s = .next (s.raise .divideByZero) := by
  rw [exec_wideBinary rfl rfl rfl rfl hd ha hb hra hrb, effectOf, if_pos h0, run_error]

end

/-- Settles O34: the two laws of truncating division. -/
theorem wideDivisionCompletes : Obligations.WideDivisionCompletes := by
  intro s rd ra rb sg ⟨_, hs, _⟩ hd ha hb hra hrb
  have hlen := hs.lt_length hd
  refine ⟨fun h0 => ?_, fun h0 => ⟨⟨_, exec_wdiv_by_zero sg hd ha hb hra hrb h0, raise_failsWith s _⟩,
    ⟨_, exec_wmod_by_zero sg hd ha hb hra hrb h0, raise_failsWith s _⟩⟩⟩
  exact ⟨_, _, _, _, exec_wdiv sg hd ha hb hra hrb h0, writesReg_setReg _ hlen, exec_wmod sg hd ha hb hra hrb h0,
    writesReg_setReg _ hlen, (add_sub_cancel _ _).symm, abs_trem_lt _ h0, trem_eq_zero_or_sign_eq _ _⟩

section
variable {s : State} {rd ra : RegField} (sg : Bool) (sh : Field16)
  (hd : rd.toNat < s.params.nreg) (ha : ra.toNat < s.params.nreg) (hra : s.readable ra = true)
include hd ha hra

theorem exec_wshl : exec (.wshl rd ra sg sh) s = .next ((s.setReg rd (s.valOf ra false * pow2 sh.toNat)).respond 0) :=
  exec_of_effect (by rw [Instr.legal, reg_of_lt hd, reg_of_lt ha]; rfl) rfl (readable_single rfl rfl hra) rfl

theorem exec_wshr : exec (.wshr rd ra sg sh) s = .next ((s.setReg rd (s.valOf ra sg / pow2 sh.toNat)).respond 0) :=
  exec_of_effect (by rw [Instr.legal, reg_of_lt hd, reg_of_lt ha]; rfl) rfl (readable_single rfl rfl hra) rfl

end

/-- From the total width on, a shift to the left leaves no bit. -/
theorem mul_pow2_emod_eq_zero (x : Int) {n k : Nat} (h : n ≤ k) : x * pow2 k % pow2 n = 0 % pow2 n := by
  rw [pow2_eq, pow2_eq, Int.zero_emod]
  exact Int.emod_eq_zero_of_dvd (dvd_mul_of_dvd_right (pow_dvd_pow 2 h) x)

/-- From the total width on, a shift to the right leaves the sign. -/
theorem ediv_pow2_of_fits {x : Int} {n k : Nat} {sg : Bool} (hx : fits x n sg = true) (h : n ≤ k) :
    x / pow2 k = if x < 0 then -1 else 0 := by
  have hnk : pow2 n ≤ pow2 k := by
    rw [pow2_eq, pow2_eq]
    exact pow_le_pow_right₀ (by norm_num) h
  have hhalf : pow2 (n - 1) ≤ pow2 n := by
    rw [pow2_eq, pow2_eq]
    exact pow_le_pow_right₀ (by norm_num) (Nat.sub_le n 1)
  obtain ⟨hlow, hhigh⟩ : -pow2 k ≤ x ∧ x < pow2 k := by
    rw [fits_iff] at hx
    have := pow2_pos n
    cases sg <;> simp only [lo, hi, Bool.false_eq_true, if_true, if_false] at hx <;> omega
  split_ifs with hneg
  · rw [Int.ediv_eq_iff_of_pos (pow2_pos k)]
    omega
  · exact Int.ediv_eq_zero_of_lt (not_lt.mp hneg) hhigh

/-- Settles O35: a division by `2^SH` rounding down is the floor of the rational. -/
theorem wideShiftsComplete : Obligations.WideShiftsComplete := by
  intro s rd ra sg sh ⟨hp, hs, _⟩ hd ha hra
  have hlen := hs.lt_length hd
  refine ⟨⟨_, exec_wshl sg sh hd ha hra, ?_, fun hsh => ?_⟩, ⟨_, exec_wshr sg sh hd ha hra, ?_, fun hsh => ?_⟩⟩
  · rw [pow2_eq]
    exact writesReg_setReg _ hlen
  · exact (setReg_holds _ hlen).congr (mul_pow2_emod_eq_zero _ hsh)
  · have hfloor := floor_ratio (p := s.valOf ra sg) (pow2_pos sh.toNat)
    rw [pow2_eq, Int.cast_pow, Int.cast_ofNat] at hfloor
    rw [hfloor, pow2_eq]
    exact writesReg_setReg _ hlen
  · rw [← ediv_pow2_of_fits (fits_valOf hp hs ha sg) hsh]
    exact setReg_holds _ hlen

theorem exec_wcmp {s : State} {ra rb : RegField} (sg : Bool) (ha : ra.toNat < s.params.nreg)
    (hb : rb.toNat < s.params.nreg) (hra : s.readable ra = true) (hrb : s.readable rb = true) :
    exec (.wcmp ra rb sg) s = .next ((s.setFlags (compareFlags (s.valOf ra sg) (s.valOf rb sg))).respond
      ((compareFlags (s.valOf ra sg) (s.valOf rb sg)).setWidth 64)) :=
  exec_of_effect (by rw [Instr.legal, reg_of_lt ha, reg_of_lt hb]; rfl) rfl
    (readable_pair rfl rfl hra hrb) rfl

/-- Settles O36: the three orders exclude each other. -/
theorem compareCompletes : Obligations.CompareCompletes := by
  intro s ra rb sg _ ha hb hra hrb
  refine ⟨_, _, exec_wcmp sg ha hb hra hrb, ⟨rfl, rfl, rfl, rfl⟩, BitVec.toNat_setWidth_of_le (by decide), ?_, ?_, ?_,
    rfl, rfl, rfl⟩ <;> intro h <;> rw [respond_flags, setFlags_flags, compareFlags]
  · rw [if_pos h]
  · rw [if_neg h.not_lt, if_pos h]
  · rw [if_neg h.not_gt, if_neg h.ne']

/-- Settles O37: the low `D` bits are the same for either source signedness. -/
theorem extendCompletes : Obligations.ExtendCompletes := by
  intro s rd ra sg sg' d ⟨_, hs, _⟩ hd ha h1 hnw hra
  have hl : (Instr.wext rd ra sg d).legal s.params = true := by
    rw [Instr.legal, reg_of_lt hd, reg_of_lt ha, digits_of_bounds h1 hnw]
    rfl
  have hlen := hs.lt_length hd
  have hval : ext (s.valOf ra false % pow2 d.toNat) d.toNat sg = wrap (s.valOf ra sg') d.toNat sg := by
    have hcongr := valOf_emod s ra false sg'
    rw [pow2_eq] at hcongr
    rw [pow2_eq, ext_emod_eq_wrap h1, wrap_congr h1 hnw hcongr]
  refine ⟨_, exec_of_effect hl rfl (readable_single rfl rfl hra) rfl, ?_, fun hfull => ?_⟩
  · rw [hval]
    exact writesReg_setReg _ hlen
  · rw [hval, respond_reg, setReg_reg_same _ hlen, hfull, words_congr (wrap_emod _ _ sg), words_valOf hs ha hra]

theorem limitOf_min {kind : Nat} (h : kind = 0 ∨ kind = 2) (d : Nat) (sg : Bool) :
    limitOf kind d sg = some (lo d sg) := by
  rcases h with rfl | rfl <;> rfl

/-- WLIM with a legal `KIND` writes the limit it names. -/
theorem exec_wlim {s : State} {rd : RegField} {d kind : Field16} {sg : Bool} {x : Int} (hd : rd.toNat < s.params.nreg)
    (h1 : 1 ≤ d.toNat) (hnw : d.toNat ≤ s.params.nw) (hk : kind.toNat ≤ 2)
    (hx : limitOf kind.toNat d.toNat sg = some x) :
    exec (.wlim rd sg d kind) s = .next ((s.setReg rd x).respond 0) :=
  exec_of_effect (by rw [Instr.legal, reg_of_lt hd, digits_of_bounds h1 hnw, decide_eq_true hk]; rfl) rfl rfl
    (by rw [effectOf, hx, Option.getD_some])

/-- Settles O38: the two limits, written out; a `KIND` above 2 is not legal. -/
theorem limitsComplete : Obligations.LimitsComplete := by
  intro s rd sg d kind ⟨_, hs, _⟩ hd h1 hnw
  have hlen := hs.lt_length hd
  refine ⟨fun hk => ⟨_, exec_wlim hd h1 hnw (by omega) (limitOf_min hk _ _), ?_⟩,
    fun hk => ⟨_, exec_wlim hd h1 hnw (by omega) (by rw [hk]; rfl), ?_⟩, fun hk => ?_⟩
  · rw [← pow2_eq]
    exact writesReg_setReg _ hlen
  · rw [← pow2_eq, ← pow2_eq]
    exact writesReg_setReg _ hlen
  · have hl : (Instr.wlim rd sg d kind).legal s.params = false := by
      rw [Instr.legal, decide_eq_false (not_le.mpr hk), Bool.and_false]
    exact ⟨_, exec_of_not_legal hl, raise_failsWith s _⟩

end Sys2Proof.Machine

/-! The word-level algorithms of the engine (41_wide_engine.md R123 to R145): each computes words whose number is the
value, modulo the width of the words, that the value rule writes. -/

namespace Sys2Proof.Machine

/-! ### Words and their number -/

/-- `N` words in range whose number is congruent to `x` modulo `2^NW` are `words(x)`. -/
theorem eq_words {p : Params} {ws : List Word} {x : Int} (hlen : ws.length = p.n) (hlt : ∀ v ∈ ws, v < 2 ^ p.w)
    (h : (uval p.w ws : Int) ≡ x [ZMOD 2 ^ (ws.length * p.w)]) : ws = words p x := by
  rw [hlen] at h
  rw [← words_uval p ws hlen hlt]
  refine words_congr ?_
  rw [pow2_eq]
  exact h

/-- What is known of the words above the lowest, modulo their width, is known of all words modulo theirs. -/
theorem uval_cons_modEq {w n r : Nat} {ws : List Word} {x y : Int} (h : (uval w ws : Int) ≡ x [ZMOD 2 ^ (n * w)])
    (hy : r + 2 ^ w * x = y) : (uval w (r :: ws) : Int) ≡ y [ZMOD 2 ^ ((n + 1) * w)] := by
  subst hy
  rw [uval, Nat.add_mul, Nat.one_mul, Nat.add_comm (n * w), pow_add]
  push_cast
  exact h.mul_left'.add_left _

/-- Where two lists are not both nonempty and the first is no longer, the first is empty. -/
theorem eq_nil_of_no_pair {as bs : List Word} (hne : ∀ a as' b bs', as = a :: as' → bs = b :: bs' → False)
    (h : as.length ≤ bs.length) : as = [] := by
  cases as with
  | nil => rfl
  | cons a as =>
    cases bs with
    | nil => simp at h
    | cons b bs => exact (hne a as b bs rfl rfl).elim

/-! ### The carry and the borrow chain -/

theorem addWords_length {w c : Nat} {as bs : List Word} (h : as.length = bs.length) :
    (addWords w c as bs).length = as.length := by
  fun_induction addWords w c as bs with
  | case1 c a as b bs ih => simpa using ih (by simpa using h)
  | case2 as c bs hne => rw [eq_nil_of_no_pair hne h.le]

theorem addWords_lt (w c : Nat) (as bs : List Word) : ∀ v ∈ addWords w c as bs, v < 2 ^ w := by
  fun_induction addWords w c as bs with
  | case1 c a as b bs ih => exact List.forall_mem_cons.mpr ⟨Nat.mod_lt _ (Nat.two_pow_pos w), ih⟩
  | case2 => simp

/-- The chain computes the sum: a word and its carry are the sum of two words and the carry before. -/
theorem uval_addWords {w c : Nat} {as bs : List Word} (h : as.length = bs.length) :
    (uval w (addWords w c as bs) : Int) ≡ uval w as + uval w bs + c [ZMOD 2 ^ (as.length * w)] := by
  fun_induction addWords w c as bs with
  | case1 c a as b bs ih =>
    refine uval_cons_modEq (ih (by simpa using h)) ?_
    have hcarry := Nat.mod_add_div (a + b + c) (2 ^ w)
    simp only [uval]
    zify at hcarry ⊢
    linear_combination hcarry
  | case2 as c bs hne =>
    obtain rfl := eq_nil_of_no_pair hne h.le
    simpa using Int.modEq_one

theorem subWords_length {w : Nat} {bw : Int} {as bs : List Word} (h : as.length = bs.length) :
    (subWords w bw as bs).length = as.length := by
  fun_induction subWords w bw as bs with
  | case1 bw a as b bs t ih => simpa using ih (by simpa using h)
  | case2 as bw bs hne => rw [eq_nil_of_no_pair hne h.le]

theorem subWords_lt (w : Nat) (bw : Int) (as bs : List Word) : ∀ v ∈ subWords w bw as bs, v < 2 ^ w := by
  fun_induction subWords w bw as bs with
  | case1 bw a as b bs t ih =>
    refine List.forall_mem_cons.mpr ⟨?_, ih⟩
    have h := Int.emod_lt_of_pos t (pow2_pos w)
    rw [pow2] at h ⊢
    exact (Int.toNat_lt (Int.emod_nonneg t (by positivity))).mpr h
  | case2 => simp

/-- A word of a difference with its borrow. -/
theorem emod_pow2_sub_borrow {w : Nat} {t : Int} (h0 : -pow2 w ≤ t) (h1 : t < pow2 w) :
    t % pow2 w - pow2 w * (if t < 0 then 1 else 0) = t := by
  split
  · rw [← Int.add_emod_right, Int.emod_eq_of_lt (by omega) (by omega)]
    ring
  · rw [Int.emod_eq_of_lt (by omega) h1]
    ring

/-- The chain computes the difference: a borrow is 0 or 1, since the words are in range. -/
theorem uval_subWords {w : Nat} {bw : Int} {as bs : List Word} (h : as.length = bs.length) (hbw : bw = 0 ∨ bw = 1)
    (ha : ∀ v ∈ as, v < 2 ^ w) (hb : ∀ v ∈ bs, v < 2 ^ w) :
    (uval w (subWords w bw as bs) : Int) ≡ uval w as - uval w bs - bw [ZMOD 2 ^ (as.length * w)] := by
  fun_induction subWords w bw as bs with
  | case1 bw a as b bs t ih =>
    obtain ⟨ha0, ha⟩ := List.forall_mem_cons.mp ha
    obtain ⟨hb0, hb⟩ := List.forall_mem_cons.mp hb
    refine uval_cons_modEq (ih (by simpa using h) (by split <;> simp) ha hb) ?_
    have hborrow : t % pow2 w - pow2 w * (if t < 0 then 1 else 0) = t := by
      have ha1 : (a : Int) < pow2 w := Int.ofNat_lt.mpr ha0
      have hb1 : (b : Int) < pow2 w := Int.ofNat_lt.mpr hb0
      have ht : t = a - b - bw := rfl
      exact emod_pow2_sub_borrow (by omega) (by omega)
    rw [Int.toNat_of_nonneg (Int.emod_nonneg _ (pow2_pos w).ne')]
    simp only [uval, pow2_eq] at hborrow ⊢
    push_cast
    linear_combination hborrow
  | case2 as c bs hne =>
    obtain rfl := eq_nil_of_no_pair hne h.le
    simpa using Int.modEq_one

/-- Settles O41: the carry into the lowest word is 0, and so is the borrow. -/
theorem carryAndBorrowChains : Obligations.CarryAndBorrowChains := by
  intro p as bs hla hlb ha hb
  have hl : as.length = bs.length := hla.trans hlb.symm
  constructor
  · refine eq_words ((addWords_length hl).trans hla) (addWords_lt _ _ _ _) ?_
    have h := uval_addWords (w := p.w) (c := 0) hl
    rwa [Nat.cast_zero, add_zero, ← addWords_length (w := p.w) (c := 0) hl] at h
  · refine eq_words ((subWords_length hl).trans hla) (subWords_lt _ _ _ _) ?_
    have h := uval_subWords (w := p.w) hl (.inl rfl) ha hb
    rwa [sub_zero, ← subWords_length (w := p.w) (bw := 0) hl] at h

/-! ### The schoolbook multiplication -/

theorem mulRow_length {w ai c : Nat} {rs bs : List Word} (h : rs.length ≤ bs.length) :
    (mulRow w ai c rs bs).length = rs.length := by
  fun_induction mulRow w ai c rs bs with
  | case1 c r rs b bs ih => simpa using ih (by simpa using h)
  | case2 rs c bs hne => rw [eq_nil_of_no_pair hne h]

theorem mulRow_lt (w ai c : Nat) (rs bs : List Word) : ∀ v ∈ mulRow w ai c rs bs, v < 2 ^ w := by
  fun_induction mulRow w ai c rs bs with
  | case1 c r rs b bs ih => exact List.forall_mem_cons.mpr ⟨Nat.mod_lt _ (Nat.two_pow_pos w), ih⟩
  | case2 => simp

/-- One pass adds `ai` times the words of `b`. -/
theorem uval_mulRow {w ai c : Nat} {rs bs : List Word} (h : rs.length ≤ bs.length) :
    (uval w (mulRow w ai c rs bs) : Int) ≡ uval w rs + ai * uval w bs + c [ZMOD 2 ^ (rs.length * w)] := by
  fun_induction mulRow w ai c rs bs with
  | case1 c r rs b bs ih =>
    refine uval_cons_modEq (ih (by simpa using h)) ?_
    have hcarry := Nat.mod_add_div (r + ai * b + c) (2 ^ w)
    simp only [uval]
    zify at hcarry ⊢
    linear_combination hcarry
  | case2 rs c bs hne =>
    obtain rfl := eq_nil_of_no_pair hne h
    simpa using Int.modEq_one

theorem mulRows_length {w : Nat} {as bs rs : List Word} (hlen : as.length = rs.length) (h : rs.length ≤ bs.length) :
    (mulRows w bs as rs).length = rs.length := by
  fun_induction mulRows w bs as rs with
  | case1 a as rs r rest hrow ih =>
    have hl := mulRow_length (w := w) (ai := a) (c := 0) h
    simp only [hrow, List.length_cons] at hl hlen ⊢
    rw [ih (by omega) (by omega), hl]
  | case2 a as rs hrow =>
    have hl := mulRow_length (w := w) (ai := a) (c := 0) h
    rw [← hl, hrow]
  | case3 rs => exact hlen

theorem mulRows_lt (w : Nat) (as bs rs : List Word) : ∀ v ∈ mulRows w bs as rs, v < 2 ^ w := by
  fun_induction mulRows w bs as rs with
  | case1 a as rs r rest hrow ih =>
    refine List.forall_mem_cons.mpr ⟨mulRow_lt w a 0 rs bs r (by rw [hrow]; exact List.mem_cons_self), ih⟩
  | case2 => simp
  | case3 => simp

/-- The passes add the product, each leaving its lowest word final. -/
theorem uval_mulRows {w : Nat} {as bs rs : List Word} (hlen : as.length = rs.length) (h : rs.length ≤ bs.length) :
    (uval w (mulRows w bs as rs) : Int) ≡ uval w rs + uval w as * uval w bs [ZMOD 2 ^ (rs.length * w)] := by
  fun_induction mulRows w bs as rs with
  | case1 a as rs r rest hrow ih =>
    have hl := mulRow_length (w := w) (ai := a) (c := 0) h
    have hpass := uval_mulRow (w := w) (ai := a) (c := 0) h
    simp only [hrow, List.length_cons] at hl hlen hpass
    rw [← hl] at hpass ⊢
    refine (uval_cons_modEq (ih (by omega) (by omega)) rfl).trans ?_
    have hsum := hpass.add_right (2 ^ w * (uval w as * uval w bs) : Int)
    rw [uval] at hsum ⊢
    push_cast at hsum ⊢
    convert hsum using 1 <;> ring
  | case2 a as rs hrow =>
    have hl := mulRow_length (w := w) (ai := a) (c := 0) h
    rw [hrow] at hl
    simp only [List.length_cons] at hlen
    simp at hl
    omega
  | case3 rs =>
    rw [← hlen]
    simpa using Int.modEq_one

theorem uval_zeros (w : Nat) (ws : List Word) : uval w (ws.map fun _ => 0) = 0 := by
  induction ws with
  | nil => rfl
  | cons x xs ih => rw [List.map_cons, uval, ih, Nat.mul_zero]

/-- Settles O42: the passes start from zeros. -/
theorem schoolbookMultiply : Obligations.SchoolbookMultiply := by
  intro p as bs hla hlb _ _
  have hl := mulRows_length (w := p.w) (as := as) (bs := bs) (rs := as.map fun _ => 0) (by simp) (by simp; omega)
  have h := uval_mulRows (w := p.w) (as := as) (bs := bs) (rs := as.map fun _ => 0) (by simp) (by simp; omega)
  rw [uval_zeros, Nat.cast_zero, zero_add, ← hl] at h
  exact eq_words (by rw [mulWords, hl, List.length_map, hla]) (mulRows_lt _ _ _ _) h

/-! ### The restoring long division -/

/-- From a running remainder below the divisor, the steps divide the number made of it and the bits to come. -/
theorem longDivide_eq {ua ub : Nat} (i : Nat) {q rem : Nat} (hrem : rem < ub) :
    longDivide ua ub i q rem = (q + (rem * 2 ^ i + ua % 2 ^ i) / ub, (rem * 2 ^ i + ua % 2 ^ i) % ub) := by
  induction i generalizing q rem with
  | zero => simp [longDivide, Nat.mod_one, Nat.div_eq_of_lt hrem, Nat.mod_eq_of_lt hrem]
  | succ i ih =>
    have hbit : ua % 2 ^ (i + 1) = ua % 2 ^ i + 2 ^ i * (ua / 2 ^ i % 2) := by rw [pow_succ, Nat.mod_mul]
    have hrem' : 2 * rem + ua / 2 ^ i % 2 < 2 * ub := by
      have := Nat.mod_lt (ua / 2 ^ i) two_pos
      omega
    have hnext : rem * 2 ^ (i + 1) + ua % 2 ^ (i + 1) = (2 * rem + ua / 2 ^ i % 2) * 2 ^ i + ua % 2 ^ i := by
      rw [hbit]
      ring
    rw [longDivide, hnext]
    generalize 2 * rem + ua / 2 ^ i % 2 = rem' at *
    split
    next hle =>
      have hsub : rem' * 2 ^ i + ua % 2 ^ i = (rem' - ub) * 2 ^ i + ua % 2 ^ i + ub * 2 ^ i := by
        obtain ⟨k, rfl⟩ := Nat.exists_eq_add_of_le hle
        rw [Nat.add_sub_cancel_left]
        ring
      rw [ih (by omega), hsub, Nat.add_mul_div_left _ _ (by omega), Nat.add_mul_mod_self_left]
      congr 1
      ring
    next hlt => exact ih (not_le.mp hlt)

theorem longDivide_of_lt {ua ub bits : Nat} (hub : 0 < ub) (hua : ua < 2 ^ bits) :
    longDivide ua ub bits 0 0 = (ua / ub, ua % ub) := by
  rw [longDivide_eq bits hub, Nat.mod_eq_of_lt hua, Nat.zero_mul, Nat.zero_add, Nat.zero_add]

/-- Settles O43: the magnitudes divide as natural numbers, and the signs are those of truncating division. -/
theorem longDivision : Obligations.LongDivision := by
  intro bits a b hb ha
  have hmag : longDivide a.natAbs b.natAbs bits 0 0 = (a.natAbs / b.natAbs, a.natAbs % b.natAbs) := by
    refine longDivide_of_lt (Int.natAbs_pos.mpr hb) ?_
    rw [Int.abs_eq_natAbs] at ha
    exact_mod_cast ha
  rw [divideMod, hmag, tdiv_eq_int_tdiv, trem_eq_int_tmod]
  have hcases : ∀ x : Int, (x < 0 ∧ ∃ n : Nat, x = -n) ∨ (¬ x < 0 ∧ ∃ n : Nat, x = n) := fun x =>
    (lt_or_ge x 0).imp (fun h => ⟨h, Int.exists_eq_neg_ofNat h.le⟩) fun h => ⟨h.not_gt, Int.eq_ofNat_of_zero_le h⟩
  rcases hcases a with ⟨hneg, m, rfl⟩ | ⟨hneg, m, rfl⟩ <;> rcases hcases b with ⟨hneg', n, rfl⟩ | ⟨hneg', n, rfl⟩ <;>
    simp only [hneg, hneg', Int.natAbs_neg, Int.natAbs_natCast, Int.neg_tdiv, Int.tdiv_neg, Int.neg_tmod, Int.tmod_neg,
      Int.ofNat_tdiv, Int.ofNat_tmod, neg_neg] <;> rfl

/-! ### The shifters -/

section
variable {w : Nat}

theorem uval_append (xs ys : List Word) : uval w (xs ++ ys) = uval w xs + 2 ^ (xs.length * w) * uval w ys := by
  induction xs with
  | nil => simp [uval]
  | cons x xs ih =>
    rw [List.cons_append, uval, uval, ih, List.length_cons, Nat.add_mul, Nat.one_mul, Nat.add_comm (_ * w), pow_add]
    ring

/-- Words that are all ones make up the largest number of their width. -/
theorem uval_replicate_ones (n : Nat) : uval w (List.replicate n (2 ^ w - 1)) + 1 = 2 ^ (n * w) := by
  induction n with
  | zero => simp [uval]
  | succ n ih =>
    rw [List.replicate_succ, uval, Nat.add_mul, Nat.one_mul, Nat.add_comm (n * w), pow_add, ← ih]
    have := Nat.two_pow_pos w
    rw [Nat.mul_add]
    omega

theorem uval_replicate_zero (n : Nat) : uval w (List.replicate n 0) = 0 := by
  induction n with
  | zero => rfl
  | succ n ih => rw [List.replicate_succ, uval, ih, Nat.mul_zero]

/-- Word `k` of a list, 0 beyond its end, is digit `k` of its number. -/
theorem getD_eq_digit {ws : List Word} (h : ∀ v ∈ ws, v < 2 ^ w) (k : Nat) :
    ws.getD k 0 = uval w ws / 2 ^ (k * w) % 2 ^ w := by
  induction ws generalizing k with
  | nil => simp [uval]
  | cons x xs ih =>
    obtain ⟨hx, hxs⟩ := List.forall_mem_cons.mp h
    cases k with
    | zero => simp [uval, Nat.mod_eq_of_lt hx]
    | succ k =>
      rw [List.getD_cons_succ, ih hxs, uval, Nat.add_mul, Nat.one_mul, Nat.add_comm (k * w), pow_add,
        ← Nat.div_div_eq_div_mul, Nat.add_mul_div_left _ _ (Nat.two_pow_pos w), Nat.div_eq_of_lt hx, Nat.zero_add]

/-- A digit of a number shifted right by `b` bits is put together from two digits of the number. -/
theorem digit_of_shiftRight (u : Nat) {b : Nat} (hb : b ≤ w) :
    u / 2 ^ b % 2 ^ w = u % 2 ^ w / 2 ^ b + u / 2 ^ w % 2 ^ b * 2 ^ (w - b) := by
  obtain ⟨c, rfl⟩ := Nat.exists_eq_add_of_le hb
  rw [Nat.add_sub_cancel_left, pow_add, Nat.mod_mul_right_div_self, ← Nat.div_div_eq_div_mul, mul_comm (2 ^ b) (2 ^ c),
    Nat.mod_mul, mul_comm (2 ^ c) (_ % _)]

/-- A digit of a number shifted left by `b` bits, with the number itself shifted up by a whole word. -/
theorem digit_of_shiftLeft (u : Nat) {b : Nat} (hb : b ≤ w) :
    u / 2 ^ w % 2 ^ w * 2 ^ b % 2 ^ w + u % 2 ^ w / 2 ^ (w - b) = u / 2 ^ (w - b) % 2 ^ w := by
  rw [digit_of_shiftRight u (Nat.sub_le w b), Nat.sub_sub_self hb, add_comm]
  obtain ⟨c, rfl⟩ := Nat.exists_eq_add_of_le' hb
  rw [Nat.add_sub_cancel, pow_add, Nat.mul_mod_mul_right, Nat.mod_mul_right_mod]

end

/-- The digits of `x mod 2^NW` below `N` are those of `x` modulo any larger width. -/
theorem wordOf_of_modEq {p : Params} {x : Int} {u m k : Nat} (hk : k < p.n) (hm : p.nw ≤ m)
    (h : (u : Int) ≡ x [ZMOD 2 ^ m]) : wordOf p x k = u / 2 ^ (k * p.w) % 2 ^ p.w := by
  have hu : (x % pow2 p.nw).toNat = u % 2 ^ p.nw := by
    rw [pow2_eq, ← h.of_dvd (pow_dvd_pow 2 hm)]
    exact_mod_cast Int.toNat_natCast _
  have hsplit : p.nw = k * p.w + (p.nw - k * p.w) :=
    (Nat.add_sub_cancel' (Nat.mul_le_mul_right p.w hk.le)).symm
  have hle : p.w ≤ p.nw - k * p.w := by
    rw [Params.nw, ← Nat.sub_mul]
    exact Nat.le_mul_of_pos_left _ (Nat.sub_pos_of_lt hk)
  rw [wordOf, hu, hsplit, pow_add, Nat.mod_mul_right_div_self, Nat.mod_mod_of_dvd _ (pow_dvd_pow 2 hle)]

/-- A list of `N` words that are the digits of `x` is `words(x)`. -/
theorem map_range_eq_words {p : Params} {x : Int} {u m : Nat} {f : Nat → Word} (hm : p.nw ≤ m)
    (h : (u : Int) ≡ x [ZMOD 2 ^ m]) (hf : ∀ k < p.n, f k = u / 2 ^ (k * p.w) % 2 ^ p.w) :
    (List.range p.n).map f = words p x :=
  List.map_congr_left fun k hk => by
    rw [hf k (List.mem_range.mp hk), wordOf_of_modEq (List.mem_range.mp hk) hm h]

/-- The source of word `k` of a left shift, `back` words below. -/
def wordBelow (ws : List Word) (back k : Nat) : Word := if back ≤ k then ws.getD (k - back) 0 else 0

theorem shiftLeftWords_of_lt {p : Params} {sh : Nat} (ws : List Word) (h : sh < p.nw) :
    shiftLeftWords p sh ws = (List.range p.n).map fun k =>
      wordBelow ws (sh / p.w) k * 2 ^ (sh % p.w) % 2 ^ p.w +
        if sh % p.w > 0 then wordBelow ws (sh / p.w + 1) k / 2 ^ (p.w - sh % p.w) else 0 := by
  rw [shiftLeftWords, if_neg (not_le.mpr h)]
  rfl

/-- With one more word 0 below, the sources of a left shift are words of a list. -/
theorem wordBelow_eq_getD (ws : List Word) {back k : Nat} (h : back ≤ k) :
    wordBelow ws back k = (0 :: ws).getD (k - back + 1) 0 ∧
      wordBelow ws (back + 1) k = (0 :: ws).getD (k - back) 0 := by
  obtain ⟨m, rfl⟩ := Nat.exists_eq_add_of_le h
  simp only [wordBelow, Nat.add_sub_cancel_left]
  cases m with
  | zero => simp
  | succ m => simp [show back + 1 ≤ back + (m + 1) by omega, show back + (m + 1) - (back + 1) = m by omega]

/-- Word `k` of a left shift is digit `k` of the shifted number. -/
theorem shiftLeft_word {w sh : Nat} (hw : 1 ≤ w) {ws : List Word} (hws : ∀ v ∈ ws, v < 2 ^ w) (k : Nat) :
    wordBelow ws (sh / w) k * 2 ^ (sh % w) % 2 ^ w +
        (if sh % w > 0 then wordBelow ws (sh / w + 1) k / 2 ^ (w - sh % w) else 0) =
      uval w ws * 2 ^ sh / 2 ^ (k * w) % 2 ^ w := by
  have hb : sh % w < w := Nat.mod_lt sh hw
  have hsh : sh = sh / w * w + sh % w := (Nat.div_add_mod' sh w).symm
  generalize sh / w = whole at *
  generalize sh % w = b at *
  subst hsh
  rcases lt_or_ge k whole with hk | hk
  · obtain ⟨c, rfl⟩ := Nat.exists_eq_add_of_lt hk
    have hpow : uval w ws * 2 ^ ((k + c + 1) * w + b) = 2 ^ (k * w) * (2 ^ w * (uval w ws * 2 ^ (c * w + b))) := by ring
    rw [hpow, Nat.mul_div_cancel_left _ (by positivity), Nat.mul_mod_right]
    simp [wordBelow, show ¬ k + c + 1 ≤ k by omega, show ¬ k + c + 1 + 1 ≤ k by omega]
  · obtain ⟨hhigh, hlow⟩ := wordBelow_eq_getD ws hk
    obtain ⟨m, rfl⟩ := Nat.exists_eq_add_of_le hk
    have hws' : ∀ v ∈ 0 :: ws, v < 2 ^ w := List.forall_mem_cons.mpr ⟨by positivity, hws⟩
    rw [Nat.add_sub_cancel_left, getD_eq_digit hws', uval, Nat.zero_add] at hhigh hlow
    have hcarry : (if b > 0 then wordBelow ws (whole + 1) (whole + m) / 2 ^ (w - b) else 0) =
        wordBelow ws (whole + 1) (whole + m) / 2 ^ (w - b) := by
      split
      · rfl
      · rw [Nat.div_eq_of_lt]
        rw [hlow, show w - b = w by omega]
        exact Nat.mod_lt _ (by positivity)
    have hshift : uval w ws * 2 ^ (whole * w + b) / 2 ^ ((whole + m) * w) =
        2 ^ w * uval w ws / 2 ^ (m * w) / 2 ^ (w - b) := by
      have hpow : 2 ^ w = 2 ^ (w - b) * 2 ^ b := by rw [← pow_add, Nat.sub_add_cancel hb.le]
      rw [Nat.div_div_eq_div_mul, mul_comm (2 ^ (m * w)), ← Nat.div_div_eq_div_mul, hpow, mul_assoc,
        Nat.mul_div_cancel_left _ (by positivity), Nat.add_mul, pow_add, pow_add, ← mul_assoc,
        mul_comm (uval w ws), mul_assoc, Nat.mul_div_mul_left _ _ (by positivity), mul_comm (uval w ws)]
    rw [hcarry, hhigh, hlow, hshift, ← digit_of_shiftLeft _ hb.le, Nat.div_div_eq_div_mul, ← pow_add,
      show (m + 1) * w = m * w + w by ring]

theorem uval_lt_pow2 {p : Params} {ws : List Word} (hlen : ws.length = p.n) (hws : ∀ v ∈ ws, v < 2 ^ p.w) :
    uval p.w ws < 2 ^ p.nw := by
  have h := uval_lt p.w ws hws
  rwa [hlen] at h

theorem shiftLeftWords_eq {p : Params} (hp : p.Valid) {ws : List Word} (hws : ∀ v ∈ ws, v < 2 ^ p.w) (sh : Nat) :
    shiftLeftWords p sh ws = words p (uval p.w ws * 2 ^ sh) := by
  rcases le_or_gt p.nw sh with hsh | hsh
  · rw [shiftLeftWords, if_pos hsh]
    refine eq_words List.length_replicate (fun v hv => by rw [List.eq_of_mem_replicate hv]; positivity) ?_
    rw [uval_replicate_zero, List.length_replicate, Nat.cast_zero]
    exact (Int.modEq_zero_iff_dvd.mpr (dvd_mul_of_dvd_right (pow_dvd_pow 2 hsh) _)).symm
  · rw [shiftLeftWords_of_lt ws hsh]
    exact map_range_eq_words (u := uval p.w ws * 2 ^ sh) le_rfl (by push_cast; rfl) fun k _ => shiftLeft_word hp.1 hws k

/-! The right shift reads words beyond the top: the fill is the digit the number has there in two's complement. -/

theorem val_of_neg {p : Params} {sg : Bool} {ws : List Word} (h : val p sg ws < 0) :
    val p sg ws = uval p.w ws - 2 ^ p.nw := by
  cases sg
  · simp only [val, Bool.false_eq_true, if_false] at h
    omega
  · simp only [val, sval, if_true] at h ⊢
    split at h
    · omega
    next hge => rw [if_neg hge, pow2_eq]

theorem val_of_nonneg {p : Params} {sg : Bool} {ws : List Word} (hlt : uval p.w ws < 2 ^ p.nw)
    (h : ¬ val p sg ws < 0) : val p sg ws = uval p.w ws := by
  have hlt' : (uval p.w ws : Int) < 2 ^ p.nw := by exact_mod_cast hlt
  cases sg
  · rfl
  · simp only [val, sval, if_true, pow2_eq] at h ⊢
    split
    · rfl
    next hge =>
      rw [if_neg hge] at h
      omega

/-- The fill is all ones exactly where the value is negative. -/
theorem shiftFill_eq {p : Params} (hp : p.Valid) (sg : Bool) {ws : List Word} (hlt : uval p.w ws < 2 ^ p.nw) :
    shiftFill p sg ws = if val p sg ws < 0 then 2 ^ p.w - 1 else 0 := by
  have hhalf := pow2_succ_pred (one_le_nw hp)
  have hbit : uval p.w ws / 2 ^ (p.nw - 1) % 2 = 1 ↔ ¬ (uval p.w ws : Int) < pow2 (p.nw - 1) := by
    have hpos : 0 < 2 ^ (p.nw - 1) := Nat.two_pow_pos _
    have hlt2 : uval p.w ws / 2 ^ (p.nw - 1) < 2 := by
      rw [Nat.div_lt_iff_lt_mul hpos]
      rw [pow2, pow2] at hhalf
      omega
    have hle := Nat.le_div_iff_mul_le (x := 1) (y := uval p.w ws) hpos
    rw [pow2, Int.ofNat_lt, not_lt, ← Nat.one_mul (2 ^ (p.nw - 1)), ← hle, Nat.one_mul]
    generalize uval p.w ws / 2 ^ (p.nw - 1) = q at *
    omega
  have hlt' : (uval p.w ws : Int) < pow2 p.nw := Int.ofNat_lt.mpr hlt
  cases sg
  · simp [shiftFill, val]
  · simp only [shiftFill, val, sval, Bool.true_and, decide_eq_true_eq, hbit, if_true]
    by_cases hlow : (uval p.w ws : Int) < pow2 (p.nw - 1)
    · rw [if_neg (not_not.mpr hlow), if_pos hlow, if_neg (by omega)]
    · rw [if_pos hlow, if_neg hlow, if_pos (by omega)]

/-- With fill above its words, the number of a register is its value in a wider two's complement. -/
theorem uval_append_fill {p : Params} (hp : p.Valid) (sg : Bool) {ws : List Word} (hlen : ws.length = p.n)
    (hws : ∀ v ∈ ws, v < 2 ^ p.w) (m : Nat) :
    (uval p.w (ws ++ List.replicate m (shiftFill p sg ws)) : Int) ≡ val p sg ws [ZMOD 2 ^ (p.nw + m * p.w)] := by
  have hlt := uval_lt_pow2 hlen hws
  rw [uval_append, hlen, shiftFill_eq hp sg hlt]
  split_ifs with hneg
  · have hones := uval_replicate_ones (w := p.w) m
    zify at hones
    refine Int.modEq_iff_dvd.mpr ⟨-1, ?_⟩
    rw [val_of_neg hneg, Params.nw, pow_add]
    push_cast
    linear_combination (-2 ^ (p.n * p.w) : Int) * hones
  · rw [uval_replicate_zero, Nat.mul_zero, Nat.add_zero, val_of_nonneg hlt hneg]

theorem shiftRightWords_of_lt {p : Params} {sh : Nat} (sg : Bool) (ws : List Word) (h : sh < p.nw) :
    shiftRightWords p sg sh ws = (List.range p.n).map fun k =>
      ws.getD (k + sh / p.w) (shiftFill p sg ws) / 2 ^ (sh % p.w) +
        if sh % p.w > 0 then
          ws.getD (k + sh / p.w + 1) (shiftFill p sg ws) % 2 ^ (sh % p.w) * 2 ^ (p.w - sh % p.w)
        else 0 := by
  rw [shiftRightWords, if_neg (not_le.mpr h)]

theorem getD_append_replicate (ws : List Word) {m k : Nat} (fill : Word) (h : k < ws.length + m) :
    ws.getD k fill = (ws ++ List.replicate m fill).getD k 0 := by
  simp only [List.getD_eq_getElem?_getD]
  rcases lt_or_ge k ws.length with hk | hk
  · rw [List.getElem?_append_left hk]
    simp [hk]
  · rw [List.getElem?_append_right hk, List.getElem?_replicate, if_pos (by omega), List.getElem?_eq_none hk]
    rfl

/-- Word `k` of a right shift is digit `k` of the shifted number. -/
theorem shiftRight_word {w sh : Nat} (hw : 1 ≤ w) {xs : List Word} (hxs : ∀ v ∈ xs, v < 2 ^ w) (k : Nat) :
    xs.getD (k + sh / w) 0 / 2 ^ (sh % w) +
        (if sh % w > 0 then xs.getD (k + sh / w + 1) 0 % 2 ^ (sh % w) * 2 ^ (w - sh % w) else 0) =
      uval w xs / 2 ^ sh / 2 ^ (k * w) % 2 ^ w := by
  have hb : sh % w < w := Nat.mod_lt sh hw
  have hsh : sh = sh / w * w + sh % w := (Nat.div_add_mod' sh w).symm
  generalize sh / w = whole at *
  generalize sh % w = b at *
  subst hsh
  have hcarry : (if b > 0 then xs.getD (k + whole + 1) 0 % 2 ^ b * 2 ^ (w - b) else 0) =
      xs.getD (k + whole + 1) 0 % 2 ^ b * 2 ^ (w - b) := by
    split
    · rfl
    · rw [show b = 0 by omega, pow_zero, Nat.mod_one, Nat.zero_mul]
  have hshift : uval w xs / 2 ^ (whole * w + b) / 2 ^ (k * w) = uval w xs / 2 ^ ((k + whole) * w) / 2 ^ b := by
    rw [Nat.div_div_eq_div_mul, Nat.div_div_eq_div_mul, ← pow_add, ← pow_add]
    congr 2
    ring
  rw [hcarry, hshift, digit_of_shiftRight _ hb.le, getD_eq_digit hxs, getD_eq_digit hxs, Nat.div_div_eq_div_mul,
    ← pow_add, Nat.mod_mod_of_dvd _ (pow_dvd_pow 2 hb.le), show (k + whole + 1) * w = (k + whole) * w + w by ring]

/-- Congruent numbers stay congruent when shifted right. -/
theorem modEq_ediv_pow2 {x y : Int} {a k : Nat} (h : x ≡ y [ZMOD 2 ^ (a + k)]) :
    x / 2 ^ k ≡ y / 2 ^ k [ZMOD 2 ^ a] := by
  obtain ⟨c, hc⟩ := Int.modEq_iff_dvd.mp h
  have hy : y = x + 2 ^ k * (2 ^ a * c) := by rw [pow_add] at hc; linear_combination hc
  rw [hy, Int.add_mul_ediv_left _ _ (by positivity)]
  exact Int.modEq_iff_dvd.mpr ⟨c, by ring⟩

theorem shiftRightWords_eq {p : Params} (hp : p.Valid) {ws : List Word} (hlen : ws.length = p.n)
    (hws : ∀ v ∈ ws, v < 2 ^ p.w) (sg : Bool) (sh : Nat) :
    shiftRightWords p sg sh ws = words p (val p sg ws / 2 ^ sh) := by
  have hlt := uval_lt_pow2 hlen hws
  have hfill : shiftFill p sg ws < 2 ^ p.w := by
    rw [shiftFill_eq hp sg hlt]
    have hpos := Nat.two_pow_pos p.w
    split
    · exact Nat.sub_lt hpos one_pos
    · exact hpos
  rcases le_or_gt p.nw sh with hsh | hsh
  · have hval : val p sg ws / 2 ^ sh = if val p sg ws < 0 then -1 else 0 := by
      rw [← pow2_eq]
      exact ediv_pow2_of_fits (fits_val sg (one_le_nw hp) (Int.ofNat_lt.mpr hlt)) hsh
    rw [shiftRightWords, if_pos hsh]
    refine eq_words List.length_replicate (fun v hv => by rwa [List.eq_of_mem_replicate hv]) ?_
    rw [hval, shiftFill_eq hp sg hlt, List.length_replicate]
    split_ifs
    · have hones := uval_replicate_ones (w := p.w) p.n
      zify at hones
      exact Int.modEq_iff_dvd.mpr ⟨-1, by linear_combination -hones⟩
    · rw [uval_replicate_zero, Nat.cast_zero]
  · have hxs : ∀ v ∈ ws ++ List.replicate p.n (shiftFill p sg ws), v < 2 ^ p.w :=
      List.forall_mem_append.mpr ⟨hws, fun v hv => by rwa [List.eq_of_mem_replicate hv]⟩
    have hwide := uval_append_fill hp sg hlen hws p.n
    rw [← Nat.sub_add_cancel (hsh.le.trans (Nat.le_add_right p.nw (p.n * p.w)))] at hwide
    have hcongr := modEq_ediv_pow2 hwide
    have hwhole : sh / p.w < p.n := Nat.div_lt_of_lt_mul (by rwa [mul_comm])
    rw [shiftRightWords_of_lt sg ws hsh]
    refine map_range_eq_words (u := uval p.w (ws ++ List.replicate p.n (shiftFill p sg ws)) / 2 ^ sh) ?_
      (by push_cast; exact hcongr) fun k hk => ?_
    · have : p.nw = p.n * p.w := rfl
      omega
    · rw [getD_append_replicate ws (m := p.n) _ (by omega), getD_append_replicate ws (m := p.n) _ (by omega)]
      exact shiftRight_word hp.1 hxs k

/-- Settles O44: word by word, each shifter reads the digits of the shifted value. -/
theorem wordShifts : Obligations.WordShifts := fun _ _ sh sg hp hlen hws =>
  ⟨shiftLeftWords_eq hp hws sh, shiftRightWords_eq hp hlen hws sg sh⟩

/-! ### The comparator -/

theorem compareFlags_congr {a b c d : Int} (hlt : a < b ↔ c < d) (heq : a = b ↔ c = d) :
    compareFlags a b = compareFlags c d := by
  simp only [compareFlags, hlt, heq]

/-- From the most significant word down, the comparator orders the numbers. -/
theorem compareDown_eq {w : Nat} {as bs : List Word} (h : as.length = bs.length) (ha : ∀ v ∈ as, v < 2 ^ w)
    (hb : ∀ v ∈ bs, v < 2 ^ w) : compareDown as bs = compareFlags (uval w as.reverse) (uval w bs.reverse) := by
  induction as generalizing bs with
  | nil =>
    obtain rfl := List.eq_nil_of_length_eq_zero h.symm
    rfl
  | cons a as ih =>
    cases bs with
    | nil => simp at h
    | cons b bs =>
      replace ha := (List.forall_mem_cons.mp ha).2
      replace hb := (List.forall_mem_cons.mp hb).2
      replace h : as.length = bs.length := by simpa using h
      have hla := uval_lt w as.reverse (by simpa using ha)
      have hlb := uval_lt w bs.reverse (by simpa using hb)
      have htop : ∀ {x y u v m : Nat}, x < y → u < m → u + m * x < v + m * y := fun {x y u v m} hxy hu =>
        calc u + m * x < m * (x + 1) := by rw [Nat.mul_add]; omega
          _ ≤ m * y := Nat.mul_le_mul_left m hxy
          _ ≤ v + m * y := Nat.le_add_left ..
      simp only [List.reverse_cons, uval_append, uval, Nat.mul_zero, Nat.add_zero, compareDown,
        List.length_reverse] at hla hlb ⊢
      rw [← h] at hlb ⊢
      rcases lt_trichotomy a b with hab | rfl | hab
      · have hlt := htop (v := uval w bs.reverse) hab hla
        rw [if_pos hab, compareFlags, if_pos (Int.ofNat_lt.mpr hlt)]
      · rw [if_neg (lt_irrefl a), if_neg (lt_irrefl a), ih h ha hb]
        exact compareFlags_congr (by push_cast; omega) (by push_cast; omega)
      · have hlt := Int.ofNat_lt.mpr (htop (v := uval w as.reverse) hab hlb)
        rw [if_neg hab.not_gt, if_pos hab, compareFlags, if_neg hlt.not_gt, if_neg hlt.ne']

/-- Inverting the top bit of a word adds or takes away half the range. -/
theorem xor_two_pow_pred {w top : Nat} (hw : 1 ≤ w) (h : top < 2 ^ w) :
    top ^^^ 2 ^ (w - 1) = if top < 2 ^ (w - 1) then top + 2 ^ (w - 1) else top - 2 ^ (w - 1) := by
  obtain ⟨m, rfl⟩ := Nat.exists_eq_add_of_le' hw
  rw [Nat.add_sub_cancel]
  have hpos := Nat.two_pow_pos m
  have hdiv : (top ^^^ 2 ^ m) / 2 ^ m = top / 2 ^ m ^^^ 1 := by rw [Nat.xor_div_two_pow, Nat.div_self hpos]
  have hmod : (top ^^^ 2 ^ m) % 2 ^ m = top % 2 ^ m := by rw [Nat.xor_mod_two_pow, Nat.mod_self, Nat.xor_zero]
  rw [← Nat.div_add_mod (top ^^^ 2 ^ m) (2 ^ m), hdiv, hmod]
  split
  next hlow => rw [Nat.div_eq_of_lt hlow, Nat.mod_eq_of_lt hlow, Nat.zero_xor, Nat.mul_one, Nat.add_comm]
  next hge =>
    have hone : top / 2 ^ m = 1 := Nat.div_eq_of_lt_le (by omega) (by rw [pow_succ] at h; omega)
    have hsum := Nat.div_add_mod top (2 ^ m)
    rw [hone] at hsum ⊢
    rw [Nat.xor_self]
    omega

/-- Moving the top word by half its range moves the number by half of its own, up where the number lies below that half
and otherwise down. -/
theorem moved_up_by_half {low top m h : Nat} (hlow : low < m) :
    ((low + m * (if top < h then top + h else top - h) : Nat) : Int) =
      (if ((low + m * top : Nat) : Int) < (m * h : Nat) then ((low + m * top : Nat) : Int)
        else (low + m * top : Nat) - 2 * (m * h : Nat)) + (m * h : Nat) := by
  rcases lt_or_ge top h with ht | ht
  · have hbelow : low + m * top < m * h :=
      calc low + m * top < m * (top + 1) := by rw [Nat.mul_add]; omega
        _ ≤ m * h := Nat.mul_le_mul_left m ht
    rw [if_pos ht, if_pos (Int.ofNat_lt.mpr hbelow)]
    push_cast
    ring
  · have habove : m * h ≤ low + m * top := (Nat.mul_le_mul_left m ht).trans (Nat.le_add_left ..)
    rw [if_neg ht.not_gt, if_neg (Int.ofNat_lt.not.mpr habove.not_gt)]
    push_cast [ht]
    ring

theorem flipTop_false (w : Nat) (ws : List Word) : flipTop w false ws = ws.reverse := by
  unfold flipTop
  cases ws.reverse <;> rfl

theorem flipTop_concat (w : Nat) (ws : List Word) (top : Word) :
    flipTop w true (ws ++ [top]) = (ws ++ [top ^^^ 2 ^ (w - 1)]).reverse := by
  simp [flipTop]

/-- With the top bit inverted, the number of a register is its signed value moved up by half the range. -/
theorem exists_flipTop {p : Params} (hp : p.Valid) {ws : List Word} (hlen : ws.length = p.n)
    (hws : ∀ v ∈ ws, v < 2 ^ p.w) :
    ∃ xs : List Word, flipTop p.w true ws = xs.reverse ∧ xs.length = p.n ∧ (∀ v ∈ xs, v < 2 ^ p.w) ∧
      (uval p.w xs : Int) = val p true ws + 2 ^ (p.nw - 1) := by
  have ⟨hw, _, hn, _⟩ := hp
  obtain ⟨low, top, rfl⟩ : ∃ low top, ws = low ++ [top] :=
    ⟨_, _, (List.dropLast_append_getLast (List.ne_nil_of_length_pos (by omega))).symm⟩
  obtain ⟨hlow, htop⟩ := List.forall_mem_append.mp hws
  have htop : top < 2 ^ p.w := htop top (List.mem_singleton_self top)
  have hl : low.length + 1 = p.n := by simpa using hlen
  have hflip := xor_two_pow_pred hw htop
  have hlt := uval_lt p.w low hlow
  refine ⟨low ++ [top ^^^ 2 ^ (p.w - 1)], flipTop_concat .., by simpa using hlen, ?_, ?_⟩
  · refine List.forall_mem_append.mpr ⟨hlow, fun v hv => ?_⟩
    rw [List.mem_singleton.mp hv]
    exact Nat.xor_lt_two_pow htop (Nat.pow_lt_pow_right one_lt_two (by omega))
  · have hnw : p.nw = low.length * p.w + p.w := by rw [Params.nw, ← hl, Nat.add_mul, Nat.one_mul]
    have hhalf : pow2 (p.nw - 1) = (2 ^ (low.length * p.w) * 2 ^ (p.w - 1) : Nat) := by
      rw [pow2, hnw, Nat.add_sub_assoc hw, pow_add]
    have hfull := pow2_succ_pred (one_le_nw hp)
    rw [uval_append, uval, uval, Nat.mul_zero, Nat.add_zero, hflip, ← pow2_eq, hhalf, moved_up_by_half hlt]
    simp only [val, sval, if_true, uval_append, uval, Nat.mul_zero, Nat.add_zero, hfull, hhalf]

/-- Settles O45: unsigned words are compared as they are, signed ones with both values moved up by half the range. -/
theorem wordComparator : Obligations.WordComparator := by
  intro p as bs sg hp hla hlb ha hb
  cases sg
  · rw [compareWords, flipTop_false, flipTop_false, compareDown_eq (w := p.w), List.reverse_reverse,
      List.reverse_reverse]
    · rfl
    · simpa using hla.trans hlb.symm
    · simpa using ha
    · simpa using hb
  · obtain ⟨xs, hxs, hlx, hx, hxval⟩ := exists_flipTop hp hla ha
    obtain ⟨ys, hys, hly, hy, hyval⟩ := exists_flipTop hp hlb hb
    rw [compareWords, hxs, hys, compareDown_eq (w := p.w) (by simp [hlx, hly]) (by simpa using hx) (by simpa using hy),
      List.reverse_reverse, List.reverse_reverse, hxval, hyval]
    exact compareFlags_congr (by omega) (by omega)

end Sys2Proof.Machine

/-! The format P and F commands that complete (42_policy.md, 43_scaled.md): each comes to `finish` of its rounded true
result, and `exec_finishes` says how that ends. -/

namespace Sys2Proof.Machine

/-! ### The effect of each command -/

/-- The exact form of R201: a rescale to a finer exponent multiplies, one to a coarser exponent is none. -/
theorem rescaleUp_eq (a e fine : Int) : rescaleUp a e fine = a * 2 ^ (e - fine).toNat := by
  unfold rescaleUp
  split
  · rw [pow2_eq]
  · rw [Int.toNat_of_nonpos (by omega), pow_zero, mul_one]

/-- `(p/q) * 2^k` as one ratio of integers (43_scaled.md R210). -/
theorem roundScaledRatio_eq (p q k : Int) (tag : Rnd) :
    roundScaledRatio p q k tag = roundRatio (p * 2 ^ k.toNat) (q * 2 ^ (-k).toNat) tag := by
  unfold roundScaledRatio
  split
  · rw [pow2_eq, Int.toNat_of_nonpos (z := -k) (by omega), pow_zero, mul_one]
  · rw [pow2_eq, Int.toNat_of_nonpos (z := k) (by omega), pow_zero, mul_one]

theorem tagOf_eq {ty : TypeFields} {tag : Rnd} (h : roundingTag ty.rnd = some tag) : tagOf ty = tag := by
  rw [tagOf, h, Option.getD_some]

section
variable (s : State) (rd ra rb : RegField) (ty : TypeFields) (el : Bool) (da db ea eb ed : Field16)

theorem effectOf_fadd : effectOf s (.fadd rd ra rb ty el da db ea eb) =
    s.finish rd (s.valOf ra ty.s * 2 ^ (ea.toInt - eb.toInt).toNat + s.valOf rb ty.s * 2 ^ (eb.toInt - ea.toInt).toNat)
      (typeDigits ty el (WellFormed.scaledSumDigits da db ea eb)) ty.s ty.ovf (min ea.toInt eb.toInt) := by
  simp only [effectOf, rescaleUp_eq, sextField_eq, scaledSumDigits_eq]

theorem effectOf_fsub : effectOf s (.fsub rd ra rb ty el da db ea eb) =
    s.finish rd (s.valOf ra ty.s * 2 ^ (ea.toInt - eb.toInt).toNat - s.valOf rb ty.s * 2 ^ (eb.toInt - ea.toInt).toNat)
      (typeDigits ty el (WellFormed.scaledSumDigits da db ea eb)) ty.s ty.ovf (min ea.toInt eb.toInt) := by
  simp only [effectOf, rescaleUp_eq, sextField_eq, scaledSumDigits_eq]

theorem effectOf_fmul : effectOf s (.fmul rd ra rb ty el da db ea eb) =
    s.finish rd (s.valOf ra ty.s * s.valOf rb ty.s) (typeDigits ty el (da.toNat + db.toNat)) ty.s ty.ovf
      (ea.toInt + eb.toInt) := by
  simp only [effectOf, sextField_eq]
  rfl

theorem effectOf_pshl (sh : Field16) : effectOf s (.pshl rd ra ty el da sh) =
    s.finish rd (s.valOf ra ty.s * 2 ^ sh.toNat) (typeDigits ty el (da.toNat + sh.toNat)) ty.s ty.ovf 0 := by
  rw [effectOf, pow2_eq]
  rfl

variable {tag : Rnd} (htag : roundingTag ty.rnd = some tag)
include htag

theorem effectOf_pshr (sh : Field16) : effectOf s (.pshr rd ra ty el da sh) =
    s.finish rd (roundShift (s.valOf ra ty.s) sh.toNat tag) (typeDigits ty el da.toNat) ty.s ty.ovf 0 := by
  rw [effectOf, tagOf_eq htag]
  rfl

theorem effectOf_fcvt (ss : Bool) : effectOf s (.fcvt rd ra ty ss ea ed) =
    s.finish rd (if ed.toInt ≤ ea.toInt then s.valOf ra ss * 2 ^ (ea.toInt - ed.toInt).toNat
      else roundShift (s.valOf ra ss) (ed.toInt - ea.toInt).toNat tag) ty.dd.toNat ty.s ty.ovf ed.toInt := by
  rw [effectOf, tagOf_eq htag, roundScaled, sextField_eq, sextField_eq, pow2_eq, neg_sub]
  simp only [ge_iff_le, sub_nonneg]

variable (h0 : s.valOf rb ty.s ≠ 0)
include h0

theorem effectOf_pdiv : effectOf s (.pdiv rd ra rb ty el da db) =
    s.finish rd (roundRatio (s.valOf ra ty.s) (s.valOf rb ty.s) tag) (typeDigits ty el da.toNat) ty.s ty.ovf 0 := by
  rw [effectOf, if_neg h0, tagOf_eq htag]
  rfl

theorem effectOf_fdiv : effectOf s (.fdiv rd ra rb ty el da db ea eb ed) =
    s.finish rd (roundRatio (s.valOf ra ty.s * 2 ^ (ea.toInt - eb.toInt - ed.toInt).toNat)
        (s.valOf rb ty.s * 2 ^ (-(ea.toInt - eb.toInt - ed.toInt)).toNat) tag)
      (typeDigits ty el (da.toNat + (ea.toInt - eb.toInt - ed.toInt).toNat)) ty.s ty.ovf ed.toInt := by
  rw [effectOf, if_neg h0, tagOf_eq htag, roundScaledRatio_eq, scaledQuotientDigits_eq]
  simp only [divideShift, sextField_eq]

theorem effectOf_fqnt : effectOf s (.fqnt rd ra rb ty ed) =
    s.finish rd (roundRatio (s.valOf ra ty.s * 2 ^ (-ed.toInt).toNat) (s.valOf rb ty.s * 2 ^ ed.toInt.toNat) tag)
      ty.dd.toNat ty.s ty.ovf ed.toInt := by
  rw [effectOf, if_neg h0, tagOf_eq htag, roundScaledRatio_eq, sextField_eq, neg_neg]

end

/-! ### Completion -/

/-- A command that passes its checks and divides by 0 raises DivideByZero, whatever `OVF`. -/
theorem exec_of_dividesByZero {i : Instr} {s : State} (hw : i.wellFormed s.params = true)
    (hr : sourcesReadable s i = true) (h : s.DividesByZero i) : exec i s = .next (s.raise .divideByZero) := by
  rw [exec_of_checks hw hr, effectOf_of_dividesByZero h, run_error]

/-- A dividing P or F command: it ends as `exec_finishes` says, or raises DivideByZero. -/
theorem exec_divides {i : Instr} {s : State} {rd rb : RegField} {x : Int} {d : Nat} {er : Int} {ty : TypeFields}
    (hi : s.Inv) (hw : i.wellFormed s.params = true) (hr : sourcesReadable s i = true) (hd : destOf i = some rd)
    (ht : resultTypeOf i = some (ty.s, er, d)) (hdiv : divisorOf i = some (rb, ty.s))
    (he : s.valOf rb ty.s ≠ 0 → effectOf s i = s.finish rd x d ty.s ty.ovf er) :
    (s.valOf rb ty.s ≠ 0 → fits x d ty.s = true ∨ ty.ovf ≠ .chk →
        ∃ t, exec i s = .next t ∧ Finishes s t rd x d ty.s ty.ovf er) ∧
      (s.valOf rb ty.s ≠ 0 → fits x d ty.s = false → ty.ovf = .chk →
        ∃ t, exec i s = .next t ∧ FailsWith s t .overflow) ∧
      (s.valOf rb ty.s = 0 → ∃ t, exec i s = .next t ∧ FailsWith s t .divideByZero) :=
  ⟨fun h0 => (exec_finishes hi hw hr hd ht (he h0)).1,
    fun h0 hf hc => (exec_finishes hi hw hr hd ht (he h0)).2 ⟨hf, hc⟩,
    fun h0 => ⟨_, exec_of_dividesByZero hw hr ⟨rb, ty.s, hdiv, h0⟩, raise_failsWith s _⟩⟩

/-- Settles O46: one `finish` each, of the true result. -/
theorem policySumsComplete : Obligations.PolicySumsComplete := by
  intro s rd ra rb ty el da db a b hi hra hrb rfl rfl
  exact ⟨fun hw => exec_finishes hi hw (readable_pair rfl rfl hra hrb) rfl rfl rfl,
    fun hw => exec_finishes hi hw (readable_pair rfl rfl hra hrb) rfl rfl rfl,
    fun hw => exec_finishes hi hw (readable_pair rfl rfl hra hrb) rfl rfl rfl⟩

/-- Settles O47: a nonzero divisor leaves `finish` of the rounded quotient. -/
theorem policyDivisionCompletes : Obligations.PolicyDivisionCompletes := by
  intro s rd ra rb ty el da db tag x hi hw hra hrb htag rfl
  exact exec_divides hi hw (readable_pair rfl rfl hra hrb) rfl rfl rfl fun h0 =>
    effectOf_pdiv (htag := htag) (h0 := h0) ..

/-- Settles O48: one `finish` each; the shift to the right is rounded first. -/
theorem policyShiftsComplete : Obligations.PolicyShiftsComplete := by
  intro s rd ra ty el da sh tag a hi hra rfl htag
  exact ⟨fun hw => exec_finishes hi hw (readable_single rfl rfl hra) rfl rfl (effectOf_pshl ..),
    fun hw => exec_finishes hi hw (readable_single rfl rfl hra) rfl rfl (effectOf_pshr (htag := htag) ..)⟩

/-- Settles O53: the rescale of R201 is a multiplication, and so exact. -/
theorem scaledSumsComplete : Obligations.ScaledSumsComplete := by
  intro s rd ra rb ty el da db ea eb a b hi hra hrb rfl rfl
  exact ⟨fun hw => exec_finishes hi hw (readable_pair rfl rfl hra hrb) rfl rfl (effectOf_fadd ..),
    fun hw => exec_finishes hi hw (readable_pair rfl rfl hra hrb) rfl rfl (effectOf_fsub ..)⟩

/-- Settles O54: one `finish`, with the sum of the exponents. -/
theorem scaledProductCompletes : Obligations.ScaledProductCompletes := by
  intro s rd ra rb ty el da db ea eb x hi hra hrb rfl hw
  exact exec_finishes hi hw (readable_pair rfl rfl hra hrb) rfl rfl (effectOf_fmul ..)

/-- Settles O55: the exact rational of R210 as one ratio of integers. -/
theorem scaledDivisionCompletes : Obligations.ScaledDivisionCompletes := by
  intro s rd ra rb ty el da db ea eb ed tag k x d hi hw hra hrb htag rfl rfl rfl
  exact exec_divides hi hw (readable_pair rfl rfl hra hrb) rfl rfl rfl fun h0 =>
    effectOf_fdiv (htag := htag) (h0 := h0) ..

/-- Settles O56: one `finish` of the rescaled value. -/
theorem conversionCompletes : Obligations.ConversionCompletes := by
  intro s rd ra ty ss ea ed tag x hi hw hra htag rfl
  exact exec_finishes hi hw (readable_single rfl rfl hra) rfl rfl (effectOf_fcvt (htag := htag) ..)

/-- Settles O57: as FDIV, with the ratio shifted by `-ED`. -/
theorem quantizationCompletes : Obligations.QuantizationCompletes := by
  intro s rd ra rb ty ed tag x hi hw hra hrb htag rfl
  exact exec_divides hi hw (readable_pair rfl rfl hra hrb) rfl rfl rfl fun h0 =>
    effectOf_fqnt (htag := htag) (h0 := h0) ..

/-! ### Where a result fits -/

section
variable {a b x : Int} {d e : Nat} {sg : Bool}

theorem fits_mono (hde : d ≤ e) (h : fits x d sg = true) : fits x e sg = true := by
  rw [fits_iff_bounds] at h ⊢
  have hd : (2 : Int) ^ d ≤ 2 ^ e := pow_le_pow_right₀ (by norm_num) hde
  have hd' : (2 : Int) ^ (d - 1) ≤ 2 ^ (e - 1) := pow_le_pow_right₀ (by norm_num) (by omega)
  cases sg <;> simp only [Bool.false_eq_true, if_true, if_false] at h ⊢ <;> omega

/-- A number between 0 and one that fits. -/
theorem fits_of_between (h : fits a d sg = true) (hx : (0 ≤ a → 0 ≤ x ∧ x ≤ a) ∧ (a ≤ 0 → a ≤ x ∧ x ≤ 0)) :
    fits x d sg = true := by
  rw [fits_iff_bounds] at h ⊢
  have hd : (0 : Int) < 2 ^ d := by positivity
  have hd' : (0 : Int) < 2 ^ (d - 1) := by positivity
  cases sg <;> simp only [Bool.false_eq_true, if_true, if_false] at h ⊢ <;> omega

/-- One digit more than both operands holds their sum. -/
theorem fits_add (hd : 1 ≤ d) (ha : fits a d sg = true) (hb : fits b d sg = true) : fits (a + b) (d + 1) sg = true := by
  rw [fits_iff_bounds] at ha hb ⊢
  have hpow : (2 : Int) ^ d = 2 * 2 ^ (d - 1) := by rw [← pow2_eq, ← pow2_eq, pow2_succ_pred hd]
  have hpow' : (2 : Int) ^ (d + 1) = 2 * 2 ^ d := by rw [pow_succ, mul_comm]
  cases sg <;> simp only [Bool.false_eq_true, if_true, if_false, Nat.add_sub_cancel] at ha hb ⊢ <;> omega

/-- Signed, it holds their difference as well. -/
theorem fits_sub (hd : 1 ≤ d) (ha : fits a d true = true) (hb : fits b d true = true) :
    fits (a - b) (d + 1) true = true := by
  rw [fits_iff_bounds] at ha hb ⊢
  have hpow : (2 : Int) ^ d = 2 * 2 ^ (d - 1) := by rw [← pow2_eq, ← pow2_eq, pow2_succ_pred hd]
  simp only [if_true, Nat.add_sub_cancel] at ha hb ⊢
  omega

/-- The digits of both factors together hold the product. -/
theorem fits_mul (hd : 1 ≤ d) (he : 1 ≤ e) (ha : fits a d sg = true) (hb : fits b e sg = true) :
    fits (a * b) (d + e) sg = true := by
  rw [fits_iff_bounds] at ha hb ⊢
  cases sg
  · simp only [Bool.false_eq_true, if_false] at ha hb ⊢
    rw [pow_add]
    exact ⟨mul_nonneg ha.1 hb.1, mul_lt_mul'' ha.2 hb.2 ha.1 hb.1⟩
  · simp only [if_true] at ha hb ⊢
    have habs : |a * b| ≤ 2 ^ (d - 1) * 2 ^ (e - 1) := by
      rw [abs_mul]
      exact mul_le_mul (abs_le.mpr ⟨ha.1, ha.2.le⟩) (abs_le.mpr ⟨hb.1, hb.2.le⟩) (abs_nonneg b) (by positivity)
    have hpow : (2 : Int) ^ (d + e - 1) = 2 * (2 ^ (d - 1) * 2 ^ (e - 1)) := by
      rw [show d + e - 1 = (d - 1) + (e - 1) + 1 by omega, pow_succ, pow_add]
      ring
    have hpos : (0 : Int) < 2 ^ (d - 1) * 2 ^ (e - 1) := by positivity
    rw [hpow]
    obtain ⟨hlow, hhigh⟩ := abs_le.mp habs
    exact ⟨by linarith, by linarith⟩

/-- `k` digits more hold the number shifted up by `k`. -/
theorem fits_mul_pow (hd : 1 ≤ d) (k : Nat) (ha : fits a d sg = true) : fits (a * 2 ^ k) (d + k) sg = true := by
  rw [fits_iff_bounds] at ha ⊢
  have hk : (0 : Int) < 2 ^ k := by positivity
  have hpow : (2 : Int) ^ (d + k - 1) = 2 ^ (d - 1) * 2 ^ k := by rw [← pow_add, show d - 1 + k = d + k - 1 by omega]
  rw [hpow, pow_add]
  cases sg <;> simp only [Bool.false_eq_true, if_true, if_false] at ha ⊢
  · exact ⟨mul_nonneg ha.1 hk.le, mul_lt_mul_of_pos_right ha.2 hk⟩
  · rw [← neg_mul]
    exact ⟨mul_le_mul_of_nonneg_right ha.1 hk.le, mul_lt_mul_of_pos_right ha.2 hk⟩

/-- A right shift under NAT is the floor, as a ratio under TN. -/
theorem roundShift_nat_eq (a : Int) (k : Nat) : roundShift a k .nat = roundRatio a (pow2 k) .tn := by
  rw [roundRatio_of_pos (pow2_pos k), roundFraction, ite_self]
  rfl

/-- A rounded right shift needs no more digits than its operand. -/
theorem fits_roundShift (k : Nat) (tag : Rnd) (ha : fits a d sg = true) : fits (roundShift a k tag) d sg = true := by
  have hratio : ∀ tag, fits (roundRatio a (pow2 k) tag) d sg = true := fun tag =>
    fits_of_between ha (roundRatio_between tag (pow2_pos k))
  cases tag
  case nat => rw [roundShift_nat_eq]; exact hratio .tn
  all_goals exact hratio _

end

end Sys2Proof.Machine

/-! The consequences of 42_policy.md section 6: elastic results of operands that fit their declared digit counts, and
the two cases that still overflow. -/

namespace Sys2Proof.Machine

section
variable {p : Params} {ty : TypeFields} {da db : Field16}

/-- The digit counts an elastic command with two sources declares are at least 1. -/
theorem digits2_elastic (h : WellFormed.digits2 p ty true da db = true) : 1 ≤ da.toNat ∧ 1 ≤ db.toNat := by
  simp only [WellFormed.digits2, WellFormed.digits, if_true, Bool.and_eq_true, decide_eq_true_eq] at h
  exact ⟨h.1.2.1, h.2.1⟩

theorem digits1_elastic (h : WellFormed.digits1 p ty true da = true) : 1 ≤ da.toNat := by
  simp only [WellFormed.digits1, WellFormed.digits, if_true, Bool.and_eq_true, decide_eq_true_eq] at h
  exact h.2.1

/-- The digit check is the last part of the legality of every elastic command. -/
theorem digits_of_wellFormed {i : Instr} {b c : Bool} (h : i.wellFormed p = true) (hl : i.legal p = (b && c)) :
    c = true := by
  rw [Instr.wellFormed, hl, Bool.and_eq_true, Bool.and_eq_true] at h
  exact h.1.2

end

section
variable {a b x : Int} {d e : Nat} {sg : Bool}

/-- The sum of two operands, in one digit more than the wider one. -/
theorem fits_add_max (hd : 1 ≤ d) (ha : fits a d sg = true) (hb : fits b e sg = true) :
    fits (a + b) (max d e + 1) sg = true :=
  fits_add (hd.trans (le_max_left d e)) (fits_mono (le_max_left d e) ha) (fits_mono (le_max_right d e) hb)

theorem fits_sub_max (hd : 1 ≤ d) (ha : fits a d true = true) (hb : fits b e true = true) :
    fits (a - b) (max d e + 1) true = true :=
  fits_sub (hd.trans (le_max_left d e)) (fits_mono (le_max_left d e) ha) (fits_mono (le_max_right d e) hb)

end

/-- Settles O49: the deduced digit count holds every result. -/
theorem elasticResultsFit : Obligations.ElasticResultsFit := by
  intro s rd ra rb ty da db sh ea eb tag a b p q hi hra hrb rfl rfl htag ha hb rfl rfl
  refine ⟨fun hw => ?_, fun hw hsg => ?_, fun hw => ?_, fun hw => ?_, fun hw => ?_, fun hw => ?_, fun hw hsg => ?_,
    fun hw => ?_⟩
  · obtain ⟨hda, _⟩ := digits2_elastic (digits_of_wellFormed hw rfl)
    exact exec_fits hi hw (readable_pair rfl rfl hra hrb) rfl rfl rfl (fits_add_max hda ha hb)
  · obtain ⟨hda, _⟩ := digits2_elastic (digits_of_wellFormed hw rfl)
    refine exec_fits hi hw (readable_pair rfl rfl hra hrb) rfl rfl rfl ?_
    rw [hsg] at ha hb ⊢
    exact fits_sub_max hda ha hb
  · obtain ⟨hda, hdb⟩ := digits2_elastic (digits_of_wellFormed hw rfl)
    exact exec_fits hi hw (readable_pair rfl rfl hra hrb) rfl rfl rfl (fits_mul hda hdb ha hb)
  · have hda := digits1_elastic (digits_of_wellFormed hw rfl)
    exact exec_fits hi hw (readable_single rfl rfl hra) rfl rfl (effectOf_pshl ..) (fits_mul_pow hda _ ha)
  · exact exec_fits hi hw (readable_single rfl rfl hra) rfl rfl (effectOf_pshr (htag := htag) ..)
      (fits_roundShift _ tag ha)
  · obtain ⟨hda, hdb⟩ := digits2_elastic (digits_of_wellFormed hw rfl)
    exact exec_fits hi hw (readable_pair rfl rfl hra hrb) rfl rfl (effectOf_fadd ..)
      (fits_add_max (by omega) (fits_mul_pow hda _ ha) (fits_mul_pow hdb _ hb))
  · obtain ⟨hda, hdb⟩ := digits2_elastic (digits_of_wellFormed hw rfl)
    refine exec_fits hi hw (readable_pair rfl rfl hra hrb) rfl rfl (effectOf_fsub ..) ?_
    rw [hsg] at ha hb ⊢
    exact fits_sub_max (by omega) (fits_mul_pow hda _ ha) (fits_mul_pow hdb _ hb)
  · obtain ⟨hda, hdb⟩ := digits2_elastic (digits_of_wellFormed hw rfl)
    exact exec_fits hi hw (readable_pair rfl rfl hra hrb) rfl rfl (effectOf_fmul ..) (fits_mul hda hdb ha hb)

/-! ### The two cases that overflow -/

section
variable {a b x : Int} {d : Nat}

/-- A negative number against an unsigned type: WRAP adds the width, SAT leaves 0. -/
theorem unsigned_overflow (hneg : x < 0) (hlow : -2 ^ d ≤ x) :
    fits x d false = false ∧ wrap x d false = x + 2 ^ d ∧ sat x d false = 0 := by
  have hpos := pow2_pos d
  rw [← pow2_eq] at hlow ⊢
  refine ⟨?_, ?_, ?_⟩
  · rw [← Bool.not_eq_true, fits_iff]
    simp only [lo, Bool.false_eq_true, if_false]
    omega
  · simp only [wrap, Bool.false_eq_true, if_false]
    rw [← Int.add_emod_right, Int.emod_eq_of_lt (by omega) (by omega)]
  · simp only [sat, lo, hi, Bool.false_eq_true, if_false]
    rw [if_neg (by omega), if_pos hneg]

/-- One above the greatest number of a signed type: WRAP leaves the least one, SAT the greatest. -/
theorem signed_overflow (hd : 1 ≤ d) :
    fits (2 ^ (d - 1)) d true = false ∧ wrap (2 ^ (d - 1)) d true = -2 ^ (d - 1) ∧
      sat (2 ^ (d - 1)) d true = 2 ^ (d - 1) - 1 := by
  have hpos := pow2_pos (d - 1)
  have hhalf := pow2_succ_pred hd
  rw [← pow2_eq]
  refine ⟨?_, ?_, ?_⟩
  · rw [← Bool.not_eq_true, fits_iff]
    simp only [hi, if_true]
    omega
  · simp only [wrap, if_true]
    rw [← two_mul, ← hhalf, Int.emod_self, zero_sub]
  · simp only [sat, hi, if_true]
    rw [if_pos (by omega)]

/-- A rounded quotient of an operand of `D` digits fits `D` digits, but for the one number above the range. -/
theorem fits_quotient {sg : Bool} (tag : Rnd) (ha : fits a d sg = true) (hb0 : b ≠ 0) (hb : sg = false → 0 ≤ b) :
    fits (roundRatio a b tag) d sg = true ∨
      sg = true ∧ a = -2 ^ (d - 1) ∧ roundRatio a b tag = 2 ^ (d - 1) := by
  cases sg
  · have hpos : 0 < b := lt_of_le_of_ne (hb rfl) hb0.symm
    exact .inl (fits_of_between ha (roundRatio_between tag hpos))
  · have habs := abs_roundRatio_le tag hb0 (p := a)
    rw [fits_iff_bounds] at ha ⊢
    simp only [if_true, true_and] at ha ⊢
    rw [abs_le] at habs
    rcases abs_cases a with ⟨h, _⟩ | ⟨h, _⟩ <;> rw [h] at habs <;> omega

theorem roundRatio_neg_one (a : Int) (tag : Rnd) : roundRatio a (-1) tag = -a := by
  rw [roundRatio_neg_neg tag (by decide), roundRatio_of_pos (by decide)]
  simp

end

/-- An elastic difference of unsigned operands: exact where it is not negative, and an overflow elsewhere. -/
theorem exec_unsigned_difference {i : Instr} {s : State} {rd : RegField} {a b er : Int} {d : Nat} {ty : TypeFields}
    (hi : s.Inv) (hw : i.wellFormed s.params = true) (hr : sourcesReadable s i = true) (hd : destOf i = some rd)
    (hsg : ty.s = false) (ht : resultTypeOf i = some (ty.s, er, d))
    (he : effectOf s i = s.finish rd (a - b) d ty.s ty.ovf er)
    (ha : fits a d ty.s = true) (hb : fits b d ty.s = true) :
    ∃ t, exec i s = .next t ∧ if b ≤ a then WritesTyped s t rd (a - b) false er d
      else OverflowsTo s t rd (a - b + 2 ^ d) 0 d false ty.ovf er := by
  rw [hsg, fits_iff_bounds] at ha hb
  simp only [Bool.false_eq_true, if_false] at ha hb
  split_ifs with hba
  · rw [← hsg]
    refine exec_fits hi hw hr hd ht he ?_
    rw [hsg, fits_iff_bounds]
    simp only [Bool.false_eq_true, if_false]
    omega
  · obtain ⟨hfit, hwrap, hsat⟩ := unsigned_overflow (d := d) (x := a - b) (by omega) (by omega)
    rw [← hwrap, ← hsat, ← hsg]
    exact exec_overflows hi hw hr hd ht he (hsg ▸ hfit)

/-- An elastic quotient: exact but for the one number above a signed range. -/
theorem exec_quotient {i : Instr} {s : State} {rd : RegField} {a b er : Int} {d : Nat} {ty : TypeFields} {tag : Rnd}
    (hi : s.Inv) (hw : i.wellFormed s.params = true) (hr : sourcesReadable s i = true) (hd : destOf i = some rd)
    (ht : resultTypeOf i = some (ty.s, er, d)) (hd1 : 1 ≤ d)
    (he : effectOf s i = s.finish rd (roundRatio a b tag) d ty.s ty.ovf er)
    (ha : fits a d ty.s = true) (hb0 : b ≠ 0) (hb : ty.s = false → 0 ≤ b) :
    ∃ t, exec i s = .next t ∧ if ty.s = true ∧ a = -2 ^ (d - 1) ∧ roundRatio a b tag = 2 ^ (d - 1) then
        OverflowsTo s t rd (-2 ^ (d - 1)) (2 ^ (d - 1) - 1) d true ty.ovf er
      else WritesTyped s t rd (roundRatio a b tag) ty.s er d := by
  split_ifs with hover
  · obtain ⟨hsg, _, hx⟩ := hover
    obtain ⟨hfit, hwrap, hsat⟩ := signed_overflow hd1
    rw [← hsat, ← hwrap, ← hsg]
    rw [hx] at he
    exact exec_overflows hi hw hr hd ht he (hsg ▸ hfit)
  · exact exec_fits hi hw hr hd ht he ((fits_quotient tag ha hb0 hb).resolve_right hover)

theorem nonneg_of_fits_unsigned {b : Int} {d : Nat} {sg : Bool} (h : fits b d sg = true) (hsg : sg = false) :
    0 ≤ b := by
  rw [hsg, fits_iff_bounds] at h
  exact h.1

/-- The least number of a signed type, shifted up with its type, is the least number of the wider type. -/
theorem neg_half_mul_pow_iff {a : Int} {d : Nat} (hd : 1 ≤ d) (k : Nat) :
    a * 2 ^ k = -2 ^ (d + k - 1) ↔ a = -2 ^ (d - 1) := by
  have hk : (2 : Int) ^ k ≠ 0 := by positivity
  rw [show d + k - 1 = d - 1 + k by omega, pow_add, ← neg_mul]
  exact mul_left_inj' hk

/-- Settles O50: PDIV and FDIV both divide an operand of `D` digits, FDIV the dividend shifted up with its type. -/
theorem elasticExceptions : Obligations.ElasticExceptions := by
  intro s rd ra rb ty da db ea eb ed tag a b p q k x d hi hra hrb rfl rfl htag ha hb
  refine ⟨fun hw hsg hd => ?_, fun hw hsg hp hq hd => ?_, fun hw hb0 hx hd => ?_, fun hw hb0 hk hx hd => ?_⟩
  · subst hd
    exact exec_unsigned_difference hi hw (readable_pair rfl rfl hra hrb) rfl hsg rfl rfl
      (fits_mono (Nat.le_succ_of_le (le_max_left _ _)) ha) (fits_mono (Nat.le_succ_of_le (le_max_right _ _)) hb)
  · subst hp hq hd
    obtain ⟨hda, hdb⟩ := digits2_elastic (digits_of_wellFormed hw rfl)
    exact exec_unsigned_difference hi hw (readable_pair rfl rfl hra hrb) rfl hsg rfl (effectOf_fsub ..)
      (fits_mono (Nat.le_succ_of_le (le_max_left _ _)) (fits_mul_pow hda _ ha))
      (fits_mono (Nat.le_succ_of_le (le_max_right _ _)) (fits_mul_pow hdb _ hb))
  · subst hx hd
    obtain ⟨hda, _⟩ := digits2_elastic (digits_of_wellFormed hw rfl)
    refine ⟨fun _ h1 h2 => ?_, ?_⟩
    · rw [h1, h2, roundRatio_neg_one, neg_neg]
    · exact exec_quotient hi hw (readable_pair rfl rfl hra hrb) rfl rfl hda
        (effectOf_pdiv (htag := htag) (h0 := hb0) ..) ha hb0 (nonneg_of_fits_unsigned hb)
  · subst hx hk hd
    obtain ⟨hda, _⟩ := digits2_elastic (digits_of_wellFormed hw rfl)
    refine ⟨fun _ h1 h2 hk => ?_, ?_⟩
    · rw [h2, Int.toNat_of_nonpos (neg_nonpos.mpr hk), pow_zero, mul_one, roundRatio_neg_one,
        (neg_half_mul_pow_iff hda _).mpr h1, neg_neg]
    · have hquot := exec_quotient (d := da.toNat + (ea.toInt - eb.toInt - ed.toInt).toNat) hi hw
        (readable_pair rfl rfl hra hrb) rfl rfl (Nat.le_add_right_of_le hda)
        (effectOf_fdiv (htag := htag) (h0 := hb0) ..) (fits_mul_pow hda _ ha)
        (mul_ne_zero hb0 (by positivity)) fun hsg => mul_nonneg (nonneg_of_fits_unsigned hb hsg) (by positivity)
      simp only [neg_half_mul_pow_iff hda] at hquot
      exact hquot

end Sys2Proof.Machine

/-! What P and F commands leave in their destination, beside each other and beside the W commands: canonical form
(10_state.md section 1), and the equalities of 42_policy.md section 5 and 43_scaled.md section 3. -/

namespace Sys2Proof.Machine

/-! ### Canonical form -/

@[simp] theorem setRtype_valOf (s : State) (r : RegField) (sg sg' : Bool) (er : Int) (d : Nat) :
    (s.setRtype sg er d).valOf r sg' = s.valOf r sg' := rfl

/-- A value of `D ≤ NW` digits is read back from the register it is written to, and so is canonical there. -/
theorem setReg_valOf_fits {s : State} {rd : RegField} {x : Int} {d : Nat} {sg : Bool} (hp : s.params.Valid)
    (hrd : rd.toNat < s.regs.length) (hnw : d ≤ s.params.nw) (hx : fits x d sg = true) :
    fits ((s.setReg rd x).valOf rd sg) d sg = true := by
  rw [setReg_valOf_same_of_fits hrd (one_le_nw hp) (fits_mono hnw hx)]
  exact hx

theorem format_of_resultType {i : Instr} {r : Bool × Int × Nat} (h : resultTypeOf i = some r) :
    formatOf i = .p ∨ formatOf i = .f := by
  cases i <;> simp_all [resultTypeOf, formatOf]

/-- A typed effect leaves its destination canonical, unless it drew an unspecified pattern. -/
theorem Effect.fits_valOf {s t : State} {i : Instr} (effect : Effect s i t) (hs : s.Inv) (hl : i.legal s.params = true)
    (hc : i.withinCapacity s.params = true) {rd : RegField} {ty : TypeFields} {sg : Bool} {er : Int} {d : Nat}
    (hd : destOf i = some rd) (hty : typeOf i = some ty) (ht : resultTypeOf i = some (sg, er, d))
    (hund : ty.ovf = .und → t.draws = s.draws) : fits (t.valOf rd sg) d sg = true := by
  obtain ⟨hp, hshape, _⟩ := hs
  have hformat := format_of_resultType ht
  cases effect with
  | nothing hnone => rw [hnone] at hd; contradiction
  | register _ _ _ hf => rcases hf with hf | hf <;> rw [hf] at hformat <;> simp at hformat
  | word _ _ _ _ hf => rw [hf] at hformat; simp at hformat
  | compare _ _ _ _ hw => rw [hw] at hd; contradiction
  | typed rd' sg' er' d' x hd' _ ht' hx h =>
    obtain rfl : rd' = rd := Option.some.inj (hd'.symm.trans hd)
    obtain ⟨rfl, rfl, rfl⟩ : sg' = sg ∧ er' = er ∧ d' = d := by simpa [ht'] using ht
    rw [h, setRtype_valOf]
    exact setReg_valOf_fits hp (dest_lt hshape hl hd) (resultType_bounds hl hc ht).2.1 hx
  | unspecified _ _ _ _ _ _ _ ho h =>
    obtain ⟨ty', hty', hovf⟩ := ho
    obtain rfl : ty' = ty := Option.some.inj (hty'.symm.trans hty)
    have hdraws := hund hovf
    rw [h, setRtype_draws, setAny_draws] at hdraws
    omega

/-- A T or W command that succeeds and whose effect is one write made it. -/
theorem exec_write_inv {i : Instr} {s t : State} {rd : RegField} {x : Int} {data : Data64} (h : exec i s = .next t)
    (hok : Succeeds s t data) (he : effectOf s i = .ok (s.setReg rd x, 0)) :
    i.legal s.params = true ∧ t = (s.setReg rd x).respond 0 := by
  rcases exec_cases h with ⟨f, rfl⟩ | ⟨u, data', hl, _, _, he', _, rfl⟩
  · exact absurd hok (not_succeeds_raise s f data)
  · rw [he, Except.ok.injEq, Prod.mk.injEq] at he'
    exact ⟨hl, by rw [← he'.1, ← he'.2]⟩

theorem lo_le_hi (d : Nat) (sg : Bool) : lo d sg ≤ hi d sg := by
  have hd := pow2_pos d
  have hd' := pow2_pos (d - 1)
  cases sg <;> simp only [lo, hi, Bool.false_eq_true, if_true, if_false] <;> omega

/-- The limit a legal `KIND` names is a value of the type. -/
theorem fits_limitOf {kind d : Nat} {sg : Bool} (h : kind ≤ 2) : fits ((limitOf kind d sg).getD 0) d sg = true := by
  have hmin : fits (lo d sg) d sg = true := (fits_iff ..).mpr ⟨le_rfl, lo_le_hi d sg⟩
  have hmax : fits (hi d sg) d sg = true := (fits_iff ..).mpr ⟨lo_le_hi d sg, le_rfl⟩
  interval_cases kind
  · exact hmin
  · exact hmax
  · exact hmin

/-- Settles O51. For LDI the digit count is cut at `NW`, where every content of the register is canonical. -/
theorem destinationsAreCanonical : Obligations.DestinationsAreCanonical := by
  refine ⟨fun i s t rd ty sg er d data hs h hok hd hty hund ht => ?_, fun s t rd ra sg d data hs h hok => ?_,
    fun s t rd sg d kind data hs h hok => ?_, fun s t rd sg ds dat data hs h hok => ?_⟩
  · rcases exec_cases h with ⟨f, rfl⟩ | ⟨u, data', hl, hc, _, _, effect, rfl⟩
    · exact absurd hok (not_succeeds_raise s f data)
    · exact effect.fits_valOf hs hl hc hd hty ht hund
  · obtain ⟨hl, rfl⟩ := exec_write_inv h hok rfl
    have hrd := dest_lt hs.2.1 hl rfl
    simp only [Instr.legal, WellFormed.digits, Bool.and_eq_true, decide_eq_true_eq] at hl
    obtain ⟨-, h1, hnw⟩ := hl
    rw [respond_valOf, pow2_eq, ext_emod_eq_wrap h1]
    exact setReg_valOf_fits hs.1 hrd hnw (fits_wrap _ sg h1)
  · obtain ⟨hl, rfl⟩ := exec_write_inv h hok rfl
    have hrd := dest_lt hs.2.1 hl rfl
    simp only [Instr.legal, WellFormed.digits, Bool.and_eq_true, decide_eq_true_eq] at hl
    obtain ⟨⟨-, -, hnw⟩, hkind⟩ := hl
    rw [respond_valOf]
    exact setReg_valOf_fits hs.1 hrd hnw (fits_limitOf hkind)
  · obtain ⟨hl, rfl⟩ := exec_write_inv h hok rfl
    have hrd := dest_lt hs.2.1 hl rfl
    simp only [Instr.legal, Bool.and_eq_true, decide_eq_true_eq] at hl
    obtain ⟨-, h1, -⟩ := hl
    rw [respond_valOf]
    rcases le_total ds.toNat s.params.nw with hnw | hnw
    · rw [min_eq_left hnw]
      refine setReg_valOf_fits hs.1 hrd hnw (fits_ext h1 (Int.natCast_nonneg _) ?_)
      exact_mod_cast Nat.mod_lt _ (Nat.two_pow_pos _)
    · rw [min_eq_right hnw]
      exact (setReg_holds _ hrd).fits_valOf hs.1 sg

/-! ### P commands beside W commands -/

/-- Under WRAP the check makes no difference: a value that fits is its own wrapped value. -/
theorem finish_wrap {s : State} {rd : RegField} {x : Int} {d : Nat} {sg : Bool} {er : Int} (hd : 1 ≤ d) :
    s.finish rd x d sg .wrap er = .ok ((s.setReg rd (wrap x d sg)).setRtype sg er d, 0) := by
  unfold State.finish
  split
  next h => rw [wrap_eq_self hd h]
  next => rfl

/-- A P command under WRAP at full width writes the registers a plain write of its value would. -/
theorem exec_wrap_regs {i : Instr} {s : State} {rd : RegField} {x y : Int} {d : Nat} {sg : Bool} {er : Int} {ovf : Ovf}
    (hp : s.params.Valid) (hw : i.wellFormed s.params = true) (hr : sourcesReadable s i = true)
    (he : effectOf s i = s.finish rd x d sg ovf er) (hovf : ovf = .wrap) (hd : d = s.params.nw)
    (hxy : x % pow2 s.params.nw = y % pow2 s.params.nw) :
    ∃ t, exec i s = .next t ∧ t.regs = (s.setReg rd y).regs := by
  subst hovf hd
  rw [exec_of_checks hw hr, he, finish_wrap (one_le_nw hp)]
  refine ⟨_, run_ok .., ?_⟩
  rw [respond_regs, setRtype_regs, setReg_congr ((wrap_emod x _ sg).trans hxy)]

/-- A full-width type is legal without elastic deduction. -/
theorem digits_of_full {p : Params} (hp : p.Valid) {d : Field16} (h : d.toNat = p.nw) : WellFormed.digits p d = true :=
  digits_of_bounds (h ▸ one_le_nw hp) h.le

/-- Settles O52: both commands of a pair write values congruent modulo `2^NW`. -/
theorem policyCommandsAtFullWidth : Obligations.PolicyCommandsAtFullWidth := by
  intro s rd ra rb ty sh ⟨hp, _⟩ hovf hdd hrnd hd ha hb hra hrb
  have hdigits := digits_of_full hp hdd
  have hround : WellFormed.rounding ty = true := decide_eq_true hrnd
  constructor
  · have hw : (Instr.padd rd ra rb ty false 0 0).wellFormed s.params = true := by
      simp [Instr.wellFormed, Instr.legal, Instr.withinCapacity, Instr.elasticDigits, WellFormed.digits2, reg_of_lt hd,
        reg_of_lt ha, reg_of_lt hb, hround, hdigits]
    obtain ⟨t, ht, hregs⟩ := exec_wrap_regs hp hw (readable_pair rfl rfl hra hrb) rfl hovf hdd
      (Int.ModEq.add (valOf_emod s ra ty.s false) (valOf_emod s rb ty.s false))
    exact ⟨t, _, ht, exec_wadd ty.s hd ha hb hra hrb, hregs⟩
  · intro hnat
    have hw : (Instr.pshr rd ra ty false 0 sh).wellFormed s.params = true := by
      simp [Instr.wellFormed, Instr.legal, Instr.withinCapacity, Instr.elasticDigits, WellFormed.digits1, reg_of_lt hd,
        reg_of_lt ha, hround, hdigits]
    have htag : roundingTag ty.rnd = some .nat := by rw [hnat]; rfl
    obtain ⟨t, ht, hregs⟩ := exec_wrap_regs hp hw (readable_single rfl rfl hra)
      (effectOf_pshr (htag := htag) ..) hovf hdd rfl
    exact ⟨t, _, ht, exec_wshr ty.s sh hd ha hra, hregs⟩

/-! ### F commands beside P commands -/

/-- An attempt whose result type is written over. -/
def retype (sg : Bool) (er : Int) (d : Nat) (a : Attempt) : Attempt := a.map fun r => (r.1.setRtype sg er d, r.2)

/-- Another exponent changes what `finish` writes to RTYPE, and nothing else. -/
theorem finish_exponent (s : State) (rd : RegField) (x : Int) (d : Nat) (sg : Bool) (ovf : Ovf) (er er' : Int) :
    s.finish rd x d sg ovf er' = retype sg er' d (s.finish rd x d sg ovf er) := by
  unfold State.finish
  split
  · rfl
  · cases ovf <;> rfl

theorem checked_retype (legal within readable : Bool) (sg : Bool) (er : Int) (d : Nat) (a : Attempt) :
    checked legal within readable (retype sg er d a) = retype sg er d (checked legal within readable a) := by
  unfold checked
  split_ifs <;> rfl

theorem run_retype {s t u : State} {a : Attempt} {sg : Bool} {er : Int} {d : Nat} (ht : s.run a = .next t)
    (hu : s.run (retype sg er d a) = .next u) : t.regs = u.regs ∧ t.status = u.status ∧ t.out = u.out := by
  cases a with
  | error f =>
    obtain rfl := Host.Outcome.next.inj ht
    obtain rfl := Host.Outcome.next.inj hu
    exact ⟨rfl, rfl, rfl⟩
  | ok r =>
    obtain rfl := Host.Outcome.next.inj ht
    obtain rfl := Host.Outcome.next.inj hu
    exact ⟨rfl, rfl, rfl⟩

/-- Two commands that differ in the exponent of their result only leave the same registers, STATUS and responses. -/
theorem run_finish_exponent {s t u : State} {legal within readable : Bool} {rd : RegField} {x : Int} {d : Nat}
    {sg : Bool} {ovf : Ovf} {er er' : Int}
    (ht : s.run (checked legal within readable (s.finish rd x d sg ovf er)) = .next t)
    (hu : s.run (checked legal within readable (s.finish rd x d sg ovf er')) = .next u) :
    t.regs = u.regs ∧ t.status = u.status ∧ t.out = u.out := by
  rw [finish_exponent s rd x d sg ovf er er', checked_retype] at hu
  exact run_retype ht hu

/-- At equal exponents nothing is shifted up. -/
theorem scaledSumDigits_same (da db ea : Field16) :
    WellFormed.scaledSumDigits da db ea ea = max da.toNat db.toNat + 1 := by
  rw [WellFormed.scaledSumDigits, sub_self]
  rfl

section
variable (s : State) (rd ra rb : RegField) (ty : TypeFields) (el : Bool) (da db ea eb ed : Field16)

theorem checkedEffect_fmul : checkedEffect s (.fmul rd ra rb ty el da db ea eb) =
    checked ((Instr.pmul rd ra rb ty el da db).legal s.params)
      ((Instr.pmul rd ra rb ty el da db).withinCapacity s.params) (sourcesReadable s (.pmul rd ra rb ty el da db))
      (s.finish rd (s.valOf ra ty.s * s.valOf rb ty.s) (typeDigits ty el (da.toNat + db.toNat)) ty.s ty.ovf
        (ea.toInt + eb.toInt)) := by
  rw [checkedEffect, effectOf_fmul]
  rfl

theorem checkedEffect_fadd_same : checkedEffect s (.fadd rd ra rb ty el da db ea ea) =
    checked ((Instr.padd rd ra rb ty el da db).legal s.params)
      ((Instr.padd rd ra rb ty el da db).withinCapacity s.params) (sourcesReadable s (.padd rd ra rb ty el da db))
      (s.finish rd (s.valOf ra ty.s + s.valOf rb ty.s) (typeDigits ty el (max da.toNat db.toNat + 1)) ty.s ty.ovf
        ea.toInt) := by
  rw [checkedEffect, effectOf_fadd, scaledSumDigits_same, sub_self, Int.toNat_zero, pow_zero, mul_one, mul_one,
    min_self, Instr.withinCapacity, Instr.elasticDigits, scaledSumDigits_same]
  rfl

theorem checkedEffect_fdiv_zero : checkedEffect s (.fdiv rd ra rb ty el da db 0 0 0) =
    checkedEffect s (.pdiv rd ra rb ty el da db) := by
  have hshift : divideShift 0 0 0 = 0 := by decide
  have hexp : sextField 0 = 0 := by decide
  have heffect : effectOf s (.fdiv rd ra rb ty el da db 0 0 0) = effectOf s (.pdiv rd ra rb ty el da db) := by
    rw [effectOf, effectOf, scaledQuotientDigits, hshift, hexp, roundScaledRatio_eq]
    simp only [neg_zero, Int.toNat_zero, pow_zero, mul_one]
    rfl
  rw [checkedEffect, heffect]
  rfl

theorem checkedEffect_fqnt : checkedEffect s (.fqnt rd ra rb ty ed) =
    checkedEffect s (.fdiv rd ra rb ty false 0 0 0 0 ed) := by
  have hshift : divideShift 0 0 ed = -sextField ed := by
    rw [divideShift, show sextField 0 = 0 by decide, sub_self, zero_sub]
  have heffect : effectOf s (.fqnt rd ra rb ty ed) = effectOf s (.fdiv rd ra rb ty false 0 0 0 0 ed) := by
    rw [effectOf, effectOf, hshift]
    rfl
  have hlegal : (Instr.fqnt rd ra rb ty ed).legal s.params =
      (Instr.fdiv rd ra rb ty false 0 0 0 0 ed).legal s.params := by
    simp [Instr.legal, WellFormed.digits2]
  rw [checkedEffect, heffect, hlegal]
  rfl

end

/-- Commands with the same checks and the same effect leave the same state. -/
theorem next_eq_of_checkedEffect {i j : Instr} {s t u : State} (h : checkedEffect s i = checkedEffect s j)
    (ht : exec i s = .next t) (hu : exec j s = .next u) : t = u := by
  rw [exec_eq, h, ← exec_eq, hu] at ht
  exact (Host.Outcome.next.inj ht).symm

/-- Settles O58. The premise on `draws` is not needed: from one state both commands draw with the same counter. -/
theorem scaledCommandsBesidePolicyCommands : Obligations.ScaledCommandsBesidePolicyCommands := by
  intro s t u rd ra rb ty el da db ea eb ed _ _
  refine ⟨fun ht hu => ?_, fun ht hu => ?_, next_eq_of_checkedEffect (checkedEffect_fdiv_zero ..),
    next_eq_of_checkedEffect (checkedEffect_fqnt ..)⟩
  · rw [exec_eq, checkedEffect_fmul] at ht
    rw [exec_eq] at hu
    exact run_finish_exponent ht hu
  · rw [exec_eq, checkedEffect_fadd_same] at ht
    rw [exec_eq] at hu
    exact run_finish_exponent ht hu

/-! ### Copies and exact sums -/

/-- A register that holds the value of another one is a copy of it. -/
theorem State.Holds.reg_eq {s t : State} {r ra : RegField} {sg : Bool} (h : t.Holds r (s.valOf ra sg))
    (hp : t.params = s.params) (hs : s.RegsShaped) (hr : ra.toNat < s.params.nreg) (hv : s.readable ra = true) :
    t.reg r = s.reg ra := by
  rw [holds_iff.mp h, hp, words_valOf hs hr hv]

/-- Settles O59: no exponent is crossed, and a value read under `S` fits `NW` digits of `S`. -/
theorem conversionCopies : Obligations.ConversionCopies := by
  intro s rd ra ty e hi hdd hrnd hd ha hra
  have ⟨hp, hs, _⟩ := hi
  have hw : (Instr.fcvt rd ra ty ty.s e e).wellFormed s.params = true := by
    simp [Instr.wellFormed, Instr.legal, Instr.withinCapacity, Instr.elasticDigits, reg_of_lt hd, reg_of_lt ha,
      digits_of_full hp hdd, WellFormed.rounding, hrnd]
  obtain ⟨tag, htag⟩ := Option.isSome_iff_exists.mp ((roundingTag_isSome ty.rnd).trans (decide_eq_true hrnd))
  have he := effectOf_fcvt s rd ra ty e e htag ty.s
  rw [if_pos le_rfl, sub_self, Int.toNat_zero, pow_zero, mul_one] at he
  obtain ⟨t, ht, hwrites⟩ := exec_fits hi hw (readable_single rfl rfl hra) rfl rfl he
    (by rw [hdd]; exact fits_valOf hp hs ha ty.s)
  exact ⟨t, ht, hwrites.holds.reg_eq hwrites.succeeds.params hs ha hra⟩

/-- A value rescaled to the finer of two exponents is the same real number there (43_scaled.md R201). -/
theorem rescaled_mul_zpow (a : Int) {e f m : Int} (hm : m = min e f) :
    ((a * 2 ^ (e - f).toNat : Int) : ℚ) * 2 ^ m = a * 2 ^ e := by
  have hsum : ((e - f).toNat : Int) + m = e := by omega
  push_cast
  rw [mul_assoc, ← zpow_natCast, ← zpow_add₀ two_ne_zero, hsum]

/-- Settles O60: the result is read back exactly, and each rescaled operand is the same real number. -/
theorem scaledSumIsExact : Obligations.ScaledSumIsExact := by
  intro s t rd ra rb ty el da db ea eb hi hra hrb hw hfit ht
  obtain ⟨t', ht', hwrites⟩ := exec_fits hi hw (readable_pair rfl rfl hra hrb) rfl rfl (effectOf_fadd ..) hfit
  obtain rfl : t' = t := Host.Outcome.next.inj (ht'.symm.trans ht)
  have hl := hw
  rw [Instr.wellFormed, Bool.and_eq_true] at hl
  have hnw := (resultType_bounds hl.1 hl.2 rfl).2.1
  have hparams := hwrites.succeeds.params
  have hval := (hwrites.holds.valOf_eq_iff (hparams ▸ hi.1) ty.s).mpr (fits_mono (hparams ▸ hnw) hfit)
  rw [hval, hwrites.rtype.exponent, Int.cast_add, add_mul, rescaled_mul_zpow _ rfl, rescaled_mul_zpow _ (min_comm ..)]

end Sys2Proof.Machine
